-- ==== Sys2Proof/Word.lean ====
section
/-! DEFINITION. The word types of NTTE: the data word (R9, `W = 32`) and the host word address (R9, `AW = 28`). -/

namespace Sys2Proof

/-- A data word of the host port and of the registers: 32 bits (R9, R62). -/
abbrev Word := BitVec 32

/-- A host word address: 28 bits (R9, R60). -/
abbrev Address := BitVec 28

end Sys2Proof
end

