-- ==== Sys2Proof/Syntax.lean ====
section
/-! DEFINITION. The eleven commands of NTTE (R93), one constructor per row of the opcode table, with the formats
(R91) and the fields of a command word (R90). -/

namespace Sys2Proof

/-- A transform buffer, as the one-bit selectors BD and BS name it (R90, R92): `b0` is BUF0, `b1` is BUF1. -/
inductive Buffer where
  | b0
  | b1
  deriving DecidableEq, Repr

/-- A command (R93).  `d` is the buffer of field BD, `s` the buffer of field BS. -/
inductive Instr where
  /-- NOP (R173). -/
  | nop
  /-- ADDM (R128). -/
  | addm
  /-- SUBM (R129). -/
  | subm
  /-- MULM (R130). -/
  | mulm
  /-- POWM (R131). -/
  | powm
  /-- BITREV (R143). -/
  | bitrev
  /-- NTT.F on buffer `d` (R156). -/
  | nttF (d : Buffer)
  /-- NTT.I on buffer `d` (R157). -/
  | nttI (d : Buffer)
  /-- PWMUL: first factor and destination `d`, second factor `s` (R170). -/
  | pwmul (d s : Buffer)
  /-- CARRY on buffer `d` (R185). -/
  | carry (d : Buffer)
  /-- CLR of buffer `d` (R172). -/
  | clr (d : Buffer)
  deriving DecidableEq, Repr

/-- The command formats: which operand fields a command uses (R91). -/
inductive Format where
  /-- No operand field. -/
  | z
  /-- BD. -/
  | b
  /-- BD and BS. -/
  | bb
  /-- BD and DIR. -/
  | t
  deriving DecidableEq, Repr

/-- The fields of a 32-bit command word, most significant first (R90). -/
structure Fields where
  /-- OPC, bits [31:24]. -/
  opc : BitVec 8
  /-- The reserved bits [23:3]. -/
  reserved : BitVec 21
  /-- DIR, bit 2. -/
  dir : BitVec 1
  /-- BS, bit 1. -/
  bs : BitVec 1
  /-- BD, bit 0. -/
  bd : BitVec 1
  deriving DecidableEq, Repr

/-- The value of a one-bit buffer selector (R92). -/
def Buffer.bit : Buffer → BitVec 1
  | .b0 => 0
  | .b1 => 1

/-- The buffer a one-bit selector names (R92). -/
def Buffer.ofBit (b : BitVec 1) : Buffer :=
  if b = 0 then .b0 else .b1

/-- The other of the two buffers. -/
def Buffer.other : Buffer → Buffer
  | .b0 => .b1
  | .b1 => .b0

/-- The format of a command (R91). -/
def Instr.format : Instr → Format
  | .nop => .z
  | .addm => .z
  | .subm => .z
  | .mulm => .z
  | .powm => .z
  | .bitrev => .z
  | .nttF _ => .t
  | .nttI _ => .t
  | .pwmul _ _ => .bb
  | .carry _ => .b
  | .clr _ => .b

/-- The fields of a command's word: the opcode of R93 with the operand fields of its format (R91). -/
def Instr.fields : Instr → Fields
  | .nop => ⟨0x00, 0, 0, 0, 0⟩
  | .addm => ⟨0x01, 0, 0, 0, 0⟩
  | .subm => ⟨0x02, 0, 0, 0, 0⟩
  | .mulm => ⟨0x03, 0, 0, 0, 0⟩
  | .powm => ⟨0x04, 0, 0, 0, 0⟩
  | .bitrev => ⟨0x08, 0, 0, 0, 0⟩
  | .nttF d => ⟨0x09, 0, 0, 0, d.bit⟩
  | .nttI d => ⟨0x09, 0, 1, 0, d.bit⟩
  | .pwmul d s => ⟨0x0A, 0, 0, s.bit, d.bit⟩
  | .carry d => ⟨0x0B, 0, 0, 0, d.bit⟩
  | .clr d => ⟨0x0C, 0, 0, 0, d.bit⟩

end Sys2Proof
end

