-- ==== Sys2Proof/WellFormed.lean ====
section
/-! DEFINITION. When the fields of a command word are well formed (R90, R91, R94): the opcode is assigned, the
reserved bits are 0, and every operand field the opcode's format does not use is 0.  The checks are made on the
fields of a word, since a term of `Instr` cannot carry a field its format lacks. -/

namespace Sys2Proof

/-- The format that an opcode has, if the opcode is assigned (R91, R93). -/
def Format.ofOpcode (opc : BitVec 8) : Option Format :=
  if opc = 0x00 ∨ opc = 0x01 ∨ opc = 0x02 ∨ opc = 0x03 ∨ opc = 0x04 ∨ opc = 0x08 then some .z
  else if opc = 0x09 then some .t
  else if opc = 0x0A then some .bb
  else if opc = 0x0B ∨ opc = 0x0C then some .b
  else none

/-- May the format use the field DIR (R91)? -/
def Format.usesDir : Format → Bool
  | .t => true
  | .z => false
  | .b => false
  | .bb => false

/-- May the format use the field BS (R91)? -/
def Format.usesBs : Format → Bool
  | .bb => true
  | .z => false
  | .b => false
  | .t => false

/-- May the format use the field BD (R91)? -/
def Format.usesBd : Format → Bool
  | .z => false
  | .b => true
  | .bb => true
  | .t => true

/-- The bits of a command word that must be 0 in a format (R91). -/
def Format.mustBeZero : Format → Word
  | .z => 0x00FFFFFF
  | .b => 0x00FFFFFE
  | .bb => 0x00FFFFFC
  | .t => 0x00FFFFFA

/-- Are the fields those of a legal command word (R90, R91)? -/
def Fields.wellFormed (f : Fields) : Bool :=
  match Format.ofOpcode f.opc with
  | none => false
  | some fmt =>
    f.reserved = 0 && (fmt.usesDir || f.dir = 0) && (fmt.usesBs || f.bs = 0) && (fmt.usesBd || f.bd = 0)

/-- A command is well formed when the fields it assigns are. -/
def Instr.wellFormed (i : Instr) : Bool :=
  i.fields.wellFormed

end Sys2Proof
end

