-- ==== Sys2Proof/Decode.lean ====
section
/-! DEFINITION. The opcode map (R93) as a table of masks and matches, the decoder it gives (R94, R97), total on all
2^32 words, and the encoder, written from the field layout (R90). -/

namespace Sys2Proof

/-- One row of the opcode map (R93): a word `w` selects it when `w AND mask = pattern`; `build d s` is the command. -/
structure Row where
  mnemonic : String
  pattern : Word
  mask : Word
  build : Buffer → Buffer → Instr

/-- The eleven rows of the opcode map (R93). -/
def opcodeMap : List Row :=
  [ ⟨"NOP", 0x00000000, 0xFFFFFFFF, fun _ _ => .nop⟩,
    ⟨"ADDM", 0x01000000, 0xFFFFFFFF, fun _ _ => .addm⟩,
    ⟨"SUBM", 0x02000000, 0xFFFFFFFF, fun _ _ => .subm⟩,
    ⟨"MULM", 0x03000000, 0xFFFFFFFF, fun _ _ => .mulm⟩,
    ⟨"POWM", 0x04000000, 0xFFFFFFFF, fun _ _ => .powm⟩,
    ⟨"BITREV", 0x08000000, 0xFFFFFFFF, fun _ _ => .bitrev⟩,
    ⟨"NTT.F", 0x09000000, 0xFFFFFFFE, fun d _ => .nttF d⟩,
    ⟨"NTT.I", 0x09000004, 0xFFFFFFFE, fun d _ => .nttI d⟩,
    ⟨"PWMUL", 0x0A000000, 0xFFFFFFFC, fun d s => .pwmul d s⟩,
    ⟨"CARRY", 0x0B000000, 0xFFFFFFFE, fun d _ => .carry d⟩,
    ⟨"CLR", 0x0C000000, 0xFFFFFFFE, fun d _ => .clr d⟩ ]

/-- Does the word select the row (R93)? -/
def Row.selects (r : Row) (w : Word) : Bool :=
  w &&& r.mask = r.pattern

/-- The buffer named by BD, bit 0 of the word (R90, R97). -/
def wordBd (w : Word) : Buffer :=
  Buffer.ofBit (w.extractLsb' 0 1)

/-- The buffer named by BS, bit 1 of the word (R90, R97). -/
def wordBs (w : Word) : Buffer :=
  Buffer.ofBit (w.extractLsb' 1 1)

/-- The command of a word, or none when the word matches no row and is illegal (R94, R97). -/
def decode (w : Word) : Option Instr :=
  (opcodeMap.find? fun r => r.selects w).map fun r => r.build (wordBd w) (wordBs w)

/-- The fields of a word (R90). -/
def Fields.ofWord (w : Word) : Fields where
  opc := w.extractLsb' 24 8
  reserved := w.extractLsb' 3 21
  dir := w.extractLsb' 2 1
  bs := w.extractLsb' 1 1
  bd := w.extractLsb' 0 1

/-- The word that fields make up, most significant first (R90). -/
def Fields.toWord (f : Fields) : Word :=
  f.opc ++ f.reserved ++ f.dir ++ f.bs ++ f.bd

/-- The command word of a command (R90, R93, R100). -/
def encode (i : Instr) : Word :=
  i.fields.toWord

/-- The command the decoder reads from a word given as a number of `nbits` bits.  A command is one 32-bit word (R90,
R96), so bits above `nbits` are 0 and more than 32 bits are no command. -/
def decodeTableWord (nbits w : Nat) : Option Instr :=
  if nbits ≤ 32 then decode (BitVec.ofNat 32 (w % 2 ^ nbits)) else none

end Sys2Proof
end

