-- ==== Sys2Proof/Config.lean ====
section
/-! DEFINITION. What NTTE's rules fix once for the machine (R7 to R9, R31, R32), and the open values: the draws of
reads made while a command is pending (R69, U9) and the driver's operand-length limit (R11). -/

namespace Sys2Proof.Config

/-- The hard-wired modulus `P = 998244353` (R7). -/
def P : Nat := 998244353

/-- The hard-wired primitive root `G = 3` (R7); the root of the forward transform (R153). -/
def G : Nat := 3

/-- `GINV = 332748118`, the inverse of `G` modulo `P` (R7); the root of the inverse transform (R153). -/
def GINV : Nat := 332748118

/-- The largest supported base-2 logarithm of the transform length: 23 (R8).  DESIGN CHOICE, log entry 10. -/
abbrev KMAX : Nat := 23

/-- The capacity of each transform buffer and of the bit-reversal table, in elements (R9). -/
def NCAP : Nat := 2 ^ KMAX

/-- The capacity of the digit memory, in digits (R9): the longest transform and the nine digits a carry can flush. -/
def DCAP : Nat := NCAP + 9

/-- The hard-wired identification word, ASCII "NTT1" (R31). -/
def idWord : Word := 0x4E545431

/-- The hard-wired capability word: `KMAX` in bits [4:0], all other bits 0 (R32). -/
def capWord : Word := BitVec.ofNat 32 KMAX

/-- FREE VALUE (R69, U9): the word the `n`-th draw returns, to a host read of an engine-owned location made while a
command is pending.  Nothing constrains it (DESIGN CHOICE of its form, log entry 1). -/
opaque draw : Nat → Word

/-- The part of `LMAX` that the spec leaves OPEN (R11): `LMAX` less one, so that `1 ≤ LMAX` holds by its form. -/
opaque lmaxLessOne : Nat

/-- `LMAX`, the largest operand length the host driver accepts, in digits: an open parameter with `1 ≤ LMAX` (R11).
UNVERIFIED,
log entry 8. -/
def LMAX : Nat := lmaxLessOne + 1

end Sys2Proof.Config
end

