-- ==== Sys2Proof/Machine/State.lean ====
section
/-! DEFINITION. The state of NTTE (R21): the registers (R30), the four memories (R40 to R42), and, as the model's
own fields, the agent outside the block: the host's coming port events, what its last read returned, and the count of
draws.  With it the state after reset (R45) and the reasons a step can stop. -/

namespace Sys2Proof.Machine

/-- What the outside of NTTE does next (R20).  A list of these in the state says in which order the host and the engine
move (DESIGN CHOICE, log entry 2). -/
inductive HostEvent where
  /-- One host read transaction, `MemRead(a, 1)` (R14). -/
  | read (a : Address)
  /-- One host write transaction, `MemWrite(a, 1, v)` (R14). -/
  | write (a : Address) (v : Word)
  /-- The platform asserts the reset input (R240). -/
  | resetInput
  /-- The host makes no transaction: the engine takes its step if it has one (R102, `WAIT`). -/
  | wait
  deriving DecidableEq, Repr

/-- A memory of `w`-bit elements: (index, element) pairs with strictly rising indices and no element equal to 0, which
is what an unlisted index reads as (R45).  The form is `Memory.wf`.  DESIGN CHOICE, log entry 7. -/
abbrev Memory (w : Nat) := List (Nat × BitVec w)

/-- The fields of register STATUS (R34).  Bits [31:13] are hard-wired 0 and have no storage (U17). -/
structure Status where
  /-- BUSY, bit 0: a command has been accepted and has not finished. -/
  busy : Bool
  /-- DONE, bit 1: the most recently accepted command finished with no command error. -/
  done : Bool
  /-- ERR, bit 2: an error has been recorded since reset. -/
  err : Bool
  /-- REVV, bit 3: REV holds a table built by BITREV. -/
  revv : Bool
  /-- ECODE, bits [7:4]: the code of the first error recorded since reset, 0 if none. -/
  ecode : BitVec 4
  /-- REVK, bits [12:8]: the k for which REV was last built, 0 if never. -/
  revk : BitVec 5
  deriving DecidableEq, Repr

/-- The reasons a step can stop with a fault.  There is none: every host transaction, in every state, and every command
word, in every state, has an outcome fixed by the rules (R253, and the closing paragraph of 93_implementation_defined.md
section 2), and an NTTE error is recorded in STATUS while the machine goes on (R210).  DEDUCED, log entry 11. -/
inductive Fault where
  deriving DecidableEq, Repr

/-- The reasons a step can be refused. -/
inductive Refusal where
  /-- Raised by an arm of `exec` for a command that has no meaning in the model (safe: the model stops where the
  hardware goes on).  Every command of the table has its meaning, so no arm raises it. -/
  | notModelled (mnemonic : String)
  deriving DecidableEq, Repr

/-- The state of NTTE (R21), with the agent outside it.  ID and CAP are hard-wired and CTRL has no storage (R31 to
R33): they are read through `Register.value` (DEDUCED, log entry 6). -/
structure State where
  /-- STATUS (R34). -/
  status : Status
  /-- CFG.LOGN, the only stored bits of CFG (R35). -/
  logn : BitVec 5
  /-- CMD: the most recently accepted command word (R36); while BUSY, the pending command (R44). -/
  cmd : Word
  /-- OPX (R22). -/
  opx : Word
  /-- OPY (R22). -/
  opy : Word
  /-- RES (R23). -/
  res : Word
  /-- RLEN.COUNT, the only stored bits of RLEN (R38). -/
  rlen : BitVec 24
  /-- BUF0 (R40). -/
  buf0 : Memory 32
  /-- BUF1 (R40). -/
  buf1 : Memory 32
  /-- REV, the bit-reversal table: entries of `KMAX` bits (R41). -/
  rev : Memory Config.KMAX
  /-- DIG, the result digits: entries of 4 bits (R42). -/
  dig : Memory 4
  /-- The model's own: what the outside does next, earliest first (log entry 2). -/
  script : List HostEvent
  /-- The model's own: the word the most recent host read returned, none before the first read (DESIGN CHOICE,
  log entry 3). -/
  lastRead : Option Word
  /-- The model's own: how many draws reads have taken (DESIGN CHOICE, log entry 1). -/
  draws : Nat
  deriving DecidableEq, Repr

/-- STATUS after reset: all fields 0 (R45). -/
def Status.reset : Status where
  busy := false
  done := false
  err := false
  revv := false
  ecode := 0
  revk := 0

/-- The state after reset (R45): every register and every memory word 0; nothing is pending and the host has done
nothing. -/
def State.reset : State where
  status := Status.reset
  logn := 0
  cmd := 0
  opx := 0
  opy := 0
  res := 0
  rlen := 0
  buf0 := []
  buf1 := []
  rev := []
  dig := []
  script := []
  lastRead := none
  draws := 0

end Sys2Proof.Machine
end

