-- ==== Sys2Proof/Machine/Flags.lean ====
section
/-! DEFINITION. The flag computations (R26, R34): how each event changes the fields of STATUS, the error codes (R211)
and the error record (R213), and the word a read of STATUS returns. -/

namespace Sys2Proof.Machine

/-- The six errors (R211). -/
inductive ErrorCode where
  /-- E_OPCODE: the accepted command word matches no row. -/
  | opcode
  /-- E_RANGE: a host wrote a value that is no field element. -/
  | range
  /-- E_OVERFLOW: `CFG.LOGN > KMAX` at the start of a command that uses n. -/
  | overflow
  /-- E_TABLE: an NTT command started while the table is not valid for k. -/
  | table
  /-- E_ACCESS: an unmapped address, or a write to a read-only location. -/
  | access
  /-- E_BUSY: a host write other than to CTRL while a command is pending. -/
  | busy
  deriving DecidableEq, Repr

/-- The value of ECODE that records an error (R211). -/
def ErrorCode.code : ErrorCode → BitVec 4
  | .opcode => 1
  | .range => 2
  | .overflow => 3
  | .table => 4
  | .access => 5
  | .busy => 6

/-- The error record (R213): the first error since reset is kept, a later one changes nothing. -/
def Status.record (e : ErrorCode) (st : Status) : Status :=
  if st.err then st else { st with ecode := e.code, err := true }

/-- STATUS when a CMD write is accepted (R37). -/
def Status.accept (st : Status) : Status :=
  { st with done := false, busy := true }

/-- STATUS when a command finishes with no command error (R97). -/
def Status.finish (st : Status) : Status :=
  { st with busy := false, done := true }

/-- STATUS when a check of a command fails (R214): the error record, then BUSY cleared; DONE is not written. -/
def Status.fail (e : ErrorCode) (st : Status) : Status :=
  { st.record e with busy := false }

/-- STATUS when a table for length `2^k` has been built (R143). -/
def Status.tableBuilt (k : BitVec 5) (st : Status) : Status :=
  { st with revk := k, revv := true }

/-- The word a read of STATUS returns (R34). -/
def Status.toWord (st : Status) : Word :=
  (0 : BitVec 19) ++ st.revk ++ st.ecode ++ BitVec.ofBool st.revv ++ BitVec.ofBool st.err ++
    BitVec.ofBool st.done ++ BitVec.ofBool st.busy

end Sys2Proof.Machine
end

