-- ==== Sys2Proof/Machine/Ops.lean ====
section
/-! DEFINITION. The named operations over memories and state: element read and write, the canonical form, the counted
loop, taking an error (R213, R214), finishing a command (R97), and reset, the only return from the error state
(R216, R241). -/

namespace Sys2Proof.Machine

/-- The element at an index; an unlisted index reads as 0 (R45). -/
def Memory.get {w : Nat} : Memory w → Nat → BitVec w
  | [], _ => 0
  | (j, u) :: m, i => if j = i then u else Memory.get m i

/-- The memory without any entry for an index. -/
def Memory.erase {w : Nat} (m : Memory w) (i : Nat) : Memory w :=
  m.filter fun c => c.1 != i

/-- The memory with an entry put before the first entry of a higher index. -/
def Memory.insert {w : Nat} : Memory w → Nat → BitVec w → Memory w
  | [], i, v => [(i, v)]
  | (j, u) :: m, i, v => if i < j then (i, v) :: (j, u) :: m else (j, u) :: Memory.insert m i v

/-- Write an element, keeping the canonical form: writing 0 removes the entry. -/
def Memory.set {w : Nat} (m : Memory w) (i : Nat) (v : BitVec w) : Memory w :=
  if v = 0 then m.erase i else (m.erase i).insert i v

/-- The canonical form of a memory of `cap` elements: strictly rising indices below `cap`, no element 0. -/
abbrev Memory.wf {w : Nat} (cap : Nat) (m : Memory w) : Prop :=
  m.Pairwise (fun a b => a.1 < b.1) ∧ ∀ c ∈ m, c.1 < cap ∧ c.2 ≠ 0

/-- The loop `for i from 0 to n-1`: the body is run for `i = 0` first. -/
def forUpTo {σ : Type} : Nat → (Nat → σ → σ) → σ → σ
  | 0, _, x => x
  | n + 1, body, x => body n (forUpTo n body x)

/-- `raise E_X` in a host transaction (R15, R213). -/
def State.raise (e : ErrorCode) (s : State) : State :=
  { s with status := s.status.record e }

/-- Error entry for a command (R214): the error record and BUSY cleared, and nothing else. -/
def State.failCommand (e : ErrorCode) (s : State) : State :=
  { s with status := s.status.fail e }

/-- The end of a command that made no error (R97): BUSY cleared and DONE set. -/
def State.finish (s : State) : State :=
  { s with status := s.status.finish }

/-- The reset event (R241): every register and every memory word takes its reset value and a pending command is
abandoned.  What is outside NTTE, the model's own fields, stays (log entry 2). -/
def State.resetMachine (s : State) : State :=
  { State.reset with script := s.script, lastRead := s.lastRead, draws := s.draws }

/-- A host read returns a word. -/
def State.answer (v : Word) (s : State) : State :=
  { s with lastRead := some v }

/-- A host read returns a draw (R69): the next free value, whatever it is. -/
def State.answerDraw (s : State) : State :=
  { s with lastRead := some (Config.draw s.draws), draws := s.draws + 1 }

/-- The state with a command word pending, as an accepted CMD write leaves it (R37). -/
def State.acceptCommand (w : Word) (s : State) : State :=
  { s with cmd := w, status := s.status.accept }

/-- The state in which the engine moves next: if the outside has events to come, a `wait` is put before them. -/
def State.engineNext (s : State) : State :=
  match s.script with
  | [] => s
  | e :: rest => { s with script := .wait :: e :: rest }

end Sys2Proof.Machine
end

