-- ==== Sys2Proof/Machine/Operands.lean ====
section
/-! DEFINITION. Every operand form of the commands (R92): the buffer a selector names, the transform length, the scalar
operands and result, and the two checks made on them before a command writes (R97 checks 2 and 3, R144). -/

namespace Sys2Proof.Machine

/-- The contents of a buffer (R92: value b selects `BUF[b]`). -/
def State.buf (s : State) : Buffer → Memory 32
  | .b0 => s.buf0
  | .b1 => s.buf1

/-- The state with a buffer's contents replaced. -/
def State.setBuf (s : State) (d : Buffer) (m : Memory 32) : State :=
  match d with
  | .b0 => { s with buf0 := m }
  | .b1 => { s with buf1 := m }

/-- `k = CFG.LOGN` (R19). -/
def State.k (s : State) : Nat :=
  s.logn.toNat

/-- `n = 2^k`, the transform length (R10). -/
def State.n (s : State) : Nat :=
  2 ^ s.k

/-- Is the bit-reversal table valid for the current k (R144)? -/
def State.tableValid (s : State) : Bool :=
  s.status.revv && s.status.revk == s.logn

/-- A scalar command: `RES <- f(OPX, OPY)` (R127). -/
def State.scalar (f : Nat → Nat → Nat) (s : State) : State :=
  { s with res := BitVec.ofNat 32 (f s.opx.toNat s.opy.toNat) }

/-- Run the body of a command that uses n: check 2 of R97 (`k <= KMAX`, else E_OVERFLOW), then the body, then the end
of the command. -/
def State.withLength (s : State) (body : State → State) : State :=
  if Config.KMAX < s.k then s.failCommand .overflow else (body s).finish

/-- Run the body of an NTT command: check 2, then check 3 of R97 (the table is valid for k, else E_TABLE), then the
body, then the end of the command (R151). -/
def State.withTable (s : State) (body : State → State) : State :=
  if Config.KMAX < s.k then s.failCommand .overflow
  else if s.tableValid then (body s).finish else s.failCommand .table

end Sys2Proof.Machine
end

