-- ==== Sys2Proof/Machine/BitReversal.lean ====
section
/-! DEFINITION. The bit-reversal permutation unit: the function `rev_k` (R141) and the command BITREV (R143). -/

namespace Sys2Proof.Machine

/-- `rev_k(i)`: bit t of `i` goes to bit `k-1-t` of the result (R141). -/
def revBits (k i : Nat) : Nat :=
  forUpTo k (fun t r => if i.testBit t then r + 2 ^ (k - 1 - t) else r) 0

/-- The table with its entries for length `2^k` written (R143). -/
def buildTable (k : Nat) (rev : Memory Config.KMAX) : Memory Config.KMAX :=
  forUpTo (2 ^ k) (fun i m => m.set i (BitVec.ofNat Config.KMAX (revBits k i))) rev

/-- The body of BITREV (R143): the table is written, then REVK and REVV. -/
def State.buildRev (s : State) : State :=
  { s with rev := buildTable s.k s.rev, status := s.status.tableBuilt s.logn }

/-- BITREV (R143). -/
def execBitrev (s : State) : Host.Outcome State Fault Refusal :=
  .next (s.withLength State.buildRev)

end Sys2Proof.Machine
end

