-- ==== Sys2Proof/Machine/Field.lean ====
section
/-! DEFINITION. The pure field functions of the modular arithmetic unit (R121 to R124), on the integers the field
elements are. -/

namespace Sys2Proof.Machine

/-- `add_mod(x, y)` by one conditional subtraction (R121). -/
def addMod (x y : Nat) : Nat :=
  if Config.P ≤ x + y then x + y - Config.P else x + y

/-- `sub_mod(x, y)`: the comparison selects the non-negative expression (R122). -/
def subMod (x y : Nat) : Nat :=
  if y ≤ x then x - y else x + Config.P - y

/-- `mul_mod(x, y)`: the exact product, then reduced (R123). -/
def mulMod (x y : Nat) : Nat :=
  x * y % Config.P

/-- The loop of `pow_mod` (R124), `r` the result so far, with a count that bounds its turns (DESIGN CHOICE,
log entry 14). -/
def powLoop : Nat → Nat → Nat → Nat → Nat
  | 0, r, _, _ => r
  | turns + 1, r, b, e =>
    if e = 0 then r
    else powLoop turns (if e % 2 = 1 then mulMod r b else r) (mulMod b b) (e / 2)

/-- `pow_mod(b, e)` by squaring and multiplying, once per bit of `e` up to its highest set bit (R124). -/
def powMod (b e : Nat) : Nat :=
  powLoop (Nat.log2 e + 1) 1 b e

end Sys2Proof.Machine
end

