-- ==== Sys2Proof/Machine/Buffers.lean ====
section
/-! DEFINITION. The pointwise multiplier PWMUL (R170), the buffer clear CLR (R172) and NOP (R173). -/

namespace Sys2Proof.Machine

/-- The loop of PWMUL (R170): element i of the destination becomes its product with element i of the second factor.
Each product reads both elements before it is written, also where the two buffers are one. -/
def State.multiplyElems (d b : Buffer) (s : State) : State :=
  forUpTo s.n
    (fun i t =>
      t.setBuf d ((t.buf d).set i
        (BitVec.ofNat 32 (mulMod ((t.buf d).get i).toNat ((t.buf b).get i).toNat)))) s

/-- The loop of CLR (R172). -/
def clearElems (n : Nat) (m : Memory 32) : Memory 32 :=
  forUpTo n (fun i m => m.set i 0) m

/-- PWMUL (R170). -/
def execPwmul (d b : Buffer) (s : State) : Host.Outcome State Fault Refusal :=
  .next (s.withLength (State.multiplyElems d b))

/-- CLR (R172). -/
def execClr (d : Buffer) (s : State) : Host.Outcome State Fault Refusal :=
  .next (s.withLength fun s => s.setBuf d (clearElems s.n (s.buf d)))

/-- NOP (R173): only the end of the command. -/
def execNop (s : State) : Host.Outcome State Fault Refusal :=
  .next s.finish

end Sys2Proof.Machine
end

