-- ==== Sys2Proof/Machine/Carry.lean ====
section
/-! DEFINITION. The carry-propagation normaliser: the carry loop (R181), the flush (R182), the trim (R183) and the
command CARRY (R185). -/

namespace Sys2Proof.Machine

/-- Write a decimal digit to the digit memory. -/
def setDigit (dig : Memory 4) (i v : Nat) : Memory 4 :=
  dig.set i (BitVec.ofNat 4 v)

/-- The carry loop (R181) over positions `0 .. n-1`: the digit memory and the carry left. -/
def carryLoop (n : Nat) (m : Memory 32) (dig : Memory 4) : Memory 4 × Nat :=
  forUpTo n
    (fun i (x : Memory 4 × Nat) =>
      (setDigit x.1 i (((m.get i).toNat + x.2) % 10), ((m.get i).toNat + x.2) / 10)) (dig, 0)

/-- The flush (R182) of a carry to the digits from index `m` on: the digit memory and the digit count, with a count that
bounds its turns (DESIGN CHOICE, log entry 14). -/
def flushLoop : Nat → Nat → Memory 4 → Nat → Memory 4 × Nat
  | 0, _, dig, m => (dig, m)
  | turns + 1, carry, dig, m =>
    if carry = 0 then (dig, m)
    else flushLoop turns (carry / 10) (setDigit dig m (carry % 10)) (m + 1)

/-- The flush (R182): a number has no more decimal digits than bits, so the turns suffice. -/
def flushCarry (carry : Nat) (dig : Memory 4) (m : Nat) : Memory 4 × Nat :=
  flushLoop (Nat.log2 carry + 1) carry dig m

/-- The trim (R183): the count without its high zero digits, never below 1. -/
def trim (dig : Memory 4) : Nat → Nat
  | 0 => 0
  | 1 => 1
  | r + 2 => if dig.get (r + 1) = 0 then trim dig (r + 1) else r + 2

/-- The digit memory and the untrimmed digit count that CARRY leaves (R185). -/
def carryDigits (n : Nat) (m : Memory 32) (dig : Memory 4) : Memory 4 × Nat :=
  flushCarry (carryLoop n m dig).2 (carryLoop n m dig).1 n

/-- The body of CARRY on a buffer's contents (R185). -/
def State.normalise (m : Memory 32) (s : State) : State :=
  { s with
    dig := (carryDigits s.n m s.dig).1
    rlen := BitVec.ofNat 24 (trim (carryDigits s.n m s.dig).1 (carryDigits s.n m s.dig).2) }

/-- CARRY (R185). -/
def execCarry (d : Buffer) (s : State) : Host.Outcome State Fault Refusal :=
  .next (s.withLength fun s => s.normalise (s.buf d))

end Sys2Proof.Machine
end

