-- ==== Sys2Proof/Machine/Ntt.lean ====
section
/-! DEFINITION. The NTT butterfly engine: the permutation (R152), the stages (R153), the butterfly (R154), the scaling
(R155), and the commands NTT.F (R156) and NTT.I (R157).  The loops run in the order R156 writes them. -/

namespace Sys2Proof.Machine

/-- An element of a buffer as an integer. -/
def elem (m : Memory 32) (i : Nat) : Nat :=
  (m.get i).toNat

/-- Write an integer to an element of a buffer. -/
def setElem (m : Memory 32) (i v : Nat) : Memory 32 :=
  m.set i (BitVec.ofNat 32 v)

/-- `swap(BUF[i], BUF[r])` (R13): both old values are read before either is written. -/
def swapElems (m : Memory 32) (i r : Nat) : Memory 32 :=
  (m.set i (m.get r)).set r (m.get i)

/-- Step 1 (R152): for each i of the active range, swap elements i and `REV[i]` when `i < REV[i]`. -/
def permute (n : Nat) (rev : Memory Config.KMAX) (m : Memory 32) : Memory 32 :=
  forUpTo n (fun i m => if i < (rev.get i).toNat then swapElems m i (rev.get i).toNat else m) m

/-- The butterfly (R154) on the elements `lo` and `hi` with twiddle `w`: both are read before either is written. -/
def butterfly (lo hi w : Nat) (m : Memory 32) : Memory 32 :=
  let u := elem m lo
  let v := mulMod (elem m hi) w
  setElem (setElem m lo (addMod u v)) hi (subMod u v)

/-- One block of a stage (R153): butterflies over the first half of the block at `base`, the running twiddle starting
at 1. -/
def nttBlock (wlen len base : Nat) (m : Memory 32) : Memory 32 :=
  (forUpTo (len / 2)
    (fun j (x : Memory 32 × Nat) =>
      (butterfly (base + j) (base + j + len / 2) x.2 x.1, mulMod x.2 wlen)) (m, 1)).1

/-- One stage (R153): the twiddle generator, then every block of length `len`. -/
def nttStage (root n len : Nat) (m : Memory 32) : Memory 32 :=
  forUpTo (n / len) (fun b m => nttBlock (powMod root ((Config.P - 1) / len)) len (b * len) m) m

/-- Step 2 (R153): the stages `len = 2, 4, ..., 2^k`. -/
def nttStages (root k : Nat) (m : Memory 32) : Memory 32 :=
  forUpTo k (fun t m => nttStage root (2 ^ k) (2 ^ (t + 1)) m) m

/-- Step 3 of the inverse (R155): every element times `pow_mod(n, P-2)`. -/
def scaleElems (n : Nat) (m : Memory 32) : Memory 32 :=
  forUpTo n (fun i m => setElem m i (mulMod (elem m i) (powMod n (Config.P - 2)))) m

/-- The buffer after NTT.F (R156). -/
def nttForward (k : Nat) (rev : Memory Config.KMAX) (m : Memory 32) : Memory 32 :=
  nttStages Config.G k (permute (2 ^ k) rev m)

/-- The buffer after NTT.I (R157). -/
def nttInverse (k : Nat) (rev : Memory Config.KMAX) (m : Memory 32) : Memory 32 :=
  scaleElems (2 ^ k) (nttStages Config.GINV k (permute (2 ^ k) rev m))

/-- NTT.F (R156). -/
def execNttF (d : Buffer) (s : State) : Host.Outcome State Fault Refusal :=
  .next (s.withTable fun s => s.setBuf d (nttForward s.k s.rev (s.buf d)))

/-- NTT.I (R157). -/
def execNttI (d : Buffer) (s : State) : Host.Outcome State Fault Refusal :=
  .next (s.withTable fun s => s.setBuf d (nttInverse s.k s.rev (s.buf d)))

end Sys2Proof.Machine
end

