-- ==== Sys2Proof/Machine/Scalar.lean ====
section
/-! DEFINITION. The scalar commands ADDM, SUBM, MULM and POWM (R127 to R131).  They do not use n, so they make no check
and always finish. -/

namespace Sys2Proof.Machine

/-- ADDM: `RES <- add_mod(OPX, OPY)` (R128). -/
def execAddm (s : State) : Host.Outcome State Fault Refusal :=
  .next (s.scalar addMod).finish

/-- SUBM: `RES <- sub_mod(OPX, OPY)` (R129). -/
def execSubm (s : State) : Host.Outcome State Fault Refusal :=
  .next (s.scalar subMod).finish

/-- MULM: `RES <- mul_mod(OPX, OPY)` (R130). -/
def execMulm (s : State) : Host.Outcome State Fault Refusal :=
  .next (s.scalar mulMod).finish

/-- POWM: `RES <- pow_mod(OPX, OPY)` (R131). -/
def execPowm (s : State) : Host.Outcome State Fault Refusal :=
  .next (s.scalar powMod).finish

end Sys2Proof.Machine
end

