-- ==== Sys2Proof/Machine/Dispatch.lean ====
section
/-! DEFINITION. `exec`: the engine's whole step on a decoded command (R97): its checks, its effect and its end. -/

namespace Sys2Proof.Machine

def exec (i : Instr) (s : State) : Host.Outcome State Fault Refusal :=
  match i with
  | .nop => Sys2Proof.Machine.execNop s
  | .addm => Sys2Proof.Machine.execAddm s
  | .subm => Sys2Proof.Machine.execSubm s
  | .mulm => Sys2Proof.Machine.execMulm s
  | .powm => Sys2Proof.Machine.execPowm s
  | .bitrev => Sys2Proof.Machine.execBitrev s
  | .nttF d => Sys2Proof.Machine.execNttF d s
  | .nttI d => Sys2Proof.Machine.execNttI d s
  | .pwmul d b => Sys2Proof.Machine.execPwmul d b s
  | .carry d => Sys2Proof.Machine.execCarry d s
  | .clr d => Sys2Proof.Machine.execClr d s

end Sys2Proof.Machine
end

