-- ==== Sys2Proof/Machine/HostPort.lean ====
section
/-! DEFINITION. The host port: the address map (R61, R63, R70), the register reads (R30 to R38), host reads (R66, R69)
and host writes (R67, R69, R37). -/

namespace Sys2Proof.Machine

/-- The registers of region 0 (R30). -/
inductive Register where
  | id
  | cap
  | ctrl
  | status
  | cfg
  | cmd
  | opx
  | opy
  | res
  | rlen
  deriving DecidableEq, Repr

/-- What a host address names (R63). -/
inductive Location where
  | register (r : Register)
  | buffer (b : Buffer) (i : Nat)
  | rev (i : Nat)
  | dig (i : Nat)
  | unmapped
  deriving DecidableEq, Repr

/-- The register at an index of region 0, none where the index is reserved (R30, R39). -/
def Register.ofIndex : Nat → Option Register
  | 0 => some .id
  | 1 => some .cap
  | 2 => some .ctrl
  | 3 => some .status
  | 4 => some .cfg
  | 5 => some .cmd
  | 6 => some .opx
  | 7 => some .opy
  | 8 => some .res
  | 9 => some .rlen
  | _ => none

/-- The index of a register in region 0 (R30). -/
def Register.index : Register → Nat
  | .id => 0
  | .cap => 1
  | .ctrl => 2
  | .status => 3
  | .cfg => 4
  | .cmd => 5
  | .opx => 6
  | .opy => 7
  | .res => 8
  | .rlen => 9

/-- What an address names, by region `a[27:24]` and index `a[23:0]` (R61, R63, R70). -/
def locate (a : Address) : Location :=
  let i := (a.extractLsb' 0 24).toNat
  match (a.extractLsb' 24 4).toNat with
  | 0 =>
    match Register.ofIndex i with
    | some r => .register r
    | none => .unmapped
  | 1 => if i < Config.NCAP then .buffer .b0 i else .unmapped
  | 2 => if i < Config.NCAP then .buffer .b1 i else .unmapped
  | 3 => if i < Config.NCAP then .rev i else .unmapped
  | 4 => if i < Config.DCAP then .dig i else .unmapped
  | _ => .unmapped

/-- The address of a location in a host script (R101); of no location, the first unmapped address. -/
def Location.address : Location → Address
  | .register r => BitVec.ofNat 28 r.index
  | .buffer .b0 i => BitVec.ofNat 28 (0x1000000 + i)
  | .buffer .b1 i => BitVec.ofNat 28 (0x2000000 + i)
  | .rev i => BitVec.ofNat 28 (0x3000000 + i)
  | .dig i => BitVec.ofNat 28 (0x4000000 + i)
  | .unmapped => 10

/-- The word a read of a register returns while nothing makes it a draw (R30 to R38, R22, R23): the hard-wired words
of ID and CAP, 0 for CTRL, and the stored fields with all other bits 0. -/
def Register.value (s : State) : Register → Word
  | .id => Config.idWord
  | .cap => Config.capWord
  | .ctrl => 0
  | .status => s.status.toWord
  | .cfg => s.logn.setWidth 32
  | .cmd => s.cmd
  | .opx => s.opx
  | .opy => s.opy
  | .res => s.res
  | .rlen => s.rlen.setWidth 32

/-- The word a read of a mapped location returns while the engine is idle (R66); entries narrower than a word are
zero-extended (R62).  An unmapped address reads as 0 (R70). -/
def Location.value (s : State) : Location → Word
  | .register r => r.value s
  | .buffer b i => (s.buf b).get i
  | .rev i => (s.rev.get i).setWidth 32
  | .dig i => (s.dig.get i).setWidth 32
  | .unmapped => 0

/-- The locations whose reads are draws while a command is pending (R69): RES, RLEN and the four memories. -/
def Location.engineOwned : Location → Bool
  | .register .res => true
  | .register .rlen => true
  | .register .id => false
  | .register .cap => false
  | .register .ctrl => false
  | .register .status => false
  | .register .cfg => false
  | .register .cmd => false
  | .register .opx => false
  | .register .opy => false
  | .buffer _ _ => true
  | .rev _ => true
  | .dig _ => true
  | .unmapped => false

/-- A read of a location (R66, R69): an unmapped address, of regions 1 to 4 also while a command is pending (DEDUCED,
log entry 5), raises E_ACCESS and returns 0; an engine-owned location of a
busy block returns a draw; every other location returns its value. -/
def readLocation (l : Location) (s : State) : State :=
  if l = .unmapped then (s.raise .access).answer 0
  else if s.status.busy && l.engineOwned then s.answerDraw
  else s.answer (l.value s)

/-- One host read transaction (R66, R69). -/
def hostRead (a : Address) (s : State) : State :=
  readLocation (locate a) s

/-- A write to CTRL (R33): bit 0 is the soft reset, the other bits are ignored. -/
def writeCtrl (v : Word) (s : State) : State :=
  if v.getLsbD 0 then s.resetMachine else s

/-- A write to CMD of an idle block (R37): dropped silently once an error is recorded, else accepted. -/
def writeCmd (v : Word) (s : State) : State :=
  if s.status.err then s else s.acceptCommand v

/-- Store a value that must be a field element: a value of `P` or more is dropped and raises E_RANGE (R67). -/
def writeElement (v : Word) (store : State → State) (s : State) : State :=
  if v.toNat < Config.P then store s else s.raise .range

/-- A write to a register of an idle block (R67); ID, CAP, STATUS, RES and RLEN are read-only. -/
def writeRegister (r : Register) (v : Word) (s : State) : State :=
  match r with
  | .ctrl => writeCtrl v s
  | .cfg => { s with logn := v.extractLsb' 0 5 }
  | .cmd => writeCmd v s
  | .opx => writeElement v (fun s => { s with opx := v }) s
  | .opy => writeElement v (fun s => { s with opy := v }) s
  | .id => s.raise .access
  | .cap => s.raise .access
  | .status => s.raise .access
  | .res => s.raise .access
  | .rlen => s.raise .access

/-- A write to a location of an idle block (R67): the address check comes before the value check. -/
def writeLocation (l : Location) (v : Word) (s : State) : State :=
  match l with
  | .register r => writeRegister r v s
  | .buffer b i => writeElement v (fun s => s.setBuf b ((s.buf b).set i v)) s
  | .rev _ => s.raise .access
  | .dig _ => s.raise .access
  | .unmapped => s.raise .access

/-- One host write transaction (R67, R69): while a command is pending every write but one to CTRL is dropped and raises
E_BUSY. -/
def hostWrite (a : Address) (v : Word) (s : State) : State :=
  if s.status.busy then
    if locate a = .register .ctrl then writeCtrl v s else s.raise .busy
  else writeLocation (locate a) v s

end Sys2Proof.Machine
end

