-- ==== Sys2Proof/Machine/Engine.lean ====
section
/-! DEFINITION. The two agents' moves: the engine's step (R20, R97) and the host's events (R20, R240), and the placing of
a command word where the engine takes its next command. -/

namespace Sys2Proof.Machine

/-- The engine's step on the pending word (R97): a word that matches no row raises E_OPCODE (R94), any other is
executed. -/
def engineStep (s : State) : Host.Outcome State Fault Refusal :=
  match decode s.cmd with
  | none => .next (s.failCommand .opcode)
  | some i => exec i s

/-- The engine's turn: its step when a command is pending; with BUSY = 0 the engine has no step (R20). -/
def engineTurn (s : State) : Host.Outcome State Fault Refusal :=
  if s.status.busy then engineStep s else .next s

/-- One event of the outside (R20, R240). -/
def outsideTurn (e : HostEvent) (s : State) : Host.Outcome State Fault Refusal :=
  match e with
  | .read a => .next (hostRead a s)
  | .write a v => .next (hostWrite a v s)
  | .resetInput => .next s.resetMachine
  | .wait => engineTurn s

/-- A command word of `nbits` bits pending, with the engine to move next (log entry 4). -/
def placeCommand (s : State) (nbits w : Nat) : State :=
  (s.acceptCommand (BitVec.ofNat 32 (w % 2 ^ nbits))).engineNext

end Sys2Proof.Machine
end

