-- ==== Sys2Proof/Machine/Step.lean ====
section
/-! DEFINITION. One step of the machine (R20): the outside's next event if it has one, else the engine's turn. -/

namespace Sys2Proof.Machine

/-- One step: transactions take effect one at a time, in the order issued (R72); where the outside has no event to come,
the engine takes its turn.  One step is a whole transaction, command or reset (DEDUCED, log entry 13). -/
def step (s : State) : Host.Outcome State Fault Refusal :=
  match s.script with
  | [] => engineTurn s
  | e :: rest => outsideTurn e { s with script := rest }

/-- The state with a command word placed where the engine takes its next command, so that the next step runs it (log
entry 4). -/
def State.withFetchWord (s : State) (nbits w : Nat) : State :=
  placeCommand s nbits w

end Sys2Proof.Machine
end

