-- ==== Sys2Proof/Machine/Driver.lean ====
section
/-! DEFINITION. The host driver (45_host_pipeline.md): parser (R191), zero fast-path (R192), size planner (R193), input
checks (R194), load (R195), command sequence (R197), formatter (R198), `multiply(A, B)` (R200), and the boot and the session
of a driver (70_reset_and_hazards.md R243).  It is software: it acts on NTTE only through the events of the host port.
Characters are ASCII and digit lists are most significant digit first. -/

namespace Sys2Proof.Machine

/-- How the driver fails (R194), how it sees a command fail (R197, R251), and how it sees another block (R243). -/
inductive DriverError where
  /-- MalformedInput: fewer than two tokens, or a token that is not made of digits (R191, R194). -/
  | malformedInput
  /-- InputTooLarge: an operand has more than `LMAX` digits (R194). -/
  | inputTooLarge
  /-- TransformOverflow: the planned length exceeds `2^KMAX` (R194). -/
  | transformOverflow
  /-- The STATUS read after a command does not show ERR = 0 and DONE = 1 (R197; log entry 9). -/
  | commandFailed
  /-- ID does not read as expected (R243; DESIGN CHOICE, log entry 16). -/
  | unknownBlock
  deriving DecidableEq, Repr

/-- The digit a character stands for (R191). -/
def digitOfChar (c : Char) : Option Nat :=
  if 0x30 ≤ c.toNat ∧ c.toNat ≤ 0x39 then some (c.toNat - 0x30) else none

/-- The character of a digit (R198). -/
def charOfDigit (d : Nat) : Char :=
  Char.ofNat (0x30 + d)

/-- The digits of a token: at least one character, every character a digit (R191).  The spec does not say what becomes of
an empty token (N9); here it has no digits to give, so the parser reports MalformedInput (DESIGN CHOICE, log entry 15). -/
def parseToken (t : List Char) : Option (List Nat) :=
  if t = [] then none else t.mapM digitOfChar

/-- The parser (R191): two tokens; what comes after the second is ignored. -/
def parseTokens : List (List Char) → Except DriverError (List Nat × List Nat)
  | a :: b :: _ =>
    match parseToken a, parseToken b with
    | some x, some y => .ok (x, y)
    | _, _ => .error .malformedInput
  | _ => .error .malformedInput

/-- Is the operand the single digit 0 (R191, R192)? -/
def isZeroOperand (digits : List Nat) : Bool :=
  digits = [0]

/-- The planner's loop `while 2^k < L: k <- k + 1` (R193), with a count that bounds its turns
(DESIGN CHOICE, log entry 14). -/
def planLoop : Nat → Nat → Nat → Nat
  | 0, k, _ => k
  | turns + 1, k, l => if 2 ^ k < l then planLoop turns (k + 1) l else k

/-- The size planner (R193): the least k with `2^k ≥ lenA + lenB - 1`. -/
def plan (lenA lenB : Nat) : Nat :=
  planLoop (Nat.log2 (lenA + lenB - 1) + 1) 0 (lenA + lenB - 1)

/-- Input checks (2) and (3) of R194, in order; `kmax` is the largest legal k as the driver knows it, the KMAX that a read
of CAP reports. -/
def checkSizes (kmax lmax : Nat) (a b : List Nat) : Except DriverError Nat :=
  if lmax < a.length ∨ lmax < b.length then .error .inputTooLarge
  else if kmax < plan a.length b.length then .error .transformOverflow
  else .ok (plan a.length b.length)

/-- `LOADDIGITS` (R102, R195): digit i, counted from the least significant, goes to index i of the buffer. -/
def loadDigits (b : Buffer) (digits : List Nat) : List HostEvent :=
  digits.reverse.zipIdx.map fun c => .write (Location.buffer b c.2).address (BitVec.ofNat 32 c.1)

/-- Let the machine run over a list of host events; the driver is the only master of the port (R72). -/
def transact (events : List HostEvent) (s : State) : Except DriverError State :=
  match Host.Core.run Sys2Proof.core events.length { s with script := events } with
  | .next t => .ok t
  | .fault _ => .error .commandFailed
  | .refused _ => .error .commandFailed

/-- Does a word read from STATUS show BUSY = 0, DONE = 1 and ERR = 0 (R197)? -/
def showsSuccess (w : Word) : Bool :=
  !w.getLsbD 0 && w.getLsbD 1 && !w.getLsbD 2

/-- A command on a script line (R102): `WR CMD, word`, `WAIT`, and the read of STATUS that ends the wait; then the
driver's check of the value read (R197). -/
def runCommand (i : Instr) (s : State) : Except DriverError State := do
  let t ← transact
    [.write (Location.register .cmd).address (encode i), .wait, .read (Location.register .status).address] s
  if showsSuccess (t.lastRead.getD 0) then pure t else throw .commandFailed

/-- Commands one after the other. -/
def runCommands : List Instr → State → Except DriverError State
  | [], s => pure s
  | i :: is, s => do
    let t ← runCommand i s
    runCommands is t

/-- A read transaction and the word it returned. -/
def readWord (l : Location) (s : State) : Except DriverError (State × Word) := do
  let t ← transact [.read l.address] s
  pure (t, t.lastRead.getD 0)

/-- The formatter (R198) with the reads of R197: `RD DIG[i]` for `i = r-1` down to 0, each digit made a character. -/
def readDigits : Nat → State → Except DriverError (State × List Char)
  | 0, s => pure (s, [])
  | r + 1, s => do
    let (t, d) ← readWord (.dig r) s
    let (t', cs) ← readDigits r t
    pure (t', charOfDigit d.toNat :: cs)

/-- The command sequence of one multiplication (R197), the reads of the result included: SETN; BITREV and both CLR; the
digit writes; the transforms, the product and the carry; RLEN and the digits.  BITREV is never skipped
(DESIGN CHOICE, log entry 12). -/
def multiplySequence (k : Nat) (a b : List Nat) (s : State) : Except DriverError (State × List Char) := do
  let s ← transact [.write (Location.register .cfg).address (BitVec.ofNat 32 k)] s
  let s ← runCommands [.bitrev, .clr .b0, .clr .b1] s
  let s ← transact (loadDigits .b0 a ++ loadDigits .b1 b) s
  let s ← runCommands [.nttF .b0, .nttF .b1, .pwmul .b0 .b1, .nttI .b0, .carry .b0] s
  let (s, r) ← readWord (.register .rlen) s
  readDigits r.toNat s

/-- `multiply(A, B)` on the tokens of the input (R200): the parser, the checks of R194, the zero fast-path (R192), which
touches no NTTE state, and otherwise the sequence of R197 from the given state. -/
def multiply (kmax lmax : Nat) (tokens : List (List Char)) (s : State) : Except DriverError (State × List Char) := do
  let (a, b) ← parseTokens tokens
  let k ← checkSizes kmax lmax a b
  if isZeroOperand a || isZeroOperand b then pure (s, [charOfDigit 0])
  else multiplySequence k a b s

/-- Step (1) of R243: a soft reset, `SRST` (R102), unless the driver knows the block to be idle and error-free (log
entry 16). -/
def resetUnlessKnown (known : Bool) (s : State) : Except DriverError State :=
  if known then pure s else transact [.write (Location.register .ctrl).address 1] s

/-- Step (2) of R243: ID is read and compared with what is expected, and KMAX is learned from CAP. -/
def identify (s : State) : Except DriverError (State × Nat) := do
  let (s, id) ← readWord (.register .id) s
  let (s, cap) ← readWord (.register .cap) s
  if id = Config.idWord then pure (s, (cap.extractLsb' 0 5).toNat) else throw .unknownBlock

/-- What a driver does before its first multiplication, steps (1) and (2) of R243, and the KMAX it goes on with.  Step (2)
is optional: a driver that does not ask knows KMAX beforehand (log entry 16). -/
def boot (known asks : Bool) (s : State) : Except DriverError (State × Nat) := do
  let s ← resetUnlessKnown known s
  if asks then identify s else pure (s, Config.KMAX)

/-- Multiplications one after the other, step (3) of R243, with their results.  The spec does not say what becomes of the
multiplications after one that fails; here the first failure ends them all, with its error alone (DESIGN CHOICE, log
entry 17). -/
def multiplyEach (kmax lmax : Nat) :
    List (List (List Char)) → State → Except DriverError (State × List (List Char))
  | [], s => pure (s, [])
  | tokens :: inputs, s => do
    let (t, r) ← multiply kmax lmax tokens s
    let (t', rs) ← multiplyEach kmax lmax inputs t
    pure (t', r :: rs)

/-- A driver's session (R243): the boot, then the multiplications, ended by the first failure (log entry 17). -/
def session (lmax : Nat) (known asks : Bool) (inputs : List (List (List Char))) (s : State) :
    Except DriverError (State × List (List Char)) := do
  let (s, kmax) ← boot known asks s
  multiplyEach kmax lmax inputs s

end Sys2Proof.Machine
end

