-- ==== Sys2Proof/Safety.lean ====
section
/-! DEFINITION. The terms in which claims are made: the invariants of the state (R24, R34, R41, R42, R38, R144), what a
command leaves alone (the frames), a run without error (R210), and the preconditions a driver owes (R196). -/

namespace Sys2Proof.Machine

/-- The value of a buffer element as a natural number is a field element (R24). -/
def Memory.inField (m : Memory 32) : Prop :=
  ∀ i, (m.get i).toNat < Config.P

/-- The memories are in their canonical form and hold nothing beyond their capacities (R40 to R42). -/
structure State.MemoryForm (s : State) : Prop where
  buf0 : s.buf0.wf Config.NCAP
  buf1 : s.buf1.wf Config.NCAP
  rev : s.rev.wf Config.NCAP
  dig : s.dig.wf Config.DCAP

/-- The field-element invariant (R24). -/
structure State.FieldElements (s : State) : Prop where
  opx : s.opx.toNat < Config.P
  opy : s.opy.toNat < Config.P
  res : s.res.toNat < Config.P
  buf0 : s.buf0.inField
  buf1 : s.buf1.inField

/-- What the fields of STATUS say together (R34, R211): BUSY and DONE are never both 1, and ECODE is the code of an
error exactly when ERR is 1. -/
structure State.StatusRecord (s : State) : Prop where
  busyDone : ¬ (s.status.busy = true ∧ s.status.done = true)
  errCode : s.status.err = true ↔ s.status.ecode ≠ 0
  codeLe : s.status.ecode.toNat ≤ 6

/-- What REVV and REVK say of REV (R34, R144): with REVV = 1 the first `2^REVK` entries are the bit reversals; REVK is 0
if no table was built. -/
structure State.TableRecord (s : State) : Prop where
  bounded : s.status.revv = true → s.status.revk.toNat ≤ Config.KMAX
  built : s.status.revv = true → ∀ i < 2 ^ s.status.revk.toNat,
    (s.rev.get i).toNat = revBits s.status.revk.toNat i
  notBuilt : s.status.revv = false → s.status.revk = 0

/-- What RLEN and DIG say (R38, R42, R183): every digit is at most 9, the count is within the memory, and the highest
digit of a result of more than one digit is not 0. -/
structure State.ResultRecord (s : State) : Prop where
  digits : ∀ i, (s.dig.get i).toNat ≤ 9
  count : s.rlen.toNat ≤ Config.DCAP
  trimmed : 1 < s.rlen.toNat → s.dig.get (s.rlen.toNat - 1) ≠ 0

/-- The invariant of NTTE. -/
structure State.Inv (s : State) : Prop where
  memoryForm : s.MemoryForm
  fieldElements : s.FieldElements
  statusRecord : s.StatusRecord
  tableRecord : s.TableRecord
  resultRecord : s.ResultRecord

/-- No error has been recorded since reset (R213). -/
def State.ErrorFree (s : State) : Prop :=
  s.status.err = false

/-- The block is idle and error-free, so it accepts a command (R37). -/
def State.Ready (s : State) : Prop :=
  s.status.busy = false ∧ s.ErrorFree

/-- A safe state: the invariant holds and no error has been recorded. -/
def State.Safe (s : State) : Prop :=
  s.Inv ∧ s.ErrorFree

/-- What is outside NTTE is the same in two states. -/
structure SameOutside (s t : State) : Prop where
  script : t.script = s.script
  lastRead : t.lastRead = s.lastRead
  draws : t.draws = s.draws

/-- CFG, CMD, OPX and OPY, which no command writes (R22, R35, R36), are the same in two states. -/
structure SameOperands (s t : State) : Prop where
  logn : t.logn = s.logn
  cmd : t.cmd = s.cmd
  opx : t.opx = s.opx
  opy : t.opy = s.opy

/-- DIG and RLEN are the same in two states. -/
structure SameResult (s t : State) : Prop where
  rlen : t.rlen = s.rlen
  dig : t.dig = s.dig

/-- The command that led from `s` to `t` finished with no command error (R97): BUSY is 0, DONE is 1, and the error
record is as before. -/
structure Finished (s t : State) : Prop where
  busy : t.status.busy = false
  done : t.status.done = true
  err : t.status.err = s.status.err
  ecode : t.status.ecode = s.status.ecode

/-- REV, REVV and REVK are the same in two states (R41). -/
structure SameTable (s t : State) : Prop where
  rev : t.rev = s.rev
  revv : t.status.revv = s.status.revv
  revk : t.status.revk = s.status.revk

/-- A scalar command led from `s` to `t`: it finished and wrote RES only (R127). -/
structure OnlyRes (s t : State) : Prop where
  finished : Finished s t
  operands : SameOperands s t
  result : SameResult s t
  table : SameTable s t
  buf0 : t.buf0 = s.buf0
  buf1 : t.buf1 = s.buf1
  outside : SameOutside s t

/-- A buffer command led from `s` to `t`: it finished and wrote the active range of buffer `d` only (R163). -/
structure OnlyActiveRange (d : Buffer) (s t : State) : Prop where
  finished : Finished s t
  operands : SameOperands s t
  result : SameResult s t
  table : SameTable s t
  res : t.res = s.res
  other : t.buf d.other = s.buf d.other
  above : ∀ i, s.n ≤ i → (t.buf d).get i = (s.buf d).get i
  outside : SameOutside s t

/-- An error led from `s` to `t`: the error record of R213 for `e` was made and nothing else changed. -/
def OnlyRecords (e : ErrorCode) (s t : State) : Prop :=
  t = { s with status := t.status } ∧
  t.status = { s.status with
    err := true
    ecode := if s.status.err then s.status.ecode else e.code }

/-- A command failed, from `s` to `t` (R214): the error record for `e` was made, BUSY cleared, and nothing else
changed. -/
def OnlyFails (e : ErrorCode) (s t : State) : Prop :=
  t = { s with status := t.status } ∧
  t.status = { s.status with
    busy := false
    err := true
    ecode := if s.status.err then s.status.ecode else e.code }

/-- A read transaction led from `s` to `t`: it returned `v` and changed nothing in NTTE (R66, R68). -/
def ReadReturns (v : Word) (s t : State) : Prop :=
  t = { s with lastRead := some v }

/-- A read transaction led from `s` to `t`: it returned 0 and raised E_ACCESS (R70). -/
def ReadRefused (s t : State) : Prop :=
  t = { s with lastRead := some 0, status := t.status } ∧ OnlyRecords .access s { s with status := t.status }

/-- A read transaction led from `s` to `t`: it returned some word, by the next draw, and changed nothing in NTTE
(R69). -/
def ReadDraws (s t : State) : Prop :=
  ∃ v, t = { s with lastRead := some v, draws := s.draws + 1 }

/-- A write transaction led from `s` to `t`: it stored `v` at index `i` of buffer `b` and changed nothing else. -/
def OnlyStores (b : Buffer) (i : Nat) (v : Word) (s t : State) : Prop :=
  t = s.setBuf b (t.buf b) ∧ (t.buf b).get i = v ∧ ∀ j, j ≠ i → (t.buf b).get j = (s.buf b).get j

/-- The host address of an index in a region (R61). -/
def addressOf (region i : Nat) : Address :=
  BitVec.ofNat 28 (region * 0x1000000 + i)

/-- Is the index mapped in the region (R63)? -/
abbrev mappedIndex (region i : Nat) : Prop :=
  (region = 0 ∧ i ≤ 9) ∨ ((region = 1 ∨ region = 2 ∨ region = 3) ∧ i < Config.NCAP) ∨ (region = 4 ∧ i < Config.DCAP)

/-- Does the command use n (R97 check 2)? -/
def usesLength : Instr → Bool
  | .nop => false
  | .addm => false
  | .subm => false
  | .mulm => false
  | .powm => false
  | .bitrev => true
  | .nttF _ => true
  | .nttI _ => true
  | .pwmul _ _ => true
  | .carry _ => true
  | .clr _ => true

/-- Does the command need the bit-reversal table (R97 check 3)? -/
def usesTable : Instr → Bool
  | .nop => false
  | .addm => false
  | .subm => false
  | .mulm => false
  | .powm => false
  | .bitrev => false
  | .nttF _ => true
  | .nttI _ => true
  | .pwmul _ _ => false
  | .carry _ => false
  | .clr _ => false

/-- The number whose decimal digits, most significant first, are given. -/
def decimalValue (digits : List Nat) : Nat :=
  digits.foldl (fun v d => 10 * v + d) 0

/-- The preconditions P1 to P5 that the driver owes before the first NTT.F (R196), for operands given by their digits,
most significant first. -/
structure MultiplyReady (a b : List Nat) (s : State) : Prop where
  p1 : s.k ≤ Config.KMAX
  p2 : a.length + b.length - 1 ≤ s.n
  p3a : ∀ i < s.n, (s.buf0.get i).toNat = a.reverse.getD i 0
  p3b : ∀ i < s.n, (s.buf1.get i).toNat = b.reverse.getD i 0
  digitsA : ∀ d ∈ a, d ≤ 9
  digitsB : ∀ d ∈ b, d ≤ 9
  p4 : s.tableValid = true
  p5 : s.Ready

end Sys2Proof.Machine
end

