-- ==== Sys2Proof/Certificates/Slice0/Obligations.lean ====
section
/-! DEFINITION. The statements for the provers, each formalising rules of spec/.  OBLIGATIONS.json gives for each its tier,
its basis and the rules it states. -/

open Sys2Proof Sys2Proof.Machine

/-! ### The field functions (40_modular_arithmetic.md) -/

/-- R121: `add_mod(x, y)` is the unique value in `[0, P-1]` congruent to `x + y`, and the sum needs 31 bits. -/
def Obligations.AddModIsTheFieldSum : Prop :=
  ∀ x y : Nat, x < Config.P → y < Config.P →
    addMod x y < Config.P ∧ addMod x y ≡ x + y [MOD Config.P] ∧
    (∀ z < Config.P, z ≡ x + y [MOD Config.P] → z = addMod x y) ∧ x + y < 2 ^ 31

/-- R122: `sub_mod(x, y)` is the unique value in `[0, P-1]` congruent to `x - y`. -/
def Obligations.SubModIsTheFieldDifference : Prop :=
  ∀ x y : Nat, x < Config.P → y < Config.P →
    subMod x y < Config.P ∧ (subMod x y : Int) ≡ (x : Int) - y [ZMOD Config.P] ∧
    ∀ z < Config.P, (z : Int) ≡ (x : Int) - y [ZMOD Config.P] → z = subMod x y

/-- R123: `mul_mod(x, y)` is the unique value in `[0, P-1]` congruent to `x * y`, and the exact product needs 60 bits. -/
def Obligations.MulModIsTheFieldProduct : Prop :=
  ∀ x y : Nat, x < Config.P → y < Config.P →
    mulMod x y < Config.P ∧ mulMod x y ≡ x * y [MOD Config.P] ∧
    (∀ z < Config.P, z ≡ x * y [MOD Config.P] → z = mulMod x y) ∧ x * y < 2 ^ 60

/-- R124: `pow_mod(b, e)` is the unique value in `[0, P-1]` congruent to `b^e`, 1 for `e = 0` whatever the base, 0 for
base 0 and `e ≥ 1`; for `e ≤ P-1` the loop makes at most 30 turns. -/
def Obligations.PowModIsTheFieldPower : Prop :=
  ∀ b e : Nat, b < Config.P →
    powMod b e < Config.P ∧ powMod b e ≡ b ^ e [MOD Config.P] ∧
    (∀ z < Config.P, z ≡ b ^ e [MOD Config.P] → z = powMod b e) ∧
    powMod b 0 = 1 ∧ (1 ≤ e → powMod 0 e = 0) ∧
    (e ≤ Config.P - 1 → powMod b e = powLoop 30 1 b e)

/-- R125: `pow_mod(x, P-2)` is the inverse of every `x` in `[1, P-1]`, and 0 for `x = 0`; `GINV` is that of 3. -/
def Obligations.PowModGivesInverses : Prop :=
  (∀ x : Nat, 1 ≤ x → x < Config.P → mulMod x (powMod x (Config.P - 2)) = 1) ∧
  powMod 0 (Config.P - 2) = 0 ∧ powMod 3 (Config.P - 2) = Config.GINV ∧ Config.GINV = 332748118

/-! ### The command encoding (30_encoding.md) -/

/-- The decoder reads a word as a command exactly when the word is that command's encoding: no bit of an encoding is
dropped, and no other word decodes to the command. -/
def Obligations.DecodeAgreesWithEncode : Prop :=
  ∀ (w : Word) (i : Instr), decode w = some i ↔ w = encode i

/-- R93: the opcode map's rows are the eleven of the rule, each with its format and its word for the buffers d and s; no
word selects two rows; a word decodes exactly when it selects a row; and the words that decode are the 18 listed. -/
def Obligations.OpcodeMapIsDisjointAndComplete : Prop :=
  opcodeMap.map (fun r => (r.mnemonic, r.pattern, r.mask)) =
    [("NOP", 0x00000000, 0xFFFFFFFF), ("ADDM", 0x01000000, 0xFFFFFFFF), ("SUBM", 0x02000000, 0xFFFFFFFF),
     ("MULM", 0x03000000, 0xFFFFFFFF), ("POWM", 0x04000000, 0xFFFFFFFF), ("BITREV", 0x08000000, 0xFFFFFFFF),
     ("NTT.F", 0x09000000, 0xFFFFFFFE), ("NTT.I", 0x09000004, 0xFFFFFFFE), ("PWMUL", 0x0A000000, 0xFFFFFFFC),
     ("CARRY", 0x0B000000, 0xFFFFFFFE), ("CLR", 0x0C000000, 0xFFFFFFFE)] ∧
  (∀ d b : Buffer, opcodeMap.map (fun r => ((r.build d b).format, (encode (r.build d b)).toNat)) =
    [(.z, 0x00000000), (.z, 0x01000000), (.z, 0x02000000), (.z, 0x03000000), (.z, 0x04000000), (.z, 0x08000000),
     (.t, 0x09000000 + d.bit.toNat), (.t, 0x09000004 + d.bit.toNat),
     (.bb, 0x0A000000 + 2 * b.bit.toNat + d.bit.toNat), (.b, 0x0B000000 + d.bit.toNat),
     (.b, 0x0C000000 + d.bit.toNat)]) ∧
  (∀ w : Word, opcodeMap.Pairwise fun r r' => ¬ (r.selects w = true ∧ r'.selects w = true)) ∧
  (∀ (r : Row) (w : Word), r.selects w = true ↔ w &&& r.mask = r.pattern) ∧
  (∀ w : Word, (decode w).isSome = true ↔ ∃ r ∈ opcodeMap, r.selects w = true) ∧
  (∀ w : Word, (decode w).isSome = true ↔
    w ∈ ([0x00000000, 0x01000000, 0x02000000, 0x03000000, 0x04000000, 0x08000000, 0x09000000, 0x09000001, 0x09000004,
      0x09000005, 0x0A000000, 0x0A000001, 0x0A000002, 0x0A000003, 0x0B000000, 0x0B000001, 0x0C000000,
      0x0C000001] : List Word))

/-- R90, R91: a word decodes exactly when its fields are well formed (the opcode assigned, the reserved bits and the
fields the format does not use 0), the fields make up the word, and every command's word has the must-be-zero bits of
its format at 0. -/
def Obligations.FormatsAgreeWithTheOpcodeMap : Prop :=
  (∀ w : Word, (decode w).isSome = (Fields.ofWord w).wellFormed ∧ (Fields.ofWord w).toWord = w) ∧
  ∀ i : Instr, i.wellFormed = true ∧ encode i &&& i.format.mustBeZero = 0

/-- Words written out from the spec's encodings (V-ENC-1, V-ENC-2) decode as the spec says. -/
def Obligations.SampleWordsDecode : Prop :=
  decode 0x08000000 = some .bitrev ∧ decode 0x09000001 = some (.nttF .b1) ∧ decode 0x09000004 = some (.nttI .b0) ∧
  decode 0x0A000001 = some (.pwmul .b1 .b0) ∧ decode 0x0A000002 = some (.pwmul .b0 .b1) ∧
  decode 0x0B000001 = some (.carry .b1) ∧ decode 0x09000002 = none ∧ decode 0x01000001 = none

/-- R94: every pending word other than the 18 legal ones makes the engine's step raise E_OPCODE and do nothing else,
whatever CFG holds; the reserved opcodes are among them. -/
def Obligations.IllegalWordRaisesOpcodeError : Prop :=
  (∀ s : State, s.status.busy = true → s.script = [] → (∀ i : Instr, s.cmd ≠ encode i) →
    ∃ t, step s = .next t ∧ OnlyFails .opcode s t) ∧
  ∀ (i : Instr) (w : Word),
    ((0x05 ≤ (w.extractLsb' 24 8).toNat ∧ (w.extractLsb' 24 8).toNat ≤ 0x07) ∨ 0x0D ≤ (w.extractLsb' 24 8).toNat) →
    w ≠ encode i

/-! ### The step (R20, R97, R215, R226, R253) -/

/-- When the engine moves next and the pending word decodes to a command, the step is `exec` of that command: at the
state itself where the outside has nothing to come, else at the state with the outside's `wait` taken. -/
def Obligations.StepRunsTheDecodedCommand : Prop :=
  ∀ (s : State) (i : Instr), s.status.busy = true → decode s.cmd = some i →
    (s.script = [] → step s = exec i s) ∧
    (∀ rest, s.script = .wait :: rest → step s = exec i { s with script := rest })

/-- R20: host transactions and the reset input take effect one at a time in the order issued, and an idle engine has no
step. -/
def Obligations.StepTakesTheNextEvent : Prop :=
  ∀ (s : State) (rest : List HostEvent),
    (∀ a, s.script = .read a :: rest → step s = .next (hostRead a { s with script := rest })) ∧
    (∀ a v, s.script = .write a v :: rest → step s = .next (hostWrite a v { s with script := rest })) ∧
    (s.script = .resetInput :: rest → step s = .next { State.reset with
      script := rest, lastRead := s.lastRead, draws := s.draws }) ∧
    (s.status.busy = false → s.script = .wait :: rest → step s = .next { s with script := rest }) ∧
    (s.status.busy = false → s.script = [] → step s = .next s)

/-- R253: every step answers a next state, and the engine's step on a pending word ends with BUSY = 0. -/
def Obligations.EveryStepTerminates : Prop :=
  ∀ s : State, (∃ t, step s = .next t) ∧
    (s.status.busy = true → s.script = [] → ∃ t, step s = .next t ∧ t.status.busy = false)

/-- R214: a command whose check fails makes the error record, clears BUSY and does nothing else; it reports the first
failing check, in the order E_OPCODE, E_OVERFLOW, E_TABLE (R97, R215), and a command that passes its checks finishes. -/
def Obligations.ChecksComeInOrder : Prop :=
  (∀ (i : Instr) (s : State),
    (usesLength i = true → Config.KMAX < s.k → ∃ t, exec i s = .next t ∧ OnlyFails .overflow s t) ∧
    (usesTable i = true → s.k ≤ Config.KMAX → s.tableValid = false →
      ∃ t, exec i s = .next t ∧ OnlyFails .table s t) ∧
    ((usesLength i = true → s.k ≤ Config.KMAX) → (usesTable i = true → s.tableValid = true) →
      ∃ t, exec i s = .next t ∧ Finished s t)) ∧
  ∀ s : State, s.status.busy = true → s.script = [] → decode s.cmd = none →
    ∃ t, step s = .next t ∧ OnlyFails .opcode s t

/-- R226: a command either finishes, its error record untouched, or fails with no write but the error record and
BUSY. -/
def Obligations.CommandsArePrecise : Prop :=
  ∀ (i : Instr) (s t : State), exec i s = .next t →
    Finished s t ∨ OnlyFails .overflow s t ∨ OnlyFails .table s t

/-- Each command writes only what its rule names (R71): RES by the scalar commands, REV and its record by BITREV, DIG and
RLEN by CARRY, the named buffer by the others; none writes CFG, CMD, OPX or OPY (R22, R35, R36), and none acts on what is
outside NTTE. -/
def Obligations.CommandsWriteOnlyTheirTargets : Prop :=
  ∀ (i : Instr) (s t : State), exec i s = .next t →
    SameOperands s t ∧ SameOutside s t ∧
    ((i ≠ .addm ∧ i ≠ .subm ∧ i ≠ .mulm ∧ i ≠ .powm) → t.res = s.res) ∧
    (i ≠ .bitrev → SameTable s t) ∧
    ((∀ d, i ≠ .carry d) → SameResult s t) ∧
    (∀ d, (i ≠ .nttF d ∧ i ≠ .nttI d ∧ (∀ b, i ≠ .pwmul d b) ∧ i ≠ .clr d) → t.buf d = s.buf d)

/-- The confinement that R163 derives: no command writes an element at or above n of a buffer, nor an entry of REV at
or above n, nor a digit at or above n + 9. -/
def Obligations.CommandsAreConfinedToTheActiveRange : Prop :=
  ∀ (i : Instr) (s t : State), exec i s = .next t →
    (s.TableRecord → ∀ d j, s.n ≤ j → (t.buf d).get j = (s.buf d).get j) ∧
    (∀ j, s.n ≤ j → t.rev.get j = s.rev.get j) ∧
    (∀ j, s.n + 9 ≤ j → t.dig.get j = s.dig.get j)

/-- Over the whole machine, REV, REVV and REVK change only by a reset or by the engine's step on a pending BITREV (R41,
R144). -/
def Obligations.OnlyBitrevAndResetWriteTheTable : Prop :=
  ∀ s t : State, step s = .next t →
    SameTable s t ∨ (s.status.busy = true ∧ s.cmd = 0x08000000 ∧ (s.script = [] ∨ ∃ r, s.script = .wait :: r)) ∨
    ∃ r, s.script = .resetInput :: r ∨ ∃ v : Word, v.getLsbD 0 = true ∧ s.script = .write 2 v :: r

/-! ### Errors (60_exceptions.md) -/

/-- R213: the first error since reset is recorded with its code, a later one changes nothing, and once ERR is 1 no step but
a reset changes ERR or ECODE. -/
def Obligations.FirstErrorIsKeptUntilReset : Prop :=
  (∀ (e : ErrorCode) (s : State),
    (s.status.err = false → s.raise e = { s with status := { s.status with ecode := e.code, err := true } }) ∧
    (s.status.err = true → s.raise e = s)) ∧
  ∀ s t : State, step s = .next t → s.status.err = true →
    (t.status.err = true ∧ t.status.ecode = s.status.ecode) ∨
    ∃ r, s.script = .resetInput :: r ∨ ∃ v : Word, v.getLsbD 0 = true ∧ s.script = .write 2 v :: r

/-- While ERR is 1 (R216): an idle block drops a CMD write silently; its writes to CFG, OPX, OPY and the buffers still
take effect; and a pending command still runs to its normal end. -/
def Obligations.HaltedBlockAcceptsNoCommand : Prop :=
  ∀ s : State, s.status.err = true →
    (s.status.busy = false → (∀ w, hostWrite 5 w s = s) ∧
      (∀ v, hostWrite 4 v s = { s with logn := BitVec.ofNat 5 (v.toNat % 32) }) ∧
      (∀ v : Word, v.toNat < Config.P → hostWrite 6 v s = { s with opx := v } ∧ hostWrite 7 v s = { s with opy := v } ∧
        ∀ i < Config.NCAP, OnlyStores .b0 i v s (hostWrite (addressOf 1 i) v s) ∧
          OnlyStores .b1 i v s (hostWrite (addressOf 2 i) v s))) ∧
    (∀ i : Instr, (usesLength i = true → s.k ≤ Config.KMAX) → (usesTable i = true → s.tableValid = true) →
      ∃ t, exec i s = .next t ∧ t.status.done = true ∧ t.status.err = true)

/-! ### The host port (20_memory.md, 10_state.md) -/

/-- R66: what a host read does while no command is pending, for every region and index. -/
def Obligations.HostReadWhileIdle : Prop :=
  ∀ (s : State) (region i : Nat), region < 16 → i < 0x1000000 → s.status.busy = false →
    (region = 0 → i = 0 → ReadReturns 0x4E545431 s (hostRead (addressOf region i) s)) ∧
    (region = 0 → i = 1 → ReadReturns 23 s (hostRead (addressOf region i) s)) ∧
    (region = 0 → i = 2 → ReadReturns 0 s (hostRead (addressOf region i) s)) ∧
    (region = 0 → i = 3 → ∃ v : Word, ReadReturns v s (hostRead (addressOf region i) s) ∧
      v.toNat = s.status.busy.toNat + 2 * s.status.done.toNat + 4 * s.status.err.toNat + 8 * s.status.revv.toNat +
        16 * s.status.ecode.toNat + 256 * s.status.revk.toNat) ∧
    (region = 0 → i = 4 → ∃ v : Word, ReadReturns v s (hostRead (addressOf region i) s) ∧ v.toNat = s.logn.toNat) ∧
    (region = 0 → i = 5 → ReadReturns s.cmd s (hostRead (addressOf region i) s)) ∧
    (region = 0 → i = 6 → ReadReturns s.opx s (hostRead (addressOf region i) s)) ∧
    (region = 0 → i = 7 → ReadReturns s.opy s (hostRead (addressOf region i) s)) ∧
    (region = 0 → i = 8 → ReadReturns s.res s (hostRead (addressOf region i) s)) ∧
    (region = 0 → i = 9 → ∃ v : Word, ReadReturns v s (hostRead (addressOf region i) s) ∧ v.toNat = s.rlen.toNat) ∧
    (region = 1 → i < Config.NCAP → ReadReturns (s.buf0.get i) s (hostRead (addressOf region i) s)) ∧
    (region = 2 → i < Config.NCAP → ReadReturns (s.buf1.get i) s (hostRead (addressOf region i) s)) ∧
    (region = 3 → i < Config.NCAP → ∃ v : Word, ReadReturns v s (hostRead (addressOf region i) s) ∧
      v.toNat = (s.rev.get i).toNat) ∧
    (region = 4 → i < Config.DCAP → ∃ v : Word, ReadReturns v s (hostRead (addressOf region i) s) ∧
      v.toNat = (s.dig.get i).toNat) ∧
    (¬ mappedIndex region i → ReadRefused s (hostRead (addressOf region i) s))

/-- R67: what a host write does while no command is pending, for every region and index and every value; the address check
comes before the value check. -/
def Obligations.HostWriteWhileIdle : Prop :=
  ∀ (s : State) (region i : Nat) (v : Word), region < 16 → i < 0x1000000 → s.status.busy = false →
    (region = 0 → i = 2 → v.getLsbD 0 = true → hostWrite (addressOf region i) v s =
      { State.reset with script := s.script, lastRead := s.lastRead, draws := s.draws }) ∧
    (region = 0 → i = 2 → v.getLsbD 0 = false → hostWrite (addressOf region i) v s = s) ∧
    (region = 0 → i = 4 → hostWrite (addressOf region i) v s = { s with logn := BitVec.ofNat 5 (v.toNat % 32) }) ∧
    (region = 0 → i = 5 → s.status.err = true → hostWrite (addressOf region i) v s = s) ∧
    (region = 0 → i = 5 → s.status.err = false → hostWrite (addressOf region i) v s =
      { s with cmd := v, status := { s.status with done := false, busy := true } }) ∧
    (region = 0 → i = 6 → v.toNat < Config.P → hostWrite (addressOf region i) v s = { s with opx := v }) ∧
    (region = 0 → i = 7 → v.toNat < Config.P → hostWrite (addressOf region i) v s = { s with opy := v }) ∧
    (region = 0 → i = 6 ∨ i = 7 → Config.P ≤ v.toNat → OnlyRecords .range s (hostWrite (addressOf region i) v s)) ∧
    (region = 0 → i = 0 ∨ i = 1 ∨ i = 3 ∨ i = 8 ∨ i = 9 → OnlyRecords .access s (hostWrite (addressOf region i) v s)) ∧
    (region = 1 → i < Config.NCAP → v.toNat < Config.P →
      OnlyStores .b0 i v s (hostWrite (addressOf region i) v s)) ∧
    (region = 2 → i < Config.NCAP → v.toNat < Config.P →
      OnlyStores .b1 i v s (hostWrite (addressOf region i) v s)) ∧
    (region = 1 ∨ region = 2 → i < Config.NCAP → Config.P ≤ v.toNat →
      OnlyRecords .range s (hostWrite (addressOf region i) v s)) ∧
    (region = 3 ∨ region = 4 → OnlyRecords .access s (hostWrite (addressOf region i) v s)) ∧
    (¬ mappedIndex region i → OnlyRecords .access s (hostWrite (addressOf region i) v s))

/-- What a host read does while a command is pending (R69): the host's own registers return their values, RES, RLEN and
the mapped indices of regions 1 to 4 a draw, which is any word, and an unmapped address, also one of regions 1 to 4, 0
with E_ACCESS (the model's reading of R69 beside R70, log entry 5). -/
def Obligations.HostReadWhileBusy : Prop :=
  ∀ (s : State) (region i : Nat), region < 16 → i < 0x1000000 → s.status.busy = true →
    (region = 0 → i = 0 → ReadReturns 0x4E545431 s (hostRead (addressOf region i) s)) ∧
    (region = 0 → i = 1 → ReadReturns 23 s (hostRead (addressOf region i) s)) ∧
    (region = 0 → i = 2 → ReadReturns 0 s (hostRead (addressOf region i) s)) ∧
    (region = 0 → i = 3 → ∃ v : Word, ReadReturns v s (hostRead (addressOf region i) s) ∧
      v.toNat = s.status.busy.toNat + 2 * s.status.done.toNat + 4 * s.status.err.toNat + 8 * s.status.revv.toNat +
        16 * s.status.ecode.toNat + 256 * s.status.revk.toNat) ∧
    (region = 0 → i = 4 → ∃ v : Word, ReadReturns v s (hostRead (addressOf region i) s) ∧ v.toNat = s.logn.toNat) ∧
    (region = 0 → i = 5 → ReadReturns s.cmd s (hostRead (addressOf region i) s)) ∧
    (region = 0 → i = 6 → ReadReturns s.opx s (hostRead (addressOf region i) s)) ∧
    (region = 0 → i = 7 → ReadReturns s.opy s (hostRead (addressOf region i) s)) ∧
    (region = 0 → i = 8 ∨ i = 9 → ReadDraws s (hostRead (addressOf region i) s)) ∧
    (1 ≤ region → mappedIndex region i → ReadDraws s (hostRead (addressOf region i) s)) ∧
    (¬ mappedIndex region i → ReadRefused s (hostRead (addressOf region i) s))

/-- What a host write does while a command is pending (R69): CTRL is honoured, every other write, mapped or not, is
dropped and raises E_BUSY. -/
def Obligations.HostWriteWhileBusy : Prop :=
  ∀ (s : State) (region i : Nat) (v : Word), region < 16 → i < 0x1000000 → s.status.busy = true →
    (region = 0 → i = 2 → v.getLsbD 0 = true → hostWrite (addressOf region i) v s =
      { State.reset with script := s.script, lastRead := s.lastRead, draws := s.draws }) ∧
    (region = 0 → i = 2 → v.getLsbD 0 = false → hostWrite (addressOf region i) v s = s) ∧
    (¬ (region = 0 ∧ i = 2) → OnlyRecords .busy s (hostWrite (addressOf region i) v s))

/-- R37: command acceptance, for every word, decoded or not: with BUSY = 1 the write is dropped and raises E_BUSY; with
BUSY = 0 and ERR = 1 nothing happens; else CMD takes the word, DONE is cleared and BUSY set, the engine's step is then
enabled, and on an illegal word that step raises E_OPCODE and does nothing else. -/
def Obligations.CommandAcceptance : Prop :=
  ∀ (s : State) (w : Word),
    (s.status.busy = true → OnlyRecords .busy s (hostWrite 5 w s)) ∧
    (s.status.busy = false → s.status.err = true → hostWrite 5 w s = s) ∧
    (s.status.busy = false → s.status.err = false →
      hostWrite 5 w s = { s with cmd := w, status := { s.status with done := false, busy := true } } ∧
      (s.script = [] → step (hostWrite 5 w s) = engineStep (hostWrite 5 w s)) ∧
      (s.script = [] → decode w = none →
        ∃ t, step (hostWrite 5 w s) = .next t ∧ OnlyFails .opcode (hostWrite 5 w s) t))

/-- A value the host stores in an idle block reads back at the same address, and a store at one buffer index leaves the
read of every other index of the two buffers as it was (R67, R68). -/
def Obligations.StoredValueReadsBack : Prop :=
  ∀ (s : State) (v : Word), s.status.busy = false → v.toNat < Config.P →
    (∀ a, a = 6 ∨ a = 7 → (hostRead a (hostWrite a v s)).lastRead = some v) ∧
    (hostRead 4 (hostWrite 4 v s)).lastRead = some (v &&& 0x1F) ∧
    ∀ region i region' i', (region = 1 ∨ region = 2) → (region' = 1 ∨ region' = 2) → i < Config.NCAP →
      i' < Config.NCAP →
      (hostRead (addressOf region' i') (hostWrite (addressOf region i) v s)).lastRead =
        if region' = region ∧ i' = i then some v else (hostRead (addressOf region' i') s).lastRead

/-- The address a host script gives a mapped location names that location (R61, R63, R101). -/
def Obligations.AddressesNameTheirLocations : Prop :=
  (∀ r : Register, locate (Location.register r).address = .register r) ∧
  (∀ b i, i < Config.NCAP → locate (Location.buffer b i).address = .buffer b i) ∧
  (∀ i < Config.NCAP, locate (Location.rev i).address = .rev i) ∧
  (∀ i < Config.DCAP, locate (Location.dig i).address = .dig i) ∧
  (∀ a : Address, locate a ≠ .unmapped → (locate a).address = a)

/-! ### Reset (R33, R45, R240, R241) -/

/-- R45: the state after reset. -/
def Obligations.ResetStateIsAsTabulated : Prop :=
  Register.value State.reset .id = 0x4E545431 ∧ Register.value State.reset .cap = 23 ∧
  Register.value State.reset .ctrl = 0 ∧ Register.value State.reset .status = 0 ∧
  Register.value State.reset .cfg = 0 ∧ Register.value State.reset .cmd = 0 ∧
  Register.value State.reset .opx = 0 ∧ Register.value State.reset .opy = 0 ∧
  Register.value State.reset .res = 0 ∧ Register.value State.reset .rlen = 0 ∧
  State.reset.n = 1 ∧
  ∀ i, State.reset.buf0.get i = 0 ∧ State.reset.buf1.get i = 0 ∧ State.reset.rev.get i = 0 ∧ State.reset.dig.get i = 0

/-- R241: the reset input and the soft reset, idle or busy, lead to one and the same state, that of R45, with no command
pending, so the engine has no step, and the field-element invariant holds. -/
def Obligations.ResetEventsAreOneReset : Prop :=
  ∀ (s : State) (rest : List HostEvent) (v : Word), v.getLsbD 0 = true →
    ∃ t, step { s with script := .resetInput :: rest } = .next t ∧
      step { s with script := .write 2 v :: rest } = .next t ∧
      t = { State.reset with script := rest, lastRead := s.lastRead, draws := s.draws } ∧
      t.status.toWord = 0 ∧ (rest = [] → step t = .next t) ∧ t.FieldElements

/-! ### The scalar commands and NOP (40_modular_arithmetic.md, 43_pointwise_and_buffer.md) -/

/-- R173: NOP finishes and does nothing else; its word is 0; from reset, `WR CMD, 0`, the engine's step and `RD STATUS`
give `0x00000002`; with ERR = 1 it is not accepted. -/
def Obligations.NopOnlyFinishes : Prop :=
  encode .nop = 0x00000000 ∧
  (∀ s : State, ∃ t, exec .nop s = .next t ∧
    t = { s with status := { s.status with busy := false, done := true } }) ∧
  (∃ t, Host.Core.run Sys2Proof.core 3 { State.reset with script := [.write 5 0, .wait, .read 3] } = .next t ∧
    t.lastRead = some 0x00000002) ∧
  ∀ s : State, s.status.busy = false → s.status.err = true → hostWrite 5 (encode .nop) s = s

/-- R128: ADDM writes the field sum of OPX and OPY to RES, finishes, and writes nothing else. -/
def Obligations.AddmWritesTheFieldSum : Prop :=
  encode .addm = 0x01000000 ∧
  ∀ s : State, s.opx.toNat < Config.P → s.opy.toNat < Config.P →
    ∃ t, exec .addm s = .next t ∧ t.res.toNat = (s.opx.toNat + s.opy.toNat) % Config.P ∧ OnlyRes s t

/-- R129: SUBM writes the field difference of OPX and OPY to RES, finishes, and writes nothing else. -/
def Obligations.SubmWritesTheFieldDifference : Prop :=
  encode .subm = 0x02000000 ∧
  ∀ s : State, s.opx.toNat < Config.P → s.opy.toNat < Config.P →
    ∃ t, exec .subm s = .next t ∧ (t.res.toNat : Int) = ((s.opx.toNat : Int) - s.opy.toNat) % Config.P ∧ OnlyRes s t

/-- R130: MULM writes the field product of OPX and OPY to RES, finishes, and writes nothing else. -/
def Obligations.MulmWritesTheFieldProduct : Prop :=
  encode .mulm = 0x03000000 ∧
  ∀ s : State, s.opx.toNat < Config.P → s.opy.toNat < Config.P →
    ∃ t, exec .mulm s = .next t ∧ t.res.toNat = s.opx.toNat * s.opy.toNat % Config.P ∧ OnlyRes s t

/-- R131: POWM writes OPX to the power OPY to RES, finishes, and writes nothing else; an exponent of `P - 1` gives 1 for
every base but 0, an exponent of `P - 2` the inverse of every base but 0. -/
def Obligations.PowmWritesTheFieldPower : Prop :=
  encode .powm = 0x04000000 ∧
  ∀ s : State, s.opx.toNat < Config.P → s.opy.toNat < Config.P →
    ∃ t, exec .powm s = .next t ∧ t.res.toNat = s.opx.toNat ^ s.opy.toNat % Config.P ∧ OnlyRes s t ∧
      (s.opy.toNat = Config.P - 1 → s.opx.toNat ≠ 0 → t.res.toNat = 1) ∧
      (s.opy.toNat = Config.P - 2 → s.opx.toNat ≠ 0 → s.opx.toNat * t.res.toNat % Config.P = 1)

/-! ### The bit-reversal unit (41_bit_reversal.md) -/

/-- R141: bit t of `rev_k(i)` is bit `k-1-t` of `i`, and the result is below `2^k`. -/
def Obligations.RevBitsReversesTheBits : Prop :=
  (∀ k i : Nat, k ≤ Config.KMAX → i < 2 ^ k →
    revBits k i < 2 ^ k ∧ ∀ t < k, (revBits k i).testBit t = i.testBit (k - 1 - t)) ∧
  revBits 0 0 = 0

/-- The laws that R142 (a) to (c) derives: `rev_k` is its own inverse, fixes 0 and `2^k - 1`, and halves as stated. -/
def Obligations.RevBitsLaws : Prop :=
  ∀ k i : Nat, k ≤ Config.KMAX → i < 2 ^ k →
    revBits k (revBits k i) = i ∧ revBits k 0 = 0 ∧ revBits k (2 ^ k - 1) = 2 ^ k - 1 ∧
    (1 ≤ k → i < 2 ^ (k - 1) → revBits k (2 * i) = revBits (k - 1) i ∧
      revBits k (2 * i + 1) = revBits (k - 1) i + 2 ^ (k - 1))

/-- R143: BITREV writes the first n entries of REV and its record, finishes, and writes nothing else; above KMAX it fails
with E_OVERFLOW; a must-be-zero bit set in its word is E_OPCODE; with CFG = 3 and no error recorded it leaves the table
and the STATUS of the rule's example. -/
def Obligations.BitrevBuildsTheTable : Prop :=
  encode .bitrev = 0x08000000 ∧
  (∀ s : State, s.k ≤ Config.KMAX → ∃ t, exec .bitrev s = .next t ∧
    (∀ i < s.n, (t.rev.get i).toNat = revBits s.k i) ∧ (∀ i, s.n ≤ i → t.rev.get i = s.rev.get i) ∧
    t.status.revv = true ∧ t.status.revk = s.logn ∧ Finished s t ∧ SameOperands s t ∧ SameResult s t ∧
    t.res = s.res ∧ t.buf0 = s.buf0 ∧ t.buf1 = s.buf1 ∧ SameOutside s t) ∧
  (∀ s : State, Config.KMAX < s.k → ∃ t, exec .bitrev s = .next t ∧ OnlyFails .overflow s t) ∧
  (∀ s : State, s.cmd.extractLsb' 24 8 = 0x08 → s.cmd &&& 0x00FFFFFF ≠ 0 →
    ∃ t, engineStep s = .next t ∧ OnlyFails .opcode s t) ∧
  ∀ s : State, s.logn = 3 → s.status.err = false → s.status.ecode = 0 → ∃ t, exec .bitrev s = .next t ∧
    (List.range 8).map (fun i => (t.rev.get i).toNat) = [0, 4, 2, 6, 1, 5, 3, 7] ∧ t.status.toWord = 0x0000030A

/-! ### The NTT engine (42_ntt.md) -/

/-- What R152 derives of step 1: with the table built for k, the permutation puts old element `rev_k(i)` at index i of
the active range and leaves every other element; for k = 0 and k = 1 it changes nothing. -/
def Obligations.PermutationReordersTheBuffer : Prop :=
  ∀ (k : Nat) (rev : Memory Config.KMAX) (m : Memory 32), k ≤ Config.KMAX →
    (∀ i < 2 ^ k, (rev.get i).toNat = revBits k i) →
    (∀ i < 2 ^ k, (permute (2 ^ k) rev m).get i = m.get (revBits k i)) ∧
    (∀ i, 2 ^ k ≤ i → (permute (2 ^ k) rev m).get i = m.get i) ∧
    (k ≤ 1 → permute (2 ^ k) rev m = m)

/-- NTT.F completes whenever `k ≤ KMAX` and the table is valid for k (R151, R156): it leaves in the named buffer what the
three steps compute, writes the active range only, and for n = 1 and n = 2 gives what R156's corner cases say. -/
def Obligations.NttForwardCompletes : Prop :=
  ∀ (d : Buffer) (s : State), s.k ≤ Config.KMAX → s.tableValid = true → s.TableRecord →
    ∃ t, exec (.nttF d) s = .next t ∧ OnlyActiveRange d s t ∧
      t.buf d = nttStages 3 s.k (permute s.n s.rev (s.buf d)) ∧
      (s.k = 0 → t.buf d = s.buf d) ∧
      (s.k = 1 → (s.buf d).inField →
        elem (t.buf d) 0 = addMod (elem (s.buf d) 0) (elem (s.buf d) 1) ∧
        elem (t.buf d) 1 = subMod (elem (s.buf d) 0) (elem (s.buf d) 1))

/-- NTT.I completes whenever `k ≤ KMAX` and the table is valid for k (R151, R157): it leaves in the named buffer what the
steps with root GINV and the scaling compute, writes the active range only, and for n = 1 and n = 2 gives what R157's
corner cases say. -/
def Obligations.NttInverseCompletes : Prop :=
  ∀ (d : Buffer) (s : State), s.k ≤ Config.KMAX → s.tableValid = true → s.TableRecord →
    ∃ t, exec (.nttI d) s = .next t ∧ OnlyActiveRange d s t ∧
      t.buf d = scaleElems s.n (nttStages 332748118 s.k (permute s.n s.rev (s.buf d))) ∧
      (s.k = 0 → (s.buf d).inField → ∀ i, (t.buf d).get i = (s.buf d).get i) ∧
      (s.k = 1 → (s.buf d).inField →
        elem (t.buf d) 0 = mulMod (addMod (elem (s.buf d) 0) (elem (s.buf d) 1)) 499122177 ∧
        elem (t.buf d) 1 = mulMod (subMod (elem (s.buf d) 0) (elem (s.buf d) 1)) 499122177)

/-- The closed form that R159 supplies for NTT.F: with `omega = pow_mod(3, (P-1)/n)`, of order exactly n, element j is the
sum of `x[i] * omega^(i*j)` modulo P. -/
def Obligations.NttForwardEvaluates : Prop :=
  ∀ (d : Buffer) (s : State), s.k ≤ Config.KMAX → s.tableValid = true → s.TableRecord → s.FieldElements →
    (powMod 3 ((Config.P - 1) / s.n) ^ s.n % Config.P = 1 ∧
      ∀ m, 0 < m → m < s.n → powMod 3 ((Config.P - 1) / s.n) ^ m % Config.P ≠ 1) ∧
    ∃ t, exec (.nttF d) s = .next t ∧
      ∀ j < s.n, elem (t.buf d) j =
        (∑ i ∈ Finset.range s.n, elem (s.buf d) i * powMod 3 ((Config.P - 1) / s.n) ^ (i * j)) % Config.P

/-- The closed form that R159 supplies for NTT.I: with `omega^(-1) = pow_mod(332748118, (P-1)/n)` and `ninv` the inverse of
n, element j is `ninv` times the sum of `x[i] * omega^(-i*j)` modulo P. -/
def Obligations.NttInverseEvaluates : Prop :=
  ∀ (d : Buffer) (s : State), s.k ≤ Config.KMAX → s.tableValid = true → s.TableRecord → s.FieldElements →
    (s.n * powMod s.n (Config.P - 2) % Config.P = 1 ∧
      powMod 3 ((Config.P - 1) / s.n) * powMod 332748118 ((Config.P - 1) / s.n) % Config.P = 1) ∧
    ∃ t, exec (.nttI d) s = .next t ∧
      ∀ j < s.n, elem (t.buf d) j =
        powMod s.n (Config.P - 2) *
          (∑ i ∈ Finset.range s.n, elem (s.buf d) i * powMod 332748118 ((Config.P - 1) / s.n) ^ (i * j)) % Config.P

/-- The round trip of R160, in both orders: for every `k ≤ KMAX`, every buffer and every content of the active range, NTT.F
then NTT.I, and NTT.I then NTT.F, restore the buffer. -/
def Obligations.TransformsRoundTrip : Prop :=
  ∀ (d : Buffer) (s : State), s.k ≤ Config.KMAX → s.tableValid = true → s.TableRecord → s.FieldElements →
    (∃ t u, exec (.nttF d) s = .next t ∧ exec (.nttI d) t = .next u ∧ ∀ i, (u.buf d).get i = (s.buf d).get i) ∧
    (∃ t u, exec (.nttI d) s = .next t ∧ exec (.nttF d) t = .next u ∧ ∀ i, (u.buf d).get i = (s.buf d).get i)

/-! ### PWMUL, CLR and the pipeline (43_pointwise_and_buffer.md) -/

/-- R170: PWMUL writes the product of the elements at index i of its two buffers to the destination, for every i of the
active range, the two buffers one or not; it needs no table; above KMAX it fails with E_OVERFLOW, and a must-be-zero bit
set in its word is E_OPCODE. -/
def Obligations.PwmulMultipliesTheElements : Prop :=
  (∀ d b : Buffer, (encode (.pwmul d b)).toNat = 0x0A000000 + 2 * b.bit.toNat + d.bit.toNat) ∧
  (∀ (d b : Buffer) (s : State), s.k ≤ Config.KMAX → ∃ t, exec (.pwmul d b) s = .next t ∧
    (∀ i < s.n, elem (t.buf d) i = elem (s.buf d) i * elem (s.buf b) i % Config.P) ∧ OnlyActiveRange d s t) ∧
  (∀ (d b : Buffer) (s : State), Config.KMAX < s.k → ∃ t, exec (.pwmul d b) s = .next t ∧ OnlyFails .overflow s t) ∧
  ∀ s : State, s.cmd.extractLsb' 24 8 = 0x0A → s.cmd &&& 0x00FFFFFC ≠ 0 →
    ∃ t, engineStep s = .next t ∧ OnlyFails .opcode s t

/-- R172: CLR zeroes the active range of its buffer and writes nothing else; above KMAX it fails with E_OVERFLOW, and a
must-be-zero bit set in its word is E_OPCODE. -/
def Obligations.ClrClearsTheActiveRange : Prop :=
  (∀ d : Buffer, (encode (.clr d)).toNat = 0x0C000000 + d.bit.toNat) ∧
  (∀ (d : Buffer) (s : State), s.k ≤ Config.KMAX → ∃ t, exec (.clr d) s = .next t ∧
    (∀ i < s.n, (t.buf d).get i = 0) ∧ OnlyActiveRange d s t) ∧
  (∀ (d : Buffer) (s : State), Config.KMAX < s.k → ∃ t, exec (.clr d) s = .next t ∧ OnlyFails .overflow s t) ∧
  ∀ s : State, s.cmd.extractLsb' 24 8 = 0x0C → s.cmd &&& 0x00FFFFFE ≠ 0 →
    ∃ t, engineStep s = .next t ∧ OnlyFails .opcode s t

/-- The convolution law that R171 supplies: NTT.F on both buffers, PWMUL and NTT.I leave in BUF0 the cyclic convolution of
the two active ranges, modulo P. -/
def Obligations.PipelineConvolves : Prop :=
  ∀ s : State, s.k ≤ Config.KMAX → s.tableValid = true → s.TableRecord → s.FieldElements →
    ∃ s1 s2 s3 s4, exec (.nttF .b0) s = .next s1 ∧ exec (.nttF .b1) s1 = .next s2 ∧
      exec (.pwmul .b0 .b1) s2 = .next s3 ∧ exec (.nttI .b0) s3 = .next s4 ∧
      ∀ t < s.n, elem s4.buf0 t =
        (∑ i ∈ Finset.range s.n, ∑ j ∈ Finset.range s.n,
          if (i + j) % s.n = t then elem s.buf0 i * elem s.buf1 j else 0) % Config.P

/-! ### The carry normaliser (44_carry_normalizer.md) -/

/-- CARRY completes whenever `k ≤ KMAX` (R185): with m the digit count of the loop and the flush, it leaves DIG as they
write it and RLEN as the trim counts it, and writes nothing else; above KMAX it fails with E_OVERFLOW, and a
must-be-zero bit set in its word is E_OPCODE. -/
def Obligations.CarryCompletes : Prop :=
  (∀ d : Buffer, (encode (.carry d)).toNat = 0x0B000000 + d.bit.toNat) ∧
  (∀ (d : Buffer) (s : State), s.k ≤ Config.KMAX → ∃ t, exec (.carry d) s = .next t ∧
    t.dig = (carryDigits s.n (s.buf d) s.dig).1 ∧
    t.rlen.toNat = trim t.dig (carryDigits s.n (s.buf d) s.dig).2 ∧
    Finished s t ∧ SameOperands s t ∧ SameTable s t ∧ t.res = s.res ∧ t.buf0 = s.buf0 ∧ t.buf1 = s.buf1 ∧
    SameOutside s t) ∧
  (∀ (d : Buffer) (s : State), Config.KMAX < s.k → ∃ t, exec (.carry d) s = .next t ∧ OnlyFails .overflow s t) ∧
  ∀ s : State, s.cmd.extractLsb' 24 8 = 0x0B → s.cmd &&& 0x00FFFFFE ≠ 0 →
    ∃ t, engineStep s = .next t ∧ OnlyFails .opcode s t

/-- The value preservation that R186 derives: the digits below the untrimmed count m, and those below RLEN, denote the
number the buffer's coefficients denote; every written digit is at most 9; digits from m on are as before; and m is n
exactly when no carry was left, else the top flushed digit is not 0. -/
def Obligations.CarryPreservesTheValue : Prop :=
  ∀ (d : Buffer) (s : State), s.k ≤ Config.KMAX → s.FieldElements →
    ∃ t m, exec (.carry d) s = .next t ∧ s.n ≤ m ∧ m ≤ s.n + 9 ∧
      (∀ i < m, (t.dig.get i).toNat ≤ 9) ∧ (∀ i, m ≤ i → t.dig.get i = s.dig.get i) ∧
      (m = s.n ∨ t.dig.get (m - 1) ≠ 0) ∧
      ∑ i ∈ Finset.range m, (t.dig.get i).toNat * 10 ^ i = ∑ i ∈ Finset.range s.n, elem (s.buf d) i * 10 ^ i ∧
      1 ≤ t.rlen.toNat ∧ t.rlen.toNat ≤ m ∧
      ∑ i ∈ Finset.range t.rlen.toNat, (t.dig.get i).toNat * 10 ^ i =
        ∑ i ∈ Finset.range s.n, elem (s.buf d) i * 10 ^ i

/-- R183: the trimmed count is the least r with `1 ≤ r ≤ m` and `DIG[i] = 0` for all `r ≤ i < m`, and then r is 1 or
`DIG[r-1]` is not 0. -/
def Obligations.TrimIsTheLeastCount : Prop :=
  ∀ (dig : Memory 4) (m : Nat), 1 ≤ m →
    1 ≤ trim dig m ∧ trim dig m ≤ m ∧ (∀ i, trim dig m ≤ i → i < m → dig.get i = 0) ∧
    (∀ r, 1 ≤ r → r ≤ m → (∀ i, r ≤ i → i < m → dig.get i = 0) → trim dig m ≤ r) ∧
    (trim dig m = 1 ∨ dig.get (trim dig m - 1) ≠ 0)

/-- The bounds that R184 derives: the carry stays at most 110916039, which is below `2^27`; a position's value stays below
`2^31`; the flush writes at most 9 digits; and two coefficients of `P - 1` reach that. -/
def Obligations.CarryIsBounded : Prop :=
  (∀ (n : Nat) (m : Memory 32) (dig : Memory 4), m.inField →
    (carryLoop n m dig).2 ≤ 110916039 ∧ (∀ i, elem m i + (carryLoop n m dig).2 < 2 ^ 31) ∧
    n ≤ (carryDigits n m dig).2 ∧ (carryDigits n m dig).2 ≤ n + 9) ∧
  (carryDigits 2 [(0, 998244352), (1, 998244352)] []).2 = 11

/-! ### The invariants -/

/-- The invariant holds at reset; the canonical form of the memories in it is the model's choice (DESIGN CHOICE, log
entry 7). -/
def Obligations.InvariantHoldsAtReset : Prop :=
  State.reset.Inv

/-- Every step keeps the memories within their capacities (R40 to R42, R71), and in their canonical form: rising indices
and no listed element 0, which is the model's choice (DESIGN CHOICE, log entry 7) and follows from no rule. -/
def Obligations.MemoryFormIsKept : Prop :=
  ∀ s t : State, s.MemoryForm → step s = .next t → t.MemoryForm

/-- Every step keeps the field-element invariant, which R24 derives. -/
def Obligations.FieldElementsAreKept : Prop :=
  ∀ s t : State, s.FieldElements → step s = .next t → t.FieldElements

/-- Every step keeps what the fields of STATUS say together (R34, R211). -/
def Obligations.StatusRecordIsKept : Prop :=
  ∀ s t : State, s.StatusRecord → step s = .next t → t.StatusRecord

/-- Every step keeps what REVV and REVK say of REV, the validity that R144 derives. -/
def Obligations.TableRecordIsKept : Prop :=
  ∀ s t : State, s.TableRecord → step s = .next t → t.TableRecord

/-- Every step keeps what RLEN and DIG say (R38, R42, R183). -/
def Obligations.ResultRecordIsKept : Prop :=
  ∀ s t : State, s.ResultRecord → step s = .next t → t.ResultRecord

/-- R75: nothing the host does while a command is pending, short of a reset, changes which command runs or what it
computes: after any such event the word is the same and still pending, and the command's effect on the registers and the
memories is the same. -/
def Obligations.PendingCommandIsUndisturbed : Prop :=
  (∀ (s : State) (w : Word), s.Ready → (hostWrite 5 w s).cmd = w ∧ (hostWrite 5 w s).status.busy = true) ∧
  ∀ (s t : State) (e : HostEvent) (i : Instr), s.status.busy = true → e ≠ .resetInput → e ≠ .wait →
    (∀ v : Word, v.getLsbD 0 = true → e ≠ .write 2 v) → outsideTurn e s = .next t →
    t.cmd = s.cmd ∧ t.status.busy = true ∧
    ∃ s' t', exec i s = .next s' ∧ exec i t = .next t' ∧ t'.status.done = s'.status.done ∧
      t'.res = s'.res ∧ t'.rlen = s'.rlen ∧ t'.buf0 = s'.buf0 ∧ t'.buf1 = s'.buf1 ∧ t'.dig = s'.dig ∧
      SameTable s' t' ∧ SameOperands s' t'

/-! ### The host driver (45_host_pipeline.md) -/

/-- R193: the planner gives the least k with `2^k ≥ lenA + lenB - 1`. -/
def Obligations.PlannerIsMinimal : Prop :=
  ∀ lenA lenB : Nat, 1 ≤ lenA → 1 ≤ lenB →
    lenA + lenB - 1 ≤ 2 ^ plan lenA lenB ∧ ∀ k, lenA + lenB - 1 ≤ 2 ^ k → plan lenA lenB ≤ k

/-- R198: from an idle block with a result, the formatter emits RLEN characters, the most significant digit first,
character t being that of digit `r-1-t`, and the first is "0" only when there is one. -/
def Obligations.FormatterPrintsTheDigits : Prop :=
  ∀ s : State, s.status.busy = false → s.ResultRecord → 1 ≤ s.rlen.toNat →
    ∃ t cs, readDigits s.rlen.toNat s = .ok (t, cs) ∧ cs.length = s.rlen.toNat ∧
      (∀ j < s.rlen.toNat, cs[j]? = some (Char.ofNat (0x30 + (s.dig.get (s.rlen.toNat - 1 - j)).toNat))) ∧
      (cs[0]? = some '0' → s.rlen.toNat = 1)

/-- The end-to-end claim that R200 derives: from every idle, error-free state that meets the invariant, the driver's
`multiply` on two tokens that pass the checks of R194 yields the canonical decimal numeral of the product of the numbers
the tokens denote, and records no error.  The same of a session of R243 from any state whatever, a command pending or an
error recorded included, by a driver that does not know the state and therefore resets, whether or not it then asks for
ID and CAP. -/
def Obligations.MultiplyYieldsTheProduct : Prop :=
  ∀ (lmax : Nat) (x y : List Char) (more : List (List Char)) (a b : List Nat) (k : Nat) (s : State),
    parseTokens (x :: y :: more) = .ok (a, b) → checkSizes Config.KMAX lmax a b = .ok k →
    (s.Inv → s.Ready → ∃ t, multiply Config.KMAX lmax (x :: y :: more) s =
        .ok (t, Nat.toDigits 10 (decimalValue a * decimalValue b)) ∧ t.ErrorFree) ∧
    ∀ asks : Bool, ∃ t, session lmax false asks [x :: y :: more] s =
        .ok (t, [Nat.toDigits 10 (decimalValue a * decimalValue b)]) ∧ t.ErrorFree
end

