-- ==== Sys2Proof/Laws/Loop.lean ====
section
/-! SUPPORT. The counted loop: its induction, packaged once. -/

namespace Sys2Proof.Machine

variable {σ : Type}

@[simp] theorem forUpTo_zero (body : Nat → σ → σ) (x : σ) : forUpTo 0 body x = x := rfl

theorem forUpTo_succ (n : Nat) (body : Nat → σ → σ) (x : σ) :
    forUpTo (n + 1) body x = body n (forUpTo n body x) := rfl

/-- What holds before the loop and is carried from turn i to turn i + 1 holds after the loop. -/
theorem forUpTo_induct {n : Nat} {body : Nat → σ → σ} {x : σ} (inv : Nat → σ → Prop) (h0 : inv 0 x)
    (hs : ∀ i y, i < n → inv i y → inv (i + 1) (body i y)) : inv n (forUpTo n body x) := by
  induction n with
  | zero => exact h0
  | succ n ih => exact hs n _ (Nat.lt_succ_self n) (ih fun i y hi => hs i y (Nat.lt_succ_of_lt hi))

/-- What every turn keeps, the loop keeps. -/
theorem forUpTo_keeps {n : Nat} {body : Nat → σ → σ} {x : σ} (inv : σ → Prop) (h0 : inv x)
    (hs : ∀ i y, i < n → inv y → inv (body i y)) : inv (forUpTo n body x) :=
  forUpTo_induct (fun _ => inv) h0 hs

/-- Two loops whose bodies agree on the turns made agree. -/
theorem forUpTo_congr {n : Nat} {body body' : Nat → σ → σ} (x : σ) (h : ∀ i y, i < n → body i y = body' i y) :
    forUpTo n body x = forUpTo n body' x := by
  induction n with
  | zero => rfl
  | succ n ih =>
    rw [forUpTo_succ, forUpTo_succ, ih fun i y hi => h i y (Nat.lt_succ_of_lt hi), h n _ (Nat.lt_succ_self n)]

end Sys2Proof.Machine
end

