-- ==== Sys2Proof/Laws/Memory.lean ====
section
/-! SUPPORT. The laws of element reads and writes, and that writes keep the canonical form. -/

namespace Sys2Proof.Machine

variable {w : Nat}

@[simp] theorem Memory.get_nil (i : Nat) : Memory.get ([] : Memory w) i = 0 := rfl

theorem Memory.get_cons (j : Nat) (u : BitVec w) (m : Memory w) (i : Nat) :
    Memory.get ((j, u) :: m) i = if j = i then u else m.get i := rfl

theorem Memory.erase_cons (j : Nat) (u : BitVec w) (m : Memory w) (i : Nat) :
    Memory.erase ((j, u) :: m) i = if j = i then m.erase i else (j, u) :: m.erase i := by
  by_cases h : j = i <;> simp [Memory.erase, h]

@[simp] theorem Memory.get_erase_same (m : Memory w) (i : Nat) : (m.erase i).get i = 0 := by
  induction m with
  | nil => rfl
  | cons c m ih =>
    obtain ⟨j, u⟩ := c
    rw [Memory.erase_cons]
    split
    · exact ih
    · rw [Memory.get_cons, if_neg ‹_›, ih]

theorem Memory.get_erase_other (m : Memory w) {i i' : Nat} (h : i' ≠ i) : (m.erase i).get i' = m.get i' := by
  induction m with
  | nil => rfl
  | cons c m ih =>
    obtain ⟨j, u⟩ := c
    rw [Memory.erase_cons, Memory.get_cons]
    split
    · rw [ih, if_neg]
      omega
    · rw [Memory.get_cons, ih]

theorem Memory.get_insert_other (m : Memory w) {i i' : Nat} (v : BitVec w) (h : i' ≠ i) :
    (m.insert i v).get i' = m.get i' := by
  induction m with
  | nil => rw [Memory.insert, Memory.get_cons, if_neg (Ne.symm h)]
  | cons c m ih =>
    obtain ⟨j, u⟩ := c
    rw [Memory.insert]
    split
    · rw [Memory.get_cons, if_neg (Ne.symm h)]
    · rw [Memory.get_cons, Memory.get_cons, ih]

theorem Memory.get_insert_erase_same (m : Memory w) (i : Nat) (v : BitVec w) :
    ((m.erase i).insert i v).get i = v := by
  induction m with
  | nil => rw [Memory.erase, List.filter_nil, Memory.insert, Memory.get_cons, if_pos rfl]
  | cons c m ih =>
    obtain ⟨j, u⟩ := c
    rw [Memory.erase_cons]
    split
    · exact ih
    · rw [Memory.insert]
      split
      · rw [Memory.get_cons, if_pos rfl]
      · rw [Memory.get_cons, if_neg ‹_›, ih]

/-- A read after a write to the same index gives the element written. -/
@[simp] theorem Memory.get_set_same (m : Memory w) (i : Nat) (v : BitVec w) : (m.set i v).get i = v := by
  rw [Memory.set]
  split
  · rw [Memory.get_erase_same, ‹v = 0›]
  · exact m.get_insert_erase_same i v

/-- A write leaves every other index alone. -/
theorem Memory.get_set_other (m : Memory w) {i i' : Nat} (v : BitVec w) (h : i' ≠ i) :
    (m.set i v).get i' = m.get i' := by
  rw [Memory.set]
  split
  · exact m.get_erase_other h
  · rw [Memory.get_insert_other _ v h, m.get_erase_other h]

theorem Memory.get_set (m : Memory w) (i i' : Nat) (v : BitVec w) :
    (m.set i v).get i' = if i' = i then v else m.get i' := by
  split
  · rw [‹i' = i›, Memory.get_set_same]
  · exact m.get_set_other v ‹_›

theorem Memory.wf_nil (cap : Nat) : Memory.wf cap ([] : Memory w) :=
  ⟨List.Pairwise.nil, fun _ h => absurd h List.not_mem_nil⟩

theorem Memory.mem_erase {m : Memory w} {i : Nat} {c : Nat × BitVec w} (h : c ∈ m.erase i) : c ∈ m ∧ c.1 ≠ i := by
  simpa [Memory.erase] using h

theorem Memory.wf_erase {cap : Nat} {m : Memory w} (h : m.wf cap) (i : Nat) : (m.erase i).wf cap :=
  ⟨h.1.sublist List.filter_sublist, fun c hc => h.2 c (Memory.mem_erase hc).1⟩

theorem Memory.mem_insert {m : Memory w} {i : Nat} {v : BitVec w} {c : Nat × BitVec w} (h : c ∈ m.insert i v) :
    c = (i, v) ∨ c ∈ m := by
  induction m with
  | nil => simpa [Memory.insert] using h
  | cons d m ih =>
    obtain ⟨j, u⟩ := d
    rw [Memory.insert] at h
    split at h
    · simpa using h
    · rcases List.mem_cons.1 h with h | h
      · exact .inr (h ▸ List.mem_cons_self)
      · exact (ih h).imp_right (List.mem_cons_of_mem _)

theorem Memory.wf_insert {cap : Nat} {m : Memory w} (h : m.wf cap) {i : Nat} {v : BitVec w} (hi : i < cap)
    (hv : v ≠ 0) (hm : ∀ c ∈ m, c.1 ≠ i) : (m.insert i v).wf cap := by
  refine ⟨?_, fun c hc => (Memory.mem_insert hc).elim (fun e => e ▸ ⟨hi, hv⟩) (h.2 c)⟩
  have hp := h.1
  clear h
  induction m with
  | nil => exact List.pairwise_singleton _ _
  | cons d m ih =>
    obtain ⟨j, u⟩ := d
    rw [List.pairwise_cons] at hp
    have hj : j ≠ i := hm (j, u) List.mem_cons_self
    rw [Memory.insert]
    split
    · rename_i hlt
      refine List.pairwise_cons.2 ⟨fun c hc => ?_, List.pairwise_cons.2 hp⟩
      rcases List.mem_cons.1 hc with rfl | hc
      · exact hlt
      · exact hlt.trans (hp.1 c hc)
    · refine List.pairwise_cons.2 ⟨fun c hc => ?_, ih (fun c hc => hm c (List.mem_cons_of_mem _ hc)) hp.2⟩
      rcases Memory.mem_insert hc with rfl | hc
      · exact lt_of_le_of_ne (Nat.le_of_not_lt ‹_›) hj
      · exact hp.1 c hc

/-- A write within the capacity keeps the canonical form. -/
theorem Memory.wf_set {cap : Nat} {m : Memory w} (h : m.wf cap) {i : Nat} (v : BitVec w) (hi : i < cap) :
    (m.set i v).wf cap := by
  rw [Memory.set]
  split
  · exact m.wf_erase h i
  · exact (m.erase i).wf_insert (m.wf_erase h i) hi ‹_› fun c hc => (Memory.mem_erase hc).2

/-- What 0 and every listed element meet, every element meets. -/
theorem Memory.get_of_forall {m : Memory w} {p : BitVec w → Prop} (h0 : p 0) (h : ∀ c ∈ m, p c.2) (i : Nat) :
    p (m.get i) := by
  induction m with
  | nil => exact h0
  | cons c m ih =>
    obtain ⟨j, u⟩ := c
    rw [Memory.get_cons]
    split
    · exact h (j, u) List.mem_cons_self
    · exact ih fun c hc => h c (List.mem_cons_of_mem _ hc)

/-- An element of a memory in canonical form at or beyond its capacity reads as 0. -/
theorem Memory.get_of_le {cap : Nat} {m : Memory w} (h : m.wf cap) {i : Nat} (hi : cap ≤ i) : m.get i = 0 := by
  induction m with
  | nil => rfl
  | cons c m ih =>
    obtain ⟨j, u⟩ := c
    have hj := (h.2 (j, u) List.mem_cons_self).1
    rw [Memory.get_cons, if_neg (by simp at hj; omega)]
    exact ih ⟨(List.pairwise_cons.1 h.1).2, fun c hc => h.2 c (List.mem_cons_of_mem _ hc)⟩

/-- Two memories in canonical form that read alike are equal: the form is canonical. -/
theorem Memory.ext_get {cap : Nat} : ∀ {m m' : Memory w}, m.wf cap → m'.wf cap → (∀ i, m.get i = m'.get i) → m = m'
  | [], [], _, _, _ => rfl
  | [], (j, u) :: m', _, h', e => by
    have := e j
    rw [Memory.get_cons, if_pos rfl] at this
    exact absurd this.symm (h'.2 (j, u) List.mem_cons_self).2
  | (j, u) :: m, [], h, _, e => by
    have := e j
    rw [Memory.get_cons, if_pos rfl] at this
    exact absurd this (h.2 (j, u) List.mem_cons_self).2
  | (j, u) :: m, (j', u') :: m', h, h', e => by
    have low : ∀ {i : Nat} {p : Memory w}, (∀ c ∈ p, i < c.1) → p.get i = 0 := by
      intro i p hp
      induction p with
      | nil => rfl
      | cons c p ih =>
        obtain ⟨l, x⟩ := c
        rw [Memory.get_cons, if_neg (Nat.ne_of_gt (hp (l, x) List.mem_cons_self))]
        exact ih fun c hc => hp c (List.mem_cons_of_mem _ hc)
    have hm := List.pairwise_cons.1 h.1
    have hm' := List.pairwise_cons.1 h'.1
    have hjj : j = j' := by
      rcases Nat.lt_trichotomy j j' with hlt | rfl | hlt
      · have := e j
        rw [Memory.get_cons, if_pos rfl, Memory.get_cons, if_neg (Nat.ne_of_gt hlt),
          low fun c hc => hlt.trans (hm'.1 c hc)] at this
        exact absurd this (h.2 (j, u) List.mem_cons_self).2
      · rfl
      · have := e j'
        rw [Memory.get_cons, if_neg (Nat.ne_of_gt hlt), Memory.get_cons, if_pos rfl,
          low fun c hc => hlt.trans (hm.1 c hc)] at this
        exact absurd this.symm (h'.2 (j', u') List.mem_cons_self).2
    subst hjj
    have huu : u = u' := by
      have := e j
      rwa [Memory.get_cons, if_pos rfl, Memory.get_cons, if_pos rfl] at this
    subst huu
    refine congrArg _ (Memory.ext_get ⟨hm.2, fun c hc => h.2 c (List.mem_cons_of_mem _ hc)⟩
      ⟨hm'.2, fun c hc => h'.2 c (List.mem_cons_of_mem _ hc)⟩ fun i => ?_)
    by_cases hi : j = i
    · subst hi
      rw [low hm.1, low hm'.1]
    · have := e i
      rwa [Memory.get_cons, if_neg hi, Memory.get_cons, if_neg hi] at this

end Sys2Proof.Machine
end

