-- ==== Sys2Proof/Laws/BitReversal.lean ====
section
/-! SUPPORT. `rev_k` bit by bit, its laws, and what building the table leaves in REV. -/

namespace Sys2Proof.Machine

/-- One more bit: the bits already reversed move up, the new highest bit of `i` becomes the lowest. -/
theorem revBits_succ (k i : Nat) : revBits (k + 1) i = 2 * revBits k i + (i.testBit k).toNat := by
  have scale : ∀ t ≤ k, forUpTo t (fun t r => if i.testBit t then r + 2 ^ (k + 1 - 1 - t) else r) 0 =
      2 * forUpTo t (fun t r => if i.testBit t then r + 2 ^ (k - 1 - t) else r) 0 := by
    intro t
    induction t with
    | zero => intro _; rfl
    | succ t ih =>
      intro ht
      rw [forUpTo_succ, forUpTo_succ, ih (by omega)]
      split
      · rw [show k + 1 - 1 - t = k - 1 - t + 1 by omega, Nat.pow_succ]
        omega
      · rfl
  rw [revBits, forUpTo_succ, scale k le_rfl, revBits]
  cases i.testBit k <;> simp

theorem revBits_zero (i : Nat) : revBits 0 i = 0 := rfl

/-- Bit t of `rev_k(i)` is bit `k-1-t` of `i` (R141). -/
theorem testBit_revBits (k i t : Nat) : (revBits k i).testBit t = (decide (t < k) && i.testBit (k - 1 - t)) := by
  induction k generalizing t with
  | zero => simp [revBits_zero]
  | succ k ih =>
    rw [revBits_succ]
    cases t with
    | zero => cases h : i.testBit k <;> simp [Nat.testBit_zero, h]
    | succ t =>
      rw [Nat.testBit_succ, show (2 * revBits k i + (i.testBit k).toNat) / 2 = revBits k i by
        cases i.testBit k <;> simp <;> omega, ih]
      simp only [Nat.add_lt_add_iff_right, show k + 1 - 1 - (t + 1) = k - 1 - t by omega]

theorem revBits_lt (k i : Nat) : revBits k i < 2 ^ k := by
  induction k with
  | zero => simp [revBits_zero]
  | succ k ih =>
    rw [revBits_succ, Nat.pow_succ]
    cases i.testBit k <;> simp <;> omega

/-- `rev_k` is its own inverse (R142 (a)). -/
theorem revBits_revBits {k i : Nat} (h : i < 2 ^ k) : revBits k (revBits k i) = i := by
  refine Nat.eq_of_testBit_eq fun t => ?_
  rw [testBit_revBits, testBit_revBits]
  rcases Nat.lt_or_ge t k with ht | ht
  · simp [ht, show k - 1 - t < k by omega, show k - 1 - (k - 1 - t) = t by omega]
  · simp [Nat.not_lt.2 ht, Nat.testBit_lt_two_pow (h.trans_le (Nat.pow_le_pow_right Nat.two_pos ht))]

theorem revBits_of_zero (k : Nat) : revBits k 0 = 0 :=
  Nat.eq_of_testBit_eq fun t => by simp [testBit_revBits]

theorem revBits_of_ones (k : Nat) : revBits k (2 ^ k - 1) = 2 ^ k - 1 :=
  Nat.eq_of_testBit_eq fun t => by
    rw [testBit_revBits, Nat.testBit_two_pow_sub_one, Nat.testBit_two_pow_sub_one]
    by_cases h : t < k <;> simp [h] <;> omega

/-- `rev_(k+1)(2i) = rev_k(i)` (R142 (c)). -/
theorem revBits_double (k i : Nat) : revBits (k + 1) (2 * i) = revBits k i := by
  refine Nat.eq_of_testBit_eq fun t => ?_
  rw [testBit_revBits, testBit_revBits]
  rcases Nat.lt_trichotomy t k with ht | rfl | ht
  · rw [show k + 1 - 1 - t = k - 1 - t + 1 by omega, Nat.testBit_succ, Nat.mul_div_cancel_left _ Nat.two_pos]
    simp [ht, Nat.lt_succ_of_lt ht]
  · simp
  · simp [Nat.not_lt.2 (Nat.le_of_lt ht), Nat.not_lt.2 (Nat.succ_le_of_lt ht)]

/-- `rev_(k+1)(2i + 1) = rev_k(i) + 2^k` (R142 (c)). -/
theorem revBits_double_succ (k i : Nat) : revBits (k + 1) (2 * i + 1) = revBits k i + 2 ^ k := by
  rw [Nat.add_comm (revBits k i), show 2 ^ k + revBits k i = 2 ^ k * 1 + revBits k i by rw [Nat.mul_one],
    Nat.two_pow_add_eq_or_of_lt (revBits_lt k i), Nat.mul_one]
  refine Nat.eq_of_testBit_eq fun t => ?_
  rw [Nat.testBit_or, testBit_revBits, testBit_revBits, Nat.testBit_two_pow]
  rcases Nat.lt_trichotomy t k with ht | rfl | ht
  · rw [show k + 1 - 1 - t = k - 1 - t + 1 by omega, Nat.testBit_succ, show (2 * i + 1) / 2 = i by omega]
    simp [ht, Nat.lt_succ_of_lt ht, Nat.ne_of_gt ht]
  · simp
  · simp [Nat.not_lt.2 (Nat.le_of_lt ht), Nat.not_lt.2 (Nat.succ_le_of_lt ht), Nat.ne_of_lt ht]

/-- An entry of REV holds a bit reversal for `k ≤ KMAX` without loss. -/
theorem toNat_revEntry {k : Nat} (hk : k ≤ Config.KMAX) (i : Nat) :
    (BitVec.ofNat Config.KMAX (revBits k i)).toNat = revBits k i :=
  Nat.mod_eq_of_lt ((revBits_lt k i).trans_le (Nat.pow_le_pow_right Nat.two_pos hk))

/-- Building the table writes the bit reversals to the first `2^k` entries and no other. -/
theorem get_buildTable (k : Nat) (rev : Memory Config.KMAX) (i : Nat) :
    (buildTable k rev).get i =
      if i < 2 ^ k then BitVec.ofNat Config.KMAX (revBits k i) else rev.get i := by
  refine forUpTo_induct (n := 2 ^ k) (fun t (m : Memory Config.KMAX) => m.get i =
    if i < t then BitVec.ofNat Config.KMAX (revBits k i) else rev.get i) (by simp) fun t m ht ih => ?_
  rw [Memory.get_set]
  rcases Nat.lt_trichotomy i t with h | rfl | h
  · rw [if_neg (Nat.ne_of_lt h), ih, if_pos h, if_pos (Nat.lt_succ_of_lt h)]
  · rw [if_pos rfl, if_pos (Nat.lt_succ_self _)]
  · rw [if_neg (Nat.ne_of_gt h), ih, if_neg (by omega), if_neg (by omega)]

theorem wf_buildTable {cap k : Nat} {rev : Memory Config.KMAX} (h : rev.wf cap) (hk : 2 ^ k ≤ cap) :
    (buildTable k rev).wf cap :=
  forUpTo_keeps (fun m : Memory Config.KMAX => m.wf cap) h fun _ _ hi hm =>
    Memory.wf_set hm _ (Nat.lt_of_lt_of_le hi hk)

end Sys2Proof.Machine
end

