-- ==== Sys2Proof/Laws/Field.lean ====
section
/-! SUPPORT. The field functions as remainders and in `ZMod P`: one spec lemma for each. -/

namespace Sys2Proof.Machine

theorem P_pos : 0 < Config.P := by decide

theorem P_lt_word : Config.P < 2 ^ 32 := by decide

theorem addMod_eq {x y : Nat} (hx : x < Config.P) (hy : y < Config.P) : addMod x y = (x + y) % Config.P := by
  rw [addMod]
  split
  · rw [Nat.mod_eq_sub_mod ‹_›, Nat.mod_eq_of_lt]
    omega
  · exact (Nat.mod_eq_of_lt (Nat.lt_of_not_le ‹_›)).symm

theorem addMod_lt {x y : Nat} (hx : x < Config.P) (hy : y < Config.P) : addMod x y < Config.P := by
  rw [addMod_eq hx hy]
  exact Nat.mod_lt _ P_pos

theorem subMod_eq {x y : Nat} (hx : x < Config.P) (hy : y < Config.P) :
    subMod x y = (x + Config.P - y) % Config.P := by
  rw [subMod]
  split
  · rw [show x + Config.P - y = x - y + Config.P by omega, Nat.add_mod_right, Nat.mod_eq_of_lt]
    omega
  · rw [Nat.mod_eq_of_lt]
    omega

theorem subMod_lt {x y : Nat} (hx : x < Config.P) (hy : y < Config.P) : subMod x y < Config.P := by
  rw [subMod_eq hx hy]
  exact Nat.mod_lt _ P_pos

theorem mulMod_lt (x y : Nat) : mulMod x y < Config.P :=
  Nat.mod_lt _ P_pos

/-- The loop of `pow_mod` multiplies its result by `b^e`, given turns enough for the bits of `e`. -/
theorem powLoop_eq {turns r b e : Nat} (hr : r < Config.P) (he : e < 2 ^ turns) :
    powLoop turns r b e = r * b ^ e % Config.P := by
  induction turns generalizing r b e with
  | zero =>
    obtain rfl : e = 0 := by simpa using he
    simp [powLoop, Nat.mod_eq_of_lt hr]
  | succ turns ih =>
    rw [powLoop]
    split
    · subst e
      simp [Nat.mod_eq_of_lt hr]
    · have hlt : e / 2 < 2 ^ turns := by
        rw [Nat.pow_succ] at he
        omega
      have hsq : mulMod b b ^ (e / 2) ≡ b ^ (e / 2 * 2) [MOD Config.P] := by
        rw [Nat.mul_comm, Nat.pow_mul, Nat.pow_two]
        exact (Nat.mod_modEq _ _).pow _
      split
      · rw [ih (mulMod_lt _ _) hlt]
        calc
          _ ≡ r * b * b ^ (e / 2 * 2) [MOD Config.P] := (Nat.mod_modEq _ _).mul hsq
          _ = r * b ^ e := by
            rw [Nat.mul_assoc, ← Nat.pow_succ', show (e / 2 * 2).succ = e by omega]
      · rw [ih hr hlt]
        calc
          _ ≡ r * b ^ (e / 2 * 2) [MOD Config.P] := Nat.ModEq.rfl.mul hsq
          _ = r * b ^ e := by rw [show e / 2 * 2 = e by omega]

theorem powMod_eq (b e : Nat) : powMod b e = b ^ e % Config.P := by
  rw [powMod, powLoop_eq (by decide) Nat.lt_log2_self, Nat.one_mul]

theorem powMod_lt (b e : Nat) : powMod b e < Config.P := by
  rw [powMod_eq]
  exact Nat.mod_lt _ P_pos

/-! The functions in `ZMod P`. -/

theorem cast_addMod {x y : Nat} (hx : x < Config.P) (hy : y < Config.P) :
    ((addMod x y : Nat) : ZMod Config.P) = x + y := by
  rw [addMod_eq hx hy, ZMod.natCast_mod, Nat.cast_add]

theorem cast_subMod {x y : Nat} (hx : x < Config.P) (hy : y < Config.P) :
    ((subMod x y : Nat) : ZMod Config.P) = x - y := by
  rw [subMod_eq hx hy, ZMod.natCast_mod, Nat.cast_sub (by omega), Nat.cast_add, ZMod.natCast_self, add_zero]

theorem cast_mulMod (x y : Nat) : ((mulMod x y : Nat) : ZMod Config.P) = x * y := by
  rw [mulMod, ZMod.natCast_mod, Nat.cast_mul]

theorem cast_powMod (b e : Nat) : ((powMod b e : Nat) : ZMod Config.P) = (b : ZMod Config.P) ^ e := by
  rw [powMod_eq, ZMod.natCast_mod, Nat.cast_pow]

/-- `P` is prime, by Lucas's test with the primitive root 3 (R7: the prime factors of `P - 1` are 2, 7 and 17). -/
theorem prime_P : Nat.Prime Config.P := by
  have pw (e : Nat) : (3 : ZMod Config.P) ^ e = ((powMod 3 e : Nat) : ZMod Config.P) := by
    rw [cast_powMod, Nat.cast_ofNat]
  have ne (e : Nat) (h : powMod 3 e % Config.P ≠ 1 % Config.P) : (3 : ZMod Config.P) ^ e ≠ 1 := by
    rw [pw, ← Nat.cast_one]
    exact fun h' => h ((ZMod.natCast_eq_natCast_iff' _ _ _).1 h')
  refine lucas_primality Config.P 3 ?_ fun q hq hd => ?_
  · rw [pw, show powMod 3 (Config.P - 1) = 1 by decide, Nat.cast_one]
  · have hd' : q ∣ 2 ^ 23 * 7 * 17 := by
      rwa [show Config.P - 1 = 2 ^ 23 * 7 * 17 by decide] at hd
    have : q = 2 ∨ q = 7 ∨ q = 17 := by
      rcases (Nat.Prime.dvd_mul hq).1 hd' with h | h
      · rcases (Nat.Prime.dvd_mul hq).1 h with h | h
        · exact .inl ((Nat.prime_dvd_prime_iff_eq hq Nat.prime_two).1 (hq.dvd_of_dvd_pow h))
        · exact .inr (.inl ((Nat.prime_dvd_prime_iff_eq hq (by norm_num)).1 h))
      · exact .inr (.inr ((Nat.prime_dvd_prime_iff_eq hq (by norm_num)).1 h))
    rcases this with rfl | rfl | rfl <;> exact ne _ (by decide)

/-- Field elements that are equal in `ZMod P` are equal. -/
theorem eq_of_cast_eq {x y : Nat} (hx : x < Config.P) (hy : y < Config.P)
    (h : (x : ZMod Config.P) = (y : ZMod Config.P)) : x = y := by
  have := (ZMod.natCast_eq_natCast_iff' x y Config.P).1 h
  rwa [Nat.mod_eq_of_lt hx, Nat.mod_eq_of_lt hy] at this

end Sys2Proof.Machine
end

