-- ==== Sys2Proof/Laws/State.lean ====
section
/-! SUPPORT. What each named update of the state does to each field, by definition, so that no proof unfolds a record
update; and what each update of STATUS does to each of its fields. -/

namespace Sys2Proof.Machine

/-! An error record (R213) writes STATUS only. -/

@[simp] theorem State.raise_status (e : ErrorCode) (s : State) : (s.raise e).status = s.status.record e := rfl
@[simp] theorem State.raise_logn (e : ErrorCode) (s : State) : (s.raise e).logn = s.logn := rfl
@[simp] theorem State.raise_cmd (e : ErrorCode) (s : State) : (s.raise e).cmd = s.cmd := rfl
@[simp] theorem State.raise_opx (e : ErrorCode) (s : State) : (s.raise e).opx = s.opx := rfl
@[simp] theorem State.raise_opy (e : ErrorCode) (s : State) : (s.raise e).opy = s.opy := rfl
@[simp] theorem State.raise_res (e : ErrorCode) (s : State) : (s.raise e).res = s.res := rfl
@[simp] theorem State.raise_rlen (e : ErrorCode) (s : State) : (s.raise e).rlen = s.rlen := rfl
@[simp] theorem State.raise_buf0 (e : ErrorCode) (s : State) : (s.raise e).buf0 = s.buf0 := rfl
@[simp] theorem State.raise_buf1 (e : ErrorCode) (s : State) : (s.raise e).buf1 = s.buf1 := rfl
@[simp] theorem State.raise_rev (e : ErrorCode) (s : State) : (s.raise e).rev = s.rev := rfl
@[simp] theorem State.raise_dig (e : ErrorCode) (s : State) : (s.raise e).dig = s.dig := rfl
@[simp] theorem State.raise_script (e : ErrorCode) (s : State) : (s.raise e).script = s.script := rfl
@[simp] theorem State.raise_lastRead (e : ErrorCode) (s : State) : (s.raise e).lastRead = s.lastRead := rfl
@[simp] theorem State.raise_draws (e : ErrorCode) (s : State) : (s.raise e).draws = s.draws := rfl

/-! A failing command (R214) writes STATUS only. -/

@[simp] theorem State.failCommand_status (e : ErrorCode) (s : State) :
    (s.failCommand e).status = s.status.fail e := rfl
@[simp] theorem State.failCommand_logn (e : ErrorCode) (s : State) : (s.failCommand e).logn = s.logn := rfl
@[simp] theorem State.failCommand_cmd (e : ErrorCode) (s : State) : (s.failCommand e).cmd = s.cmd := rfl
@[simp] theorem State.failCommand_opx (e : ErrorCode) (s : State) : (s.failCommand e).opx = s.opx := rfl
@[simp] theorem State.failCommand_opy (e : ErrorCode) (s : State) : (s.failCommand e).opy = s.opy := rfl
@[simp] theorem State.failCommand_res (e : ErrorCode) (s : State) : (s.failCommand e).res = s.res := rfl
@[simp] theorem State.failCommand_rlen (e : ErrorCode) (s : State) : (s.failCommand e).rlen = s.rlen := rfl
@[simp] theorem State.failCommand_buf0 (e : ErrorCode) (s : State) : (s.failCommand e).buf0 = s.buf0 := rfl
@[simp] theorem State.failCommand_buf1 (e : ErrorCode) (s : State) : (s.failCommand e).buf1 = s.buf1 := rfl
@[simp] theorem State.failCommand_rev (e : ErrorCode) (s : State) : (s.failCommand e).rev = s.rev := rfl
@[simp] theorem State.failCommand_dig (e : ErrorCode) (s : State) : (s.failCommand e).dig = s.dig := rfl
@[simp] theorem State.failCommand_script (e : ErrorCode) (s : State) : (s.failCommand e).script = s.script := rfl
@[simp] theorem State.failCommand_lastRead (e : ErrorCode) (s : State) :
    (s.failCommand e).lastRead = s.lastRead := rfl
@[simp] theorem State.failCommand_draws (e : ErrorCode) (s : State) : (s.failCommand e).draws = s.draws := rfl

/-! The end of a command (R97) writes STATUS only. -/

@[simp] theorem State.finish_status (s : State) : (s.finish).status = s.status.finish := rfl
@[simp] theorem State.finish_logn (s : State) : (s.finish).logn = s.logn := rfl
@[simp] theorem State.finish_cmd (s : State) : (s.finish).cmd = s.cmd := rfl
@[simp] theorem State.finish_opx (s : State) : (s.finish).opx = s.opx := rfl
@[simp] theorem State.finish_opy (s : State) : (s.finish).opy = s.opy := rfl
@[simp] theorem State.finish_res (s : State) : (s.finish).res = s.res := rfl
@[simp] theorem State.finish_rlen (s : State) : (s.finish).rlen = s.rlen := rfl
@[simp] theorem State.finish_buf0 (s : State) : (s.finish).buf0 = s.buf0 := rfl
@[simp] theorem State.finish_buf1 (s : State) : (s.finish).buf1 = s.buf1 := rfl
@[simp] theorem State.finish_rev (s : State) : (s.finish).rev = s.rev := rfl
@[simp] theorem State.finish_dig (s : State) : (s.finish).dig = s.dig := rfl
@[simp] theorem State.finish_script (s : State) : (s.finish).script = s.script := rfl
@[simp] theorem State.finish_lastRead (s : State) : (s.finish).lastRead = s.lastRead := rfl
@[simp] theorem State.finish_draws (s : State) : (s.finish).draws = s.draws := rfl

/-! Reset (R241) gives every field of NTTE its reset value and leaves the outside alone. -/

@[simp] theorem State.resetMachine_status (s : State) : (s.resetMachine).status = State.reset.status := rfl
@[simp] theorem State.resetMachine_logn (s : State) : (s.resetMachine).logn = State.reset.logn := rfl
@[simp] theorem State.resetMachine_cmd (s : State) : (s.resetMachine).cmd = State.reset.cmd := rfl
@[simp] theorem State.resetMachine_opx (s : State) : (s.resetMachine).opx = State.reset.opx := rfl
@[simp] theorem State.resetMachine_opy (s : State) : (s.resetMachine).opy = State.reset.opy := rfl
@[simp] theorem State.resetMachine_res (s : State) : (s.resetMachine).res = State.reset.res := rfl
@[simp] theorem State.resetMachine_rlen (s : State) : (s.resetMachine).rlen = State.reset.rlen := rfl
@[simp] theorem State.resetMachine_buf0 (s : State) : (s.resetMachine).buf0 = State.reset.buf0 := rfl
@[simp] theorem State.resetMachine_buf1 (s : State) : (s.resetMachine).buf1 = State.reset.buf1 := rfl
@[simp] theorem State.resetMachine_rev (s : State) : (s.resetMachine).rev = State.reset.rev := rfl
@[simp] theorem State.resetMachine_dig (s : State) : (s.resetMachine).dig = State.reset.dig := rfl
@[simp] theorem State.resetMachine_script (s : State) : (s.resetMachine).script = s.script := rfl
@[simp] theorem State.resetMachine_lastRead (s : State) : (s.resetMachine).lastRead = s.lastRead := rfl
@[simp] theorem State.resetMachine_draws (s : State) : (s.resetMachine).draws = s.draws := rfl

/-! A host read that answers a word changes nothing in NTTE (R68). -/

@[simp] theorem State.answer_status (v : Word) (s : State) : (s.answer v).status = s.status := rfl
@[simp] theorem State.answer_logn (v : Word) (s : State) : (s.answer v).logn = s.logn := rfl
@[simp] theorem State.answer_cmd (v : Word) (s : State) : (s.answer v).cmd = s.cmd := rfl
@[simp] theorem State.answer_opx (v : Word) (s : State) : (s.answer v).opx = s.opx := rfl
@[simp] theorem State.answer_opy (v : Word) (s : State) : (s.answer v).opy = s.opy := rfl
@[simp] theorem State.answer_res (v : Word) (s : State) : (s.answer v).res = s.res := rfl
@[simp] theorem State.answer_rlen (v : Word) (s : State) : (s.answer v).rlen = s.rlen := rfl
@[simp] theorem State.answer_buf0 (v : Word) (s : State) : (s.answer v).buf0 = s.buf0 := rfl
@[simp] theorem State.answer_buf1 (v : Word) (s : State) : (s.answer v).buf1 = s.buf1 := rfl
@[simp] theorem State.answer_rev (v : Word) (s : State) : (s.answer v).rev = s.rev := rfl
@[simp] theorem State.answer_dig (v : Word) (s : State) : (s.answer v).dig = s.dig := rfl
@[simp] theorem State.answer_script (v : Word) (s : State) : (s.answer v).script = s.script := rfl
@[simp] theorem State.answer_lastRead (v : Word) (s : State) : (s.answer v).lastRead = some v := rfl
@[simp] theorem State.answer_draws (v : Word) (s : State) : (s.answer v).draws = s.draws := rfl

/-! A draw (R69) takes the next free value and changes nothing in NTTE. -/

@[simp] theorem State.answerDraw_status (s : State) : (s.answerDraw).status = s.status := rfl
@[simp] theorem State.answerDraw_logn (s : State) : (s.answerDraw).logn = s.logn := rfl
@[simp] theorem State.answerDraw_cmd (s : State) : (s.answerDraw).cmd = s.cmd := rfl
@[simp] theorem State.answerDraw_opx (s : State) : (s.answerDraw).opx = s.opx := rfl
@[simp] theorem State.answerDraw_opy (s : State) : (s.answerDraw).opy = s.opy := rfl
@[simp] theorem State.answerDraw_res (s : State) : (s.answerDraw).res = s.res := rfl
@[simp] theorem State.answerDraw_rlen (s : State) : (s.answerDraw).rlen = s.rlen := rfl
@[simp] theorem State.answerDraw_buf0 (s : State) : (s.answerDraw).buf0 = s.buf0 := rfl
@[simp] theorem State.answerDraw_buf1 (s : State) : (s.answerDraw).buf1 = s.buf1 := rfl
@[simp] theorem State.answerDraw_rev (s : State) : (s.answerDraw).rev = s.rev := rfl
@[simp] theorem State.answerDraw_dig (s : State) : (s.answerDraw).dig = s.dig := rfl
@[simp] theorem State.answerDraw_script (s : State) : (s.answerDraw).script = s.script := rfl
@[simp] theorem State.answerDraw_lastRead (s : State) : (s.answerDraw).lastRead = some (Config.draw s.draws) := rfl
@[simp] theorem State.answerDraw_draws (s : State) : (s.answerDraw).draws = s.draws + 1 := rfl

/-! Acceptance (R37) writes CMD and STATUS. -/

@[simp] theorem State.acceptCommand_status (w : Word) (s : State) :
    (s.acceptCommand w).status = s.status.accept := rfl
@[simp] theorem State.acceptCommand_logn (w : Word) (s : State) : (s.acceptCommand w).logn = s.logn := rfl
@[simp] theorem State.acceptCommand_cmd (w : Word) (s : State) : (s.acceptCommand w).cmd = w := rfl
@[simp] theorem State.acceptCommand_opx (w : Word) (s : State) : (s.acceptCommand w).opx = s.opx := rfl
@[simp] theorem State.acceptCommand_opy (w : Word) (s : State) : (s.acceptCommand w).opy = s.opy := rfl
@[simp] theorem State.acceptCommand_res (w : Word) (s : State) : (s.acceptCommand w).res = s.res := rfl
@[simp] theorem State.acceptCommand_rlen (w : Word) (s : State) : (s.acceptCommand w).rlen = s.rlen := rfl
@[simp] theorem State.acceptCommand_buf0 (w : Word) (s : State) : (s.acceptCommand w).buf0 = s.buf0 := rfl
@[simp] theorem State.acceptCommand_buf1 (w : Word) (s : State) : (s.acceptCommand w).buf1 = s.buf1 := rfl
@[simp] theorem State.acceptCommand_rev (w : Word) (s : State) : (s.acceptCommand w).rev = s.rev := rfl
@[simp] theorem State.acceptCommand_dig (w : Word) (s : State) : (s.acceptCommand w).dig = s.dig := rfl
@[simp] theorem State.acceptCommand_script (w : Word) (s : State) : (s.acceptCommand w).script = s.script := rfl
@[simp] theorem State.acceptCommand_lastRead (w : Word) (s : State) : (s.acceptCommand w).lastRead = s.lastRead := rfl
@[simp] theorem State.acceptCommand_draws (w : Word) (s : State) : (s.acceptCommand w).draws = s.draws := rfl

/-! A scalar operation (R127) writes RES only. -/

@[simp] theorem State.scalar_status (f : Nat → Nat → Nat) (s : State) : (s.scalar f).status = s.status := rfl
@[simp] theorem State.scalar_logn (f : Nat → Nat → Nat) (s : State) : (s.scalar f).logn = s.logn := rfl
@[simp] theorem State.scalar_cmd (f : Nat → Nat → Nat) (s : State) : (s.scalar f).cmd = s.cmd := rfl
@[simp] theorem State.scalar_opx (f : Nat → Nat → Nat) (s : State) : (s.scalar f).opx = s.opx := rfl
@[simp] theorem State.scalar_opy (f : Nat → Nat → Nat) (s : State) : (s.scalar f).opy = s.opy := rfl
@[simp] theorem State.scalar_res (f : Nat → Nat → Nat) (s : State) :
    (s.scalar f).res = BitVec.ofNat 32 (f s.opx.toNat s.opy.toNat) := rfl
@[simp] theorem State.scalar_rlen (f : Nat → Nat → Nat) (s : State) : (s.scalar f).rlen = s.rlen := rfl
@[simp] theorem State.scalar_buf0 (f : Nat → Nat → Nat) (s : State) : (s.scalar f).buf0 = s.buf0 := rfl
@[simp] theorem State.scalar_buf1 (f : Nat → Nat → Nat) (s : State) : (s.scalar f).buf1 = s.buf1 := rfl
@[simp] theorem State.scalar_rev (f : Nat → Nat → Nat) (s : State) : (s.scalar f).rev = s.rev := rfl
@[simp] theorem State.scalar_dig (f : Nat → Nat → Nat) (s : State) : (s.scalar f).dig = s.dig := rfl
@[simp] theorem State.scalar_script (f : Nat → Nat → Nat) (s : State) : (s.scalar f).script = s.script := rfl
@[simp] theorem State.scalar_lastRead (f : Nat → Nat → Nat) (s : State) : (s.scalar f).lastRead = s.lastRead := rfl
@[simp] theorem State.scalar_draws (f : Nat → Nat → Nat) (s : State) : (s.scalar f).draws = s.draws := rfl

/-! BITREV (R143) writes REV, REVK and REVV. -/

@[simp] theorem State.buildRev_status (s : State) : (s.buildRev).status = s.status.tableBuilt s.logn := rfl
@[simp] theorem State.buildRev_logn (s : State) : (s.buildRev).logn = s.logn := rfl
@[simp] theorem State.buildRev_cmd (s : State) : (s.buildRev).cmd = s.cmd := rfl
@[simp] theorem State.buildRev_opx (s : State) : (s.buildRev).opx = s.opx := rfl
@[simp] theorem State.buildRev_opy (s : State) : (s.buildRev).opy = s.opy := rfl
@[simp] theorem State.buildRev_res (s : State) : (s.buildRev).res = s.res := rfl
@[simp] theorem State.buildRev_rlen (s : State) : (s.buildRev).rlen = s.rlen := rfl
@[simp] theorem State.buildRev_buf0 (s : State) : (s.buildRev).buf0 = s.buf0 := rfl
@[simp] theorem State.buildRev_buf1 (s : State) : (s.buildRev).buf1 = s.buf1 := rfl
@[simp] theorem State.buildRev_rev (s : State) : (s.buildRev).rev = buildTable s.k s.rev := rfl
@[simp] theorem State.buildRev_dig (s : State) : (s.buildRev).dig = s.dig := rfl
@[simp] theorem State.buildRev_script (s : State) : (s.buildRev).script = s.script := rfl
@[simp] theorem State.buildRev_lastRead (s : State) : (s.buildRev).lastRead = s.lastRead := rfl
@[simp] theorem State.buildRev_draws (s : State) : (s.buildRev).draws = s.draws := rfl

/-! CARRY (R185) writes DIG and RLEN. -/

@[simp] theorem State.normalise_status (m : Memory 32) (s : State) : (s.normalise m).status = s.status := rfl
@[simp] theorem State.normalise_logn (m : Memory 32) (s : State) : (s.normalise m).logn = s.logn := rfl
@[simp] theorem State.normalise_cmd (m : Memory 32) (s : State) : (s.normalise m).cmd = s.cmd := rfl
@[simp] theorem State.normalise_opx (m : Memory 32) (s : State) : (s.normalise m).opx = s.opx := rfl
@[simp] theorem State.normalise_opy (m : Memory 32) (s : State) : (s.normalise m).opy = s.opy := rfl
@[simp] theorem State.normalise_res (m : Memory 32) (s : State) : (s.normalise m).res = s.res := rfl
@[simp] theorem State.normalise_rlen (m : Memory 32) (s : State) :
    (s.normalise m).rlen = BitVec.ofNat 24 (trim (carryDigits s.n m s.dig).1 (carryDigits s.n m s.dig).2) := rfl
@[simp] theorem State.normalise_buf0 (m : Memory 32) (s : State) : (s.normalise m).buf0 = s.buf0 := rfl
@[simp] theorem State.normalise_buf1 (m : Memory 32) (s : State) : (s.normalise m).buf1 = s.buf1 := rfl
@[simp] theorem State.normalise_rev (m : Memory 32) (s : State) : (s.normalise m).rev = s.rev := rfl
@[simp] theorem State.normalise_dig (m : Memory 32) (s : State) :
    (s.normalise m).dig = (carryDigits s.n m s.dig).1 := rfl
@[simp] theorem State.normalise_script (m : Memory 32) (s : State) : (s.normalise m).script = s.script := rfl
@[simp] theorem State.normalise_lastRead (m : Memory 32) (s : State) : (s.normalise m).lastRead = s.lastRead := rfl
@[simp] theorem State.normalise_draws (m : Memory 32) (s : State) : (s.normalise m).draws = s.draws := rfl

/-! Replacing the contents of a buffer writes that buffer only. -/

@[simp] theorem State.setBuf_status (s : State) (d : Buffer) (m : Memory 32) : (s.setBuf d m).status = s.status := by cases d <;> rfl
@[simp] theorem State.setBuf_logn (s : State) (d : Buffer) (m : Memory 32) : (s.setBuf d m).logn = s.logn := by cases d <;> rfl
@[simp] theorem State.setBuf_cmd (s : State) (d : Buffer) (m : Memory 32) : (s.setBuf d m).cmd = s.cmd := by cases d <;> rfl
@[simp] theorem State.setBuf_opx (s : State) (d : Buffer) (m : Memory 32) : (s.setBuf d m).opx = s.opx := by cases d <;> rfl
@[simp] theorem State.setBuf_opy (s : State) (d : Buffer) (m : Memory 32) : (s.setBuf d m).opy = s.opy := by cases d <;> rfl
@[simp] theorem State.setBuf_res (s : State) (d : Buffer) (m : Memory 32) : (s.setBuf d m).res = s.res := by cases d <;> rfl
@[simp] theorem State.setBuf_rlen (s : State) (d : Buffer) (m : Memory 32) : (s.setBuf d m).rlen = s.rlen := by cases d <;> rfl
@[simp] theorem State.setBuf_rev (s : State) (d : Buffer) (m : Memory 32) : (s.setBuf d m).rev = s.rev := by cases d <;> rfl
@[simp] theorem State.setBuf_dig (s : State) (d : Buffer) (m : Memory 32) : (s.setBuf d m).dig = s.dig := by cases d <;> rfl
@[simp] theorem State.setBuf_script (s : State) (d : Buffer) (m : Memory 32) : (s.setBuf d m).script = s.script := by cases d <;> rfl
@[simp] theorem State.setBuf_lastRead (s : State) (d : Buffer) (m : Memory 32) : (s.setBuf d m).lastRead = s.lastRead := by cases d <;> rfl
@[simp] theorem State.setBuf_draws (s : State) (d : Buffer) (m : Memory 32) : (s.setBuf d m).draws = s.draws := by cases d <;> rfl

@[simp] theorem State.setBuf_buf_same (s : State) (d : Buffer) (m : Memory 32) : (s.setBuf d m).buf d = m := by
  cases d <;> rfl

@[simp] theorem State.setBuf_buf_other (s : State) (d : Buffer) (m : Memory 32) :
    (s.setBuf d m).buf d.other = s.buf d.other := by
  cases d <;> rfl

theorem State.setBuf_buf (s : State) (d b : Buffer) (m : Memory 32) :
    (s.setBuf d m).buf b = if b = d then m else s.buf b := by
  cases d <;> cases b <;> rfl

@[simp] theorem State.setBuf_setBuf (s : State) (d : Buffer) (m m' : Memory 32) :
    (s.setBuf d m).setBuf d m' = s.setBuf d m' := by
  cases d <;> rfl

@[simp] theorem State.setBuf_self (s : State) (d : Buffer) : s.setBuf d (s.buf d) = s := by
  cases d <;> rfl

@[simp] theorem State.setBuf_k (s : State) (d : Buffer) (m : Memory 32) : (s.setBuf d m).k = s.k := by
  cases d <;> rfl

@[simp] theorem State.setBuf_n (s : State) (d : Buffer) (m : Memory 32) : (s.setBuf d m).n = s.n := by
  cases d <;> rfl

/-! The buffers of a state by name. -/

@[simp] theorem State.raise_buf (e : ErrorCode) (s : State) (d : Buffer) : (s.raise e).buf d = s.buf d := by
  cases d <;> rfl
@[simp] theorem State.failCommand_buf (e : ErrorCode) (s : State) (d : Buffer) : (s.failCommand e).buf d = s.buf d := by
  cases d <;> rfl
@[simp] theorem State.finish_buf (s : State) (d : Buffer) : (s.finish).buf d = s.buf d := by
  cases d <;> rfl
@[simp] theorem State.resetMachine_buf (s : State) (d : Buffer) : s.resetMachine.buf d = [] := by
  cases d <;> rfl
@[simp] theorem State.answer_buf (v : Word) (s : State) (d : Buffer) : (s.answer v).buf d = s.buf d := by
  cases d <;> rfl
@[simp] theorem State.answerDraw_buf (s : State) (d : Buffer) : (s.answerDraw).buf d = s.buf d := by
  cases d <;> rfl
@[simp] theorem State.acceptCommand_buf (w : Word) (s : State) (d : Buffer) : (s.acceptCommand w).buf d = s.buf d := by
  cases d <;> rfl
@[simp] theorem State.scalar_buf (f : Nat → Nat → Nat) (s : State) (d : Buffer) : (s.scalar f).buf d = s.buf d := by
  cases d <;> rfl
@[simp] theorem State.buildRev_buf (s : State) (d : Buffer) : (s.buildRev).buf d = s.buf d := by
  cases d <;> rfl
@[simp] theorem State.normalise_buf (m : Memory 32) (s : State) (d : Buffer) : (s.normalise m).buf d = s.buf d := by
  cases d <;> rfl

/-! The fields of STATUS after each of its updates (R34). -/

@[simp] theorem Status.accept_busy (st : Status) : (st.accept).busy = true := rfl
@[simp] theorem Status.accept_done (st : Status) : (st.accept).done = false := rfl
@[simp] theorem Status.accept_err (st : Status) : (st.accept).err = st.err := rfl
@[simp] theorem Status.accept_revv (st : Status) : (st.accept).revv = st.revv := rfl
@[simp] theorem Status.accept_ecode (st : Status) : (st.accept).ecode = st.ecode := rfl
@[simp] theorem Status.accept_revk (st : Status) : (st.accept).revk = st.revk := rfl
@[simp] theorem Status.finish_busy (st : Status) : (st.finish).busy = false := rfl
@[simp] theorem Status.finish_done (st : Status) : (st.finish).done = true := rfl
@[simp] theorem Status.finish_err (st : Status) : (st.finish).err = st.err := rfl
@[simp] theorem Status.finish_revv (st : Status) : (st.finish).revv = st.revv := rfl
@[simp] theorem Status.finish_ecode (st : Status) : (st.finish).ecode = st.ecode := rfl
@[simp] theorem Status.finish_revk (st : Status) : (st.finish).revk = st.revk := rfl
@[simp] theorem Status.tableBuilt_busy (k : BitVec 5) (st : Status) : (st.tableBuilt k).busy = st.busy := rfl
@[simp] theorem Status.tableBuilt_done (k : BitVec 5) (st : Status) : (st.tableBuilt k).done = st.done := rfl
@[simp] theorem Status.tableBuilt_err (k : BitVec 5) (st : Status) : (st.tableBuilt k).err = st.err := rfl
@[simp] theorem Status.tableBuilt_revv (k : BitVec 5) (st : Status) : (st.tableBuilt k).revv = true := rfl
@[simp] theorem Status.tableBuilt_ecode (k : BitVec 5) (st : Status) : (st.tableBuilt k).ecode = st.ecode := rfl
@[simp] theorem Status.tableBuilt_revk (k : BitVec 5) (st : Status) : (st.tableBuilt k).revk = k := rfl

@[simp] theorem Status.record_busy (e : ErrorCode) (st : Status) : (st.record e).busy = st.busy := by
  cases h : st.err <;> simp [Status.record, h]
@[simp] theorem Status.record_done (e : ErrorCode) (st : Status) : (st.record e).done = st.done := by
  cases h : st.err <;> simp [Status.record, h]
@[simp] theorem Status.record_err (e : ErrorCode) (st : Status) : (st.record e).err = true := by
  cases h : st.err <;> simp [Status.record, h]
@[simp] theorem Status.record_revv (e : ErrorCode) (st : Status) : (st.record e).revv = st.revv := by
  cases h : st.err <;> simp [Status.record, h]
@[simp] theorem Status.record_ecode (e : ErrorCode) (st : Status) : (st.record e).ecode = if st.err then st.ecode else e.code := by
  cases h : st.err <;> simp [Status.record, h]
@[simp] theorem Status.record_revk (e : ErrorCode) (st : Status) : (st.record e).revk = st.revk := by
  cases h : st.err <;> simp [Status.record, h]
@[simp] theorem Status.fail_busy (e : ErrorCode) (st : Status) : (st.fail e).busy = false := by
  simp [Status.fail]
@[simp] theorem Status.fail_done (e : ErrorCode) (st : Status) : (st.fail e).done = st.done := by
  simp [Status.fail]
@[simp] theorem Status.fail_err (e : ErrorCode) (st : Status) : (st.fail e).err = true := by
  simp [Status.fail]
@[simp] theorem Status.fail_revv (e : ErrorCode) (st : Status) : (st.fail e).revv = st.revv := by
  simp [Status.fail]
@[simp] theorem Status.fail_ecode (e : ErrorCode) (st : Status) : (st.fail e).ecode = if st.err then st.ecode else e.code := by
  simp [Status.fail]
@[simp] theorem Status.fail_revk (e : ErrorCode) (st : Status) : (st.fail e).revk = st.revk := by
  simp [Status.fail]

end Sys2Proof.Machine
end

