-- ==== Sys2Proof/Laws/Elements.lean ====
section
/-! SUPPORT. What the element-wise commands CLR and PWMUL leave in the buffers, and that writes of field elements keep a
buffer a buffer of field elements. -/

namespace Sys2Proof.Machine

/-- A field element survives its storage in a word. -/
theorem toNat_ofNat_of_lt_P {x : Nat} (h : x < Config.P) : (BitVec.ofNat 32 x).toNat = x :=
  Nat.mod_eq_of_lt (h.trans P_lt_word)

theorem elem_setElem_same (m : Memory 32) (i : Nat) {v : Nat} (h : v < Config.P) : elem (setElem m i v) i = v := by
  rw [elem, setElem, Memory.get_set_same, toNat_ofNat_of_lt_P h]

theorem elem_setElem_other (m : Memory 32) {i j : Nat} (v : Nat) (h : j ≠ i) : elem (setElem m i v) j = elem m j := by
  rw [elem, setElem, Memory.get_set_other _ _ h, elem]

theorem elem_lt {m : Memory 32} (h : m.inField) (i : Nat) : elem m i < Config.P := h i

theorem get_eq_of_elem_eq {m m' : Memory 32} {i j : Nat} (h : elem m i = elem m' j) : m.get i = m'.get j :=
  BitVec.eq_of_toNat_eq h

theorem inField_set {m : Memory 32} (h : m.inField) (i : Nat) {v : Word} (hv : v.toNat < Config.P) :
    Memory.inField (m.set i v) := by
  intro j
  rw [Memory.get_set]
  split
  · exact hv
  · exact h j

theorem inField_setElem {m : Memory 32} (h : m.inField) (i : Nat) {v : Nat} (hv : v < Config.P) :
    Memory.inField (setElem m i v) :=
  inField_set h i (by rwa [toNat_ofNat_of_lt_P hv])

theorem inField_nil : Memory.inField [] := fun _ => P_pos

theorem NCAP_of_le {k : Nat} (h : k ≤ Config.KMAX) : 2 ^ k ≤ Config.NCAP :=
  Nat.pow_le_pow_right Nat.two_pos h

/-! ### CLR -/

theorem get_clearElems (n : Nat) (m : Memory 32) (i : Nat) :
    (clearElems n m).get i = if i < n then 0 else m.get i := by
  refine forUpTo_induct (n := n) (fun t (p : Memory 32) => p.get i = if i < t then 0 else m.get i) (by simp)
    fun t p _ ih => ?_
  rw [Memory.get_set]
  rcases Nat.lt_trichotomy i t with h | rfl | h
  · rw [if_neg (Nat.ne_of_lt h), ih, if_pos h, if_pos (Nat.lt_succ_of_lt h)]
  · rw [if_pos rfl, if_pos (Nat.lt_succ_self _)]
  · rw [if_neg (Nat.ne_of_gt h), ih, if_neg (by omega), if_neg (by omega)]

theorem wf_clearElems {cap n : Nat} {m : Memory 32} (h : m.wf cap) (hn : n ≤ cap) : (clearElems n m).wf cap :=
  forUpTo_keeps (fun p : Memory 32 => p.wf cap) h fun _ _ hi hp => Memory.wf_set hp _ (Nat.lt_of_lt_of_le hi hn)

theorem inField_clearElems {m : Memory 32} (h : m.inField) (n : Nat) : Memory.inField (clearElems n m) := by
  intro i
  rw [get_clearElems]
  split
  · exact P_pos
  · exact h i

/-! ### PWMUL -/

/-- The loop of PWMUL replaces the destination buffer only. -/
theorem multiplyElems_eq_setBuf (d b : Buffer) (s : State) :
    s.multiplyElems d b = s.setBuf d ((s.multiplyElems d b).buf d) := by
  refine forUpTo_keeps (fun t : State => t = s.setBuf d (t.buf d)) (by simp) fun i t _ ih => ?_
  rw [ih]
  simp

/-- The loop of PWMUL leaves at each index of the active range the product of the old elements. -/
theorem get_multiplyElems (d b : Buffer) (s : State) (i : Nat) :
    ((s.multiplyElems d b).buf d).get i =
      if i < s.n then BitVec.ofNat 32 (mulMod (elem (s.buf d) i) (elem (s.buf b) i)) else (s.buf d).get i := by
  have h : (∀ i, s.n ≤ i → ((s.multiplyElems d b).buf d).get i = (s.buf d).get i) ∧
      (∀ i, s.n ≤ i → ((s.multiplyElems d b).buf b).get i = (s.buf b).get i) ∧
      ∀ i < s.n, ((s.multiplyElems d b).buf d).get i =
        BitVec.ofNat 32 (mulMod (elem (s.buf d) i) (elem (s.buf b) i)) := by
    refine forUpTo_induct (fun k (t : State) =>
      (∀ i, k ≤ i → (t.buf d).get i = (s.buf d).get i) ∧ (∀ i, k ≤ i → (t.buf b).get i = (s.buf b).get i) ∧
      ∀ i < k, (t.buf d).get i = BitVec.ofNat 32 (mulMod (elem (s.buf d) i) (elem (s.buf b) i)))
      ⟨fun _ _ => rfl, fun _ _ => rfl, fun _ h => absurd h (Nat.not_lt_zero _)⟩ fun k t _ ih => ?_
    obtain ⟨hd, hb, hw⟩ := ih
    refine ⟨fun i hi => ?_, fun i hi => ?_, fun i hi => ?_⟩
    · rw [State.setBuf_buf_same, Memory.get_set_other _ _ (by omega), hd i (by omega)]
    · rw [State.setBuf_buf]
      split
      · subst b
        rw [Memory.get_set_other _ _ (by omega), hd i (by omega)]
      · exact hb i (by omega)
    · rw [State.setBuf_buf_same, Memory.get_set]
      split
      · subst i
        rw [hd k le_rfl, hb k le_rfl, elem, elem]
      · exact hw i (by omega)
  split
  · exact h.2.2 i ‹_›
  · exact h.1 i (Nat.le_of_not_lt ‹_›)

theorem wf_multiplyElems {d : Buffer} {s : State} (b : Buffer) (h : (s.buf d).wf Config.NCAP)
    (hn : s.n ≤ Config.NCAP) : ((s.multiplyElems d b).buf d).wf Config.NCAP := by
  refine forUpTo_keeps (fun t : State => (t.buf d).wf Config.NCAP) h fun i t hi ht => ?_
  rw [State.setBuf_buf_same]
  exact Memory.wf_set ht _ (Nat.lt_of_lt_of_le hi hn)

theorem inField_multiplyElems {d : Buffer} {s : State} (b : Buffer) (h : (s.buf d).inField) :
    ((s.multiplyElems d b).buf d).inField := by
  intro i
  rw [get_multiplyElems]
  split
  · rw [toNat_ofNat_of_lt_P (mulMod_lt _ _)]
    exact mulMod_lt _ _
  · exact h i

end Sys2Proof.Machine
end

