-- ==== Sys2Proof/Laws/Carry.lean ====
section
/-! SUPPORT. The carry loop, the flush and the trim of CARRY, each by what it leaves. -/

namespace Sys2Proof.Machine

/-- The number the first `n` digits denote. -/
def digitSum (dig : Memory 4) (n : Nat) : Nat :=
  ∑ i ∈ Finset.range n, (dig.get i).toNat * 10 ^ i

/-- The number the first `n` coefficients denote. -/
def coeffSum (m : Memory 32) (n : Nat) : Nat :=
  ∑ i ∈ Finset.range n, elem m i * 10 ^ i

theorem digitSum_succ (dig : Memory 4) (n : Nat) :
    digitSum dig (n + 1) = digitSum dig n + (dig.get n).toNat * 10 ^ n :=
  Finset.sum_range_succ _ _

theorem coeffSum_succ (m : Memory 32) (n : Nat) : coeffSum m (n + 1) = coeffSum m n + elem m n * 10 ^ n :=
  Finset.sum_range_succ _ _

theorem digitSum_congr {dig dig' : Memory 4} {n : Nat} (h : ∀ i < n, dig'.get i = dig.get i) :
    digitSum dig' n = digitSum dig n :=
  Finset.sum_congr rfl fun i hi => by rw [h i (Finset.mem_range.1 hi)]

theorem toNat_setDigit_same (dig : Memory 4) (i : Nat) {v : Nat} (h : v < 10) :
    ((setDigit dig i v).get i).toNat = v := by
  rw [setDigit, Memory.get_set_same]
  exact Nat.mod_eq_of_lt (by omega)

theorem get_setDigit_other (dig : Memory 4) {i j : Nat} (v : Nat) (h : j ≠ i) :
    (setDigit dig i v).get j = dig.get j :=
  Memory.get_set_other _ _ h

/-! ### The carry loop (R181) -/

theorem carryLoop_succ (n : Nat) (m : Memory 32) (dig : Memory 4) :
    carryLoop (n + 1) m dig =
      (setDigit (carryLoop n m dig).1 n ((elem m n + (carryLoop n m dig).2) % 10),
        (elem m n + (carryLoop n m dig).2) / 10) := rfl

theorem carryLoop_above (n : Nat) (m : Memory 32) (dig : Memory 4) {i : Nat} (hi : n ≤ i) :
    (carryLoop n m dig).1.get i = dig.get i := by
  induction n with
  | zero => rfl
  | succ n ih => rw [carryLoop_succ, get_setDigit_other _ _ (by omega), ih (by omega)]

theorem carryLoop_digit (n : Nat) (m : Memory 32) (dig : Memory 4) {i : Nat} (hi : i < n) :
    ((carryLoop n m dig).1.get i).toNat ≤ 9 := by
  induction n with
  | zero => omega
  | succ n ih =>
    rw [carryLoop_succ]
    rcases Nat.lt_succ_iff_lt_or_eq.1 hi with h | rfl
    · rw [get_setDigit_other _ _ (by omega)]
      exact ih h
    · rw [toNat_setDigit_same _ _ (Nat.mod_lt _ (by decide))]
      omega

/-- The digits of the loop and the carry it leaves denote what the coefficients denote (the invariant of R186). -/
theorem carryLoop_value (n : Nat) (m : Memory 32) (dig : Memory 4) :
    digitSum (carryLoop n m dig).1 n + (carryLoop n m dig).2 * 10 ^ n = coeffSum m n := by
  induction n with
  | zero => rfl
  | succ n ih =>
    rw [carryLoop_succ, digitSum_succ, coeffSum_succ, ← ih, toNat_setDigit_same _ _ (Nat.mod_lt _ (by decide)),
      digitSum_congr fun i hi => get_setDigit_other _ _ (Nat.ne_of_lt hi), Nat.pow_succ]
    have := Nat.div_add_mod (elem m n + (carryLoop n m dig).2) 10
    generalize (elem m n + (carryLoop n m dig).2) / 10 = q at *
    generalize (elem m n + (carryLoop n m dig).2) % 10 = r at *
    have key : (r + 10 * q) * 10 ^ n = (elem m n + (carryLoop n m dig).2) * 10 ^ n := by rw [← this]; ring
    rw [Nat.add_mul, Nat.add_mul] at key
    have hq : q * (10 ^ n * 10) = 10 * q * 10 ^ n := by ring
    simp only [hq]
    omega

/-- The carry stays at most `c` when coefficients of at most `b` keep it so (R184 (a)). -/
theorem carryLoop_carry_le {b c : Nat} (hbc : b + c ≤ 10 * c + 9) (n : Nat) {m : Memory 32} (dig : Memory 4)
    (hm : ∀ i, elem m i ≤ b) : (carryLoop n m dig).2 ≤ c := by
  induction n with
  | zero => exact Nat.zero_le _
  | succ n ih =>
    rw [carryLoop_succ]
    have := hm n
    simp only
    omega

/-- The carry of any buffer contents has at most nine digits. -/
theorem carryLoop_carry_lt (n : Nat) (m : Memory 32) (dig : Memory 4) : (carryLoop n m dig).2 < 10 ^ 9 :=
  Nat.lt_of_le_of_lt (carryLoop_carry_le (b := 2 ^ 32 - 1) (c := 477218588) (by decide) n dig
    fun i => Nat.le_sub_one_of_lt (m.get i).isLt) (by decide)

theorem wf_carryLoop {cap n : Nat} (m : Memory 32) {dig : Memory 4} (h : dig.wf cap) (hn : n ≤ cap) :
    Memory.wf cap (carryLoop n m dig).1 := by
  induction n with
  | zero => exact h
  | succ n ih => exact Memory.wf_set (ih (by omega)) _ (by omega)

/-! ### The flush (R182) -/

/-- Everything the flush does, given turns enough for the carry. -/
theorem flushLoop_spec {turns : Nat} : ∀ {carry : Nat} (dig : Memory 4) (m : Nat), carry < 10 ^ turns →
    m ≤ (flushLoop turns carry dig m).2 ∧
    (∀ w, carry < 10 ^ w → (flushLoop turns carry dig m).2 ≤ m + w) ∧
    (∀ i, i < m → (flushLoop turns carry dig m).1.get i = dig.get i) ∧
    (∀ i, (flushLoop turns carry dig m).2 ≤ i → (flushLoop turns carry dig m).1.get i = dig.get i) ∧
    (∀ i, m ≤ i → i < (flushLoop turns carry dig m).2 → ((flushLoop turns carry dig m).1.get i).toNat ≤ 9) ∧
    digitSum (flushLoop turns carry dig m).1 (flushLoop turns carry dig m).2 = digitSum dig m + carry * 10 ^ m ∧
    ((flushLoop turns carry dig m).2 = m ∨
      (flushLoop turns carry dig m).1.get ((flushLoop turns carry dig m).2 - 1) ≠ 0) := by
  induction turns with
  | zero =>
    intro carry dig m h
    obtain rfl : carry = 0 := by simpa using h
    exact ⟨le_rfl, fun _ _ => Nat.le_add_right _ _, fun _ _ => rfl, fun _ _ => rfl,
      fun i h h' => absurd h' (Nat.not_lt.2 h), by simp [flushLoop], .inl rfl⟩
  | succ turns ih =>
    intro carry dig m h
    rw [flushLoop]
    split
    · subst carry
      exact ⟨le_rfl, fun _ _ => Nat.le_add_right _ _, fun _ _ => rfl, fun _ _ => rfl,
        fun i h h' => absurd h' (Nat.not_lt.2 h), by simp, .inl rfl⟩
    · rename_i hc
      have hlt : carry / 10 < 10 ^ turns := by
        rw [Nat.pow_succ] at h
        omega
      obtain ⟨h1, h2, h3, h4, h5, h6, h7⟩ := ih (setDigit dig m (carry % 10)) (m + 1) hlt
      have hm : ((flushLoop turns (carry / 10) (setDigit dig m (carry % 10)) (m + 1)).1.get m).toNat = carry % 10 := by
        rw [h3 m (Nat.lt_succ_self m), toNat_setDigit_same _ _ (Nat.mod_lt _ (by decide))]
      refine ⟨by omega, fun w hw => ?_, fun i hi => ?_, fun i hi => ?_, fun i hi hi' => ?_, ?_, ?_⟩
      · cases w with
        | zero => simp at hw; omega
        | succ w =>
          have := h2 w (by rw [Nat.pow_succ] at hw; omega)
          omega
      · rw [h3 i (by omega), get_setDigit_other _ _ (by omega)]
      · rw [h4 i hi, get_setDigit_other _ _ (by omega)]
      · rcases Nat.eq_or_lt_of_le hi with rfl | hi
        · omega
        · exact h5 i hi hi'
      · rw [h6, digitSum_succ, toNat_setDigit_same _ _ (Nat.mod_lt _ (by decide)),
          digitSum_congr fun i hi => get_setDigit_other _ _ (Nat.ne_of_lt hi), Nat.pow_succ]
        have key : (carry % 10 + 10 * (carry / 10)) * 10 ^ m = carry * 10 ^ m := by rw [Nat.mod_add_div]
        rw [Nat.add_mul] at key
        have hq : carry / 10 * (10 ^ m * 10) = 10 * (carry / 10) * 10 ^ m := by ring
        omega
      · refine .inr ?_
        rcases h7 with h7 | h7
        · rw [h7, Nat.add_sub_cancel]
          intro h0
          rw [h0] at hm
          have h60 := h6
          rw [h7] at h60
          have hdiv : carry / 10 = 0 := by
            by_contra hne
            have hsame : digitSum (flushLoop turns (carry / 10) (setDigit dig m (carry % 10)) (m + 1)).1 (m + 1) =
                digitSum (setDigit dig m (carry % 10)) (m + 1) :=
              digitSum_congr fun i hi => h3 i hi
            rw [hsame] at h60
            have : 0 < carry / 10 * 10 ^ (m + 1) := Nat.mul_pos (Nat.pos_of_ne_zero hne) (Nat.pow_pos (by decide))
            omega
          have : carry % 10 = 0 := by simpa using hm.symm
          omega
        · exact h7

theorem wf_flushLoop {cap : Nat} : ∀ {turns carry : Nat} {dig : Memory 4} {m w : Nat}, dig.wf cap → carry < 10 ^ w →
    m + w ≤ cap → Memory.wf cap (flushLoop turns carry dig m).1 := by
  intro turns
  induction turns with
  | zero => exact fun h _ _ => h
  | succ turns ih =>
    intro carry dig m w h hc hw
    rw [flushLoop]
    split
    · exact h
    · cases w with
      | zero => simp at hc; omega
      | succ w => exact ih (w := w) (Memory.wf_set h _ (by omega)) (by rw [Nat.pow_succ] at hc; omega) (by omega)

/-- A number has no more decimal digits than bits. -/
theorem lt_ten_pow_turns (c : Nat) : c < 10 ^ (Nat.log2 c + 1) :=
  Nat.lt_of_lt_of_le Nat.lt_log2_self (Nat.pow_le_pow_left (by decide) _)

/-! ### The digits of CARRY (R185) -/

/-- Everything the loop and the flush of CARRY leave. -/
theorem carryDigits_spec (n : Nat) (m : Memory 32) (dig : Memory 4) :
    n ≤ (carryDigits n m dig).2 ∧ (carryDigits n m dig).2 ≤ n + 9 ∧
    (∀ i < (carryDigits n m dig).2, ((carryDigits n m dig).1.get i).toNat ≤ 9) ∧
    (∀ i, (carryDigits n m dig).2 ≤ i → (carryDigits n m dig).1.get i = dig.get i) ∧
    digitSum (carryDigits n m dig).1 (carryDigits n m dig).2 = coeffSum m n ∧
    ((carryDigits n m dig).2 = n ∨ (carryDigits n m dig).1.get ((carryDigits n m dig).2 - 1) ≠ 0) := by
  obtain ⟨h1, h2, h3, h4, h5, h6, h7⟩ :=
    flushLoop_spec (carryLoop n m dig).1 n (lt_ten_pow_turns (carryLoop n m dig).2)
  refine ⟨h1, h2 9 (carryLoop_carry_lt n m dig), fun i hi => ?_, fun i hi => ?_, ?_, h7⟩
  · rcases Nat.lt_or_ge i n with h | h
    · exact (congrArg BitVec.toNat (h3 i h)).trans_le (carryLoop_digit n m dig h)
    · exact h5 i h hi
  · exact (h4 i hi).trans (carryLoop_above n m dig (h1.trans hi))
  · exact h6.trans (carryLoop_value n m dig)

theorem wf_carryDigits {n : Nat} (m : Memory 32) {dig : Memory 4} (h : dig.wf Config.DCAP) (hn : n ≤ Config.NCAP) :
    Memory.wf Config.DCAP (carryDigits n m dig).1 :=
  wf_flushLoop (w := 9) (wf_carryLoop m h (Nat.le_add_right_of_le hn)) (carryLoop_carry_lt n m dig)
    (Nat.add_le_add_right hn 9)

/-! ### The trim (R183) -/

/-- Everything the trim does. -/
theorem trim_spec (dig : Memory 4) : ∀ {m : Nat}, 1 ≤ m →
    1 ≤ trim dig m ∧ trim dig m ≤ m ∧ (∀ i, trim dig m ≤ i → i < m → dig.get i = 0) ∧
    (trim dig m = 1 ∨ dig.get (trim dig m - 1) ≠ 0)
  | 0, h => absurd h (by decide)
  | 1, _ => ⟨le_rfl, le_rfl, fun i h h' => absurd h' (Nat.not_lt.2 h), .inl rfl⟩
  | r + 2, _ => by
    rw [trim]
    split
    · rename_i h0
      obtain ⟨h1, h2, h3, h4⟩ := trim_spec dig (m := r + 1) (Nat.le_add_left _ _)
      refine ⟨h1, by omega, fun i hi hi' => ?_, h4⟩
      rcases Nat.lt_succ_iff_lt_or_eq.1 hi' with h | rfl
      · exact h3 i hi h
      · exact h0
    · exact ⟨by omega, le_rfl, fun i h h' => absurd h' (Nat.not_lt.2 h), .inr ‹_›⟩

/-- Digits that are all 0 add nothing. -/
theorem digitSum_of_zeros {dig : Memory 4} {r m : Nat} (hr : r ≤ m) (h : ∀ i, r ≤ i → i < m → dig.get i = 0) :
    digitSum dig m = digitSum dig r := by
  induction m with
  | zero => rw [Nat.le_zero.1 hr]
  | succ m ih =>
    rcases Nat.eq_or_lt_of_le hr with rfl | hr
    · rfl
    · rw [digitSum_succ, h m (by omega) (Nat.lt_succ_self m), ih (by omega) fun i hi hi' => h i hi (by omega)]
      simp

end Sys2Proof.Machine
end

