-- ==== Sys2Proof/Laws/Exec.lean ====
section
/-! SUPPORT. What a command and a step can do, said once: `exec` as its checks, its effect and its end, and the cases of
a step. -/

namespace Sys2Proof.Machine

theorem State.withLength_of_le {s : State} {body : State → State} (h : s.k ≤ Config.KMAX) :
    s.withLength body = (body s).finish :=
  if_neg (Nat.not_lt.2 h)

theorem State.withLength_of_lt {s : State} {body : State → State} (h : Config.KMAX < s.k) :
    s.withLength body = s.failCommand .overflow :=
  if_pos h

theorem State.withTable_of_valid {s : State} {body : State → State} (h : s.k ≤ Config.KMAX)
    (hv : s.tableValid = true) : s.withTable body = (body s).finish := by
  rw [State.withTable, if_neg (Nat.not_lt.2 h), if_pos hv]

theorem State.withTable_of_lt {s : State} {body : State → State} (h : Config.KMAX < s.k) :
    s.withTable body = s.failCommand .overflow :=
  if_pos h

theorem State.withTable_of_stale {s : State} {body : State → State} (h : s.k ≤ Config.KMAX)
    (hv : s.tableValid = false) : s.withTable body = s.failCommand .table := by
  rw [State.withTable, if_neg (Nat.not_lt.2 h), hv, if_neg Bool.false_ne_true]

/-- The effect of a command that passes its checks, before its end (R97 "perform the row's rule"). -/
def commandEffect : Instr → State → State
  | .nop, s => s
  | .addm, s => s.scalar addMod
  | .subm, s => s.scalar subMod
  | .mulm, s => s.scalar mulMod
  | .powm, s => s.scalar powMod
  | .bitrev, s => s.buildRev
  | .nttF d, s => s.setBuf d (nttForward s.k s.rev (s.buf d))
  | .nttI d, s => s.setBuf d (nttInverse s.k s.rev (s.buf d))
  | .pwmul d b, s => s.multiplyElems d b
  | .carry d, s => s.normalise (s.buf d)
  | .clr d, s => s.setBuf d (clearElems s.n (s.buf d))

/-- A command's checks pass (R97 checks 2 and 3). -/
def ChecksPass (i : Instr) (s : State) : Prop :=
  (usesLength i = true → s.k ≤ Config.KMAX) ∧ (usesTable i = true → s.tableValid = true)

/-- A command that passes its checks has its effect and finishes. -/
theorem exec_of_checks {i : Instr} {s : State} (h : ChecksPass i s) :
    exec i s = .next (commandEffect i s).finish := by
  obtain ⟨hk, hv⟩ := h
  cases i with
  | nop => rfl
  | addm => rfl
  | subm => rfl
  | mulm => rfl
  | powm => rfl
  | bitrev => exact congrArg _ (State.withLength_of_le (hk rfl))
  | nttF d => exact congrArg _ (State.withTable_of_valid (hk rfl) (hv rfl))
  | nttI d => exact congrArg _ (State.withTable_of_valid (hk rfl) (hv rfl))
  | pwmul d b => exact congrArg _ (State.withLength_of_le (hk rfl))
  | carry d => exact congrArg _ (State.withLength_of_le (hk rfl))
  | clr d => exact congrArg _ (State.withLength_of_le (hk rfl))

/-- A command that uses n fails above KMAX. -/
theorem exec_of_overflow {i : Instr} {s : State} (hu : usesLength i = true) (h : Config.KMAX < s.k) :
    exec i s = .next (s.failCommand .overflow) := by
  cases i with
  | nop => cases hu
  | addm => cases hu
  | subm => cases hu
  | mulm => cases hu
  | powm => cases hu
  | bitrev => exact congrArg _ (State.withLength_of_lt h)
  | nttF d => exact congrArg _ (State.withTable_of_lt h)
  | nttI d => exact congrArg _ (State.withTable_of_lt h)
  | pwmul d b => exact congrArg _ (State.withLength_of_lt h)
  | carry d => exact congrArg _ (State.withLength_of_lt h)
  | clr d => exact congrArg _ (State.withLength_of_lt h)

/-- An NTT command fails without a valid table. -/
theorem exec_of_stale {i : Instr} {s : State} (hu : usesTable i = true) (h : s.k ≤ Config.KMAX)
    (hv : s.tableValid = false) : exec i s = .next (s.failCommand .table) := by
  cases i with
  | nop => cases hu
  | addm => cases hu
  | subm => cases hu
  | mulm => cases hu
  | powm => cases hu
  | bitrev => cases hu
  | nttF d => exact congrArg _ (State.withTable_of_stale h hv)
  | nttI d => exact congrArg _ (State.withTable_of_stale h hv)
  | pwmul d b => cases hu
  | carry d => cases hu
  | clr d => cases hu

theorem usesLength_of_usesTable {i : Instr} (h : usesTable i = true) : usesLength i = true := by
  cases i <;> first | rfl | cases h

/-- Everything `exec` can do: it has the command's effect and finishes, or it fails on the length, or on the table. -/
theorem exec_cases (i : Instr) (s : State) :
    (ChecksPass i s ∧ exec i s = .next (commandEffect i s).finish) ∨
    (usesLength i = true ∧ Config.KMAX < s.k ∧ exec i s = .next (s.failCommand .overflow)) ∨
    (usesTable i = true ∧ s.k ≤ Config.KMAX ∧ s.tableValid = false ∧ exec i s = .next (s.failCommand .table)) := by
  rcases Nat.lt_or_ge Config.KMAX s.k with hk | hk
  · cases hu : usesLength i with
    | true => exact .inr (.inl ⟨rfl, hk, exec_of_overflow hu hk⟩)
    | false =>
      have hc : ChecksPass i s :=
        ⟨fun h => absurd h (by simp [hu]), fun h => absurd (usesLength_of_usesTable h) (by simp [hu])⟩
      exact .inl ⟨hc, exec_of_checks hc⟩
  · cases hv : s.tableValid with
    | true => exact .inl ⟨⟨fun _ => hk, fun _ => hv⟩, exec_of_checks ⟨fun _ => hk, fun _ => hv⟩⟩
    | false =>
      cases hu : usesTable i with
      | true => exact .inr (.inr ⟨rfl, hk, rfl, exec_of_stale hu hk hv⟩)
      | false =>
        have hc : ChecksPass i s := ⟨fun _ => hk, fun h => absurd h (by simp [hu])⟩
        exact .inl ⟨hc, exec_of_checks hc⟩

/-- `exec` always answers a next state. -/
theorem exec_total (i : Instr) (s : State) : ∃ t, exec i s = .next t := by
  rcases exec_cases i s with ⟨_, h⟩ | ⟨_, _, h⟩ | ⟨_, _, _, h⟩ <;> exact ⟨_, h⟩

/-- The inversion of `exec`: what a next state is. -/
theorem exec_next {i : Instr} {s t : State} (h : exec i s = .next t) :
    (ChecksPass i s ∧ t = (commandEffect i s).finish) ∨
    (usesLength i = true ∧ Config.KMAX < s.k ∧ t = s.failCommand .overflow) ∨
    (usesTable i = true ∧ s.k ≤ Config.KMAX ∧ s.tableValid = false ∧ t = s.failCommand .table) := by
  rcases exec_cases i s with ⟨hc, e⟩ | ⟨hu, hk, e⟩ | ⟨hu, hk, hv, e⟩ <;> rw [e] at h <;> cases h
  · exact .inl ⟨hc, rfl⟩
  · exact .inr (.inl ⟨hu, hk, rfl⟩)
  · exact .inr (.inr ⟨hu, hk, hv, rfl⟩)

/-- What the engine's turn does: nothing when idle, E_OPCODE on a word that does not decode, else `exec`. -/
theorem engineTurn_next {s t : State} (h : engineTurn s = .next t) :
    (s.status.busy = false ∧ t = s) ∨
    (s.status.busy = true ∧ decode s.cmd = none ∧ t = s.failCommand .opcode) ∨
    (s.status.busy = true ∧ ∃ i, decode s.cmd = some i ∧ exec i s = .next t) := by
  rw [engineTurn] at h
  split at h
  · rename_i hb
    rw [engineStep] at h
    split at h
    · cases h
      exact .inr (.inl ⟨hb, ‹_›, rfl⟩)
    · exact .inr (.inr ⟨hb, _, ‹_›, h⟩)
  · rename_i hb
    cases h
    exact .inl ⟨Bool.eq_false_iff.2 hb, rfl⟩

/-- The inversion of a step: the engine's turn, with a `wait` taken or nothing to come, or one event of the outside. -/
theorem step_next {s t : State} (h : step s = .next t) :
    (s.script = [] ∧ engineTurn s = .next t) ∨
    (∃ r, s.script = .wait :: r ∧ engineTurn { s with script := r } = .next t) ∨
    (∃ a r, s.script = .read a :: r ∧ t = hostRead a { s with script := r }) ∨
    (∃ a v r, s.script = .write a v :: r ∧ t = hostWrite a v { s with script := r }) ∨
    (∃ r, s.script = .resetInput :: r ∧ t = State.resetMachine { s with script := r }) := by
  rw [step] at h
  split at h
  · exact .inl ⟨‹_›, h⟩
  · rename_i e r he
    cases e with
    | read a => cases h; exact .inr (.inr (.inl ⟨a, r, he, rfl⟩))
    | write a v => cases h; exact .inr (.inr (.inr (.inl ⟨a, v, r, he, rfl⟩)))
    | resetInput => cases h; exact .inr (.inr (.inr (.inr ⟨r, he, rfl⟩)))
    | wait => exact .inr (.inl ⟨r, he, h⟩)

/-- What a host read does: it refuses an unmapped address, draws, or returns the location's value. -/
theorem hostRead_cases (a : Address) (s : State) :
    (locate a = .unmapped ∧ hostRead a s = (s.raise .access).answer 0) ∨
    (locate a ≠ .unmapped ∧ s.status.busy = true ∧ (locate a).engineOwned = true ∧ hostRead a s = s.answerDraw) ∨
    (locate a ≠ .unmapped ∧ (s.status.busy = false ∨ (locate a).engineOwned = false) ∧
      hostRead a s = s.answer ((locate a).value s)) := by
  rw [hostRead, readLocation]
  split
  · exact .inl ⟨‹_›, rfl⟩
  · split
    · rename_i h
      rw [Bool.and_eq_true] at h
      exact .inr (.inl ⟨‹_›, h.1, h.2, rfl⟩)
    · rename_i h
      rw [Bool.and_eq_true, not_and_or, Bool.not_eq_true, Bool.not_eq_true] at h
      exact .inr (.inr ⟨‹_›, h, rfl⟩)

/-- What a host write does: nothing, a reset, an error record, an acceptance, or the store of CFG, OPX, OPY or one
element below `P` at an index within a buffer. -/
theorem hostWrite_cases (a : Address) (v : Word) (s : State) :
    hostWrite a v s = s ∨
    (hostWrite a v s = s.resetMachine ∧ locate a = .register .ctrl ∧ v.getLsbD 0 = true) ∨
    (∃ e, hostWrite a v s = s.raise e) ∨
    (s.status.busy = false ∧ s.status.err = false ∧ hostWrite a v s = s.acceptCommand v) ∨
    (s.status.busy = false ∧ hostWrite a v s = { s with logn := v.extractLsb' 0 5 }) ∨
    (s.status.busy = false ∧ v.toNat < Config.P ∧ hostWrite a v s = { s with opx := v }) ∨
    (s.status.busy = false ∧ v.toNat < Config.P ∧ hostWrite a v s = { s with opy := v }) ∨
    (s.status.busy = false ∧ v.toNat < Config.P ∧ ∃ b i, locate a = .buffer b i ∧
      hostWrite a v s = s.setBuf b ((s.buf b).set i v)) := by
  have ctrl : ∀ {l : Location}, l = .register .ctrl →
      writeCtrl v s = s ∨ (writeCtrl v s = s.resetMachine ∧ l = .register .ctrl ∧ v.getLsbD 0 = true) := by
    intro l hl
    rw [writeCtrl]
    split
    · exact .inr ⟨rfl, hl, ‹_›⟩
    · exact .inl rfl
  rw [hostWrite]
  split
  · split
    · rcases ctrl ‹_› with h | h
      · exact .inl h
      · exact .inr (.inl h)
    · exact .inr (.inr (.inl ⟨_, rfl⟩))
  · rename_i hb
    have hb : s.status.busy = false := Bool.eq_false_iff.2 hb
    rw [writeLocation.eq_def]
    split
    · rename_i r hl
      cases r with
      | ctrl =>
        rcases ctrl hl with h | h
        · exact .inl h
        · exact .inr (.inl ⟨h.1, hl, h.2.2⟩)
      | cfg => exact .inr (.inr (.inr (.inr (.inl ⟨hb, rfl⟩))))
      | cmd =>
        rw [writeRegister, writeCmd]
        split
        · exact .inl rfl
        · exact .inr (.inr (.inr (.inl ⟨hb, Bool.eq_false_iff.2 ‹_›, rfl⟩)))
      | opx =>
        rw [writeRegister, writeElement]
        split
        · exact .inr (.inr (.inr (.inr (.inr (.inl ⟨hb, ‹_›, rfl⟩)))))
        · exact .inr (.inr (.inl ⟨_, rfl⟩))
      | opy =>
        rw [writeRegister, writeElement]
        split
        · exact .inr (.inr (.inr (.inr (.inr (.inr (.inl ⟨hb, ‹_›, rfl⟩))))))
        · exact .inr (.inr (.inl ⟨_, rfl⟩))
      | id => exact .inr (.inr (.inl ⟨_, rfl⟩))
      | cap => exact .inr (.inr (.inl ⟨_, rfl⟩))
      | status => exact .inr (.inr (.inl ⟨_, rfl⟩))
      | res => exact .inr (.inr (.inl ⟨_, rfl⟩))
      | rlen => exact .inr (.inr (.inl ⟨_, rfl⟩))
    · rename_i b i hl
      rw [writeElement]
      split
      · exact .inr (.inr (.inr (.inr (.inr (.inr (.inr ⟨hb, ‹_›, b, i, hl, rfl⟩))))))
      · exact .inr (.inr (.inl ⟨_, rfl⟩))
    · exact .inr (.inr (.inl ⟨_, rfl⟩))
    · exact .inr (.inr (.inl ⟨_, rfl⟩))
    · exact .inr (.inr (.inl ⟨_, rfl⟩))

end Sys2Proof.Machine
end

