-- ==== Sys2Proof/Laws/Driver.lean ====
section
/-! SUPPORT. The driver's transactions taken apart event by event, and what its boot leaves (R243). -/

namespace Sys2Proof.Machine

theorem commandEffect_script (i : Instr) (s : State) : (commandEffect i s).script = s.script := by
  cases i with
  | pwmul d b =>
    rw [commandEffect, multiplyElems_eq_setBuf]
    exact State.setBuf_script _ _ _
  | nttF d => exact State.setBuf_script _ _ _
  | nttI d => exact State.setBuf_script _ _ _
  | clr d => exact State.setBuf_script _ _ _
  | nop => rfl
  | addm => rfl
  | subm => rfl
  | mulm => rfl
  | powm => rfl
  | bitrev => rfl
  | carry d => rfl

theorem exec_script {i : Instr} {s t : State} (h : exec i s = .next t) : t.script = s.script := by
  rcases exec_next h with ⟨_, rfl⟩ | ⟨_, _, rfl⟩ | ⟨_, _, _, rfl⟩
  · exact commandEffect_script i s
  · rfl
  · rfl

/-- No event of the outside changes what is still to come. -/
theorem outsideTurn_script {e : HostEvent} {s t : State} (h : outsideTurn e s = .next t) : t.script = s.script := by
  cases e with
  | read a =>
    cases h
    rcases hostRead_cases a s with ⟨_, e⟩ | ⟨_, _, _, e⟩ | ⟨_, _, e⟩ <;> rw [e] <;> rfl
  | write a v =>
    cases h
    rcases hostWrite_cases a v s with e | ⟨e, _⟩ | ⟨_, e⟩ | ⟨_, _, e⟩ | ⟨_, e⟩ | ⟨_, _, e⟩ | ⟨_, _, e⟩ |
      ⟨_, _, b, i, _, e⟩ <;> rw [e] <;> first | rfl | exact State.setBuf_script _ _ _
  | resetInput => cases h; rfl
  | wait =>
    rcases engineTurn_next h with ⟨_, rfl⟩ | ⟨_, _, rfl⟩ | ⟨_, i, _, h⟩
    · rfl
    · rfl
    · exact exec_script h

theorem transact_nil (s : State) : transact [] s = .ok { s with script := [] } := rfl

/-- A list of events is its first event, then the rest. -/
theorem transact_cons {e : HostEvent} {es : List HostEvent} {s t : State}
    (h : outsideTurn e { s with script := es } = .next t) : transact (e :: es) s = transact es t := by
  have hs : t.script = es := outsideTurn_script h
  have ht : { t with script := es } = t := by rw [← hs]
  simp only [transact, List.length_cons, Host.Core.run, core, step, h, ht]

/-- A reset by the driver, from any state: the reset state, nothing to come. -/
theorem resetUnlessKnown_false (s : State) : resetUnlessKnown false s =
    .ok { State.reset with lastRead := s.lastRead, draws := s.draws } := by
  have hl : locate (Location.register .ctrl).address = .register .ctrl := by decide
  have h : outsideTurn (.write (Location.register .ctrl).address 1) { s with script := [] } =
      .next (State.resetMachine { s with script := [] }) := by
    simp only [outsideTurn, hostWrite, hl, if_true, writeLocation, writeRegister, ite_self]
    rfl
  rw [resetUnlessKnown, if_neg Bool.false_ne_true, transact_cons h]
  rfl

/-- The boot of a driver that does not know the state, from any state: the reset state but for what the host has read, and
the KMAX of the block, asked for or not. -/
theorem boot_unknown (asks : Bool) (s : State) : ∃ v, boot false asks s =
    .ok ({ State.reset with lastRead := v, draws := s.draws }, Config.KMAX) := by
  simp only [boot, resetUnlessKnown_false]
  cases asks <;> exact ⟨_, rfl⟩

end Sys2Proof.Machine
end

