-- ==== Sys2Proof/Laws/Port.lean ====
section
/-! SUPPORT. The address map: what the address of a region and an index names (R61, R63, R70). -/

namespace Sys2Proof.Machine

theorem addressOf_region {region i : Nat} (hr : region < 16) (hi : i < 0x1000000) :
    ((addressOf region i).extractLsb' 24 4).toNat = region := by
  rw [addressOf, BitVec.extractLsb'_toNat, BitVec.toNat_ofNat, Nat.shiftRight_eq_div_pow]
  omega

theorem addressOf_index {region i : Nat} (hi : i < 0x1000000) :
    ((addressOf region i).extractLsb' 0 24).toNat = i := by
  rw [addressOf, BitVec.extractLsb'_toNat, BitVec.toNat_ofNat, Nat.shiftRight_eq_div_pow]
  omega

/-- What `locate` does with a region and an index. -/
def locateParts (region i : Nat) : Location :=
  match region with
  | 0 =>
    match Register.ofIndex i with
    | some r => .register r
    | none => .unmapped
  | 1 => if i < Config.NCAP then .buffer .b0 i else .unmapped
  | 2 => if i < Config.NCAP then .buffer .b1 i else .unmapped
  | 3 => if i < Config.NCAP then .rev i else .unmapped
  | 4 => if i < Config.DCAP then .dig i else .unmapped
  | _ => .unmapped

theorem locate_eq (a : Address) :
    locate a = locateParts (a.extractLsb' 24 4).toNat (a.extractLsb' 0 24).toNat := rfl

theorem locate_addressOf {region i : Nat} (hr : region < 16) (hi : i < 0x1000000) :
    locate (addressOf region i) = locateParts region i := by
  rw [locate_eq, addressOf_region hr hi, addressOf_index hi]

theorem ofIndex_none {i : Nat} (h : 9 < i) : Register.ofIndex i = none := by
  rw [Register.ofIndex.eq_def]
  split <;> first | rfl | omega

/-- An index that is not mapped in its region names nothing. -/
theorem locateParts_unmapped {region i : Nat} (h : ¬ mappedIndex region i) : locateParts region i = .unmapped := by
  unfold mappedIndex at h
  rw [locateParts.eq_def]
  split
  · rw [ofIndex_none (by omega)]
  · exact if_neg (by omega)
  · exact if_neg (by omega)
  · exact if_neg (by omega)
  · exact if_neg (by omega)
  · rfl

theorem NCAP_eq : Config.NCAP = 8388608 := by decide

theorem DCAP_eq : Config.DCAP = 8388617 := by decide

/-- The buffer index an address names is within the capacity. -/
theorem locate_buffer_lt {a : Address} {b : Buffer} {i : Nat} (h : locate a = .buffer b i) : i < Config.NCAP := by
  rw [locate_eq, locateParts.eq_def] at h
  split at h
  · split at h <;> cases h
  all_goals first
    | (split at h <;> first
        | (cases h; assumption)
        | cases h)
    | cases h

end Sys2Proof.Machine
end

