-- ==== Sys2Proof/Laws/Transform.lean ====
section
/-! SUPPORT. The steps of the transform: where each writes, that each keeps the canonical form and the field elements, and
what each computes in `ZMod P`. -/

namespace Sys2Proof.Machine

/-- A buffer element in `ZMod P`. -/
def val (m : Memory 32) (i : Nat) : ZMod Config.P :=
  (elem m i : Nat)

theorem val_congr {m m' : Memory 32} {i j : Nat} (h : m.get i = m'.get j) : val m i = val m' j := by
  rw [val, val, elem, elem, h]

/-! ### Step 1, the permutation (R152) -/

theorem get_swapElems (m : Memory 32) (i r p : Nat) :
    (swapElems m i r).get p = if p = r then m.get i else if p = i then m.get r else m.get p := by
  rw [swapElems, Memory.get_set]
  split
  · rfl
  · rw [Memory.get_set]

/-- With the bit reversals in the table, element `rev_k(i)` goes to index i, and nothing above the range moves. -/
theorem get_permute {k : Nat} {rev : Memory Config.KMAX} (m : Memory 32)
    (h : ∀ i < 2 ^ k, (rev.get i).toNat = revBits k i) (p : Nat) :
    (permute (2 ^ k) rev m).get p = if p < 2 ^ k then m.get (revBits k p) else m.get p := by
  have key : (p < 2 ^ k → (permute (2 ^ k) rev m).get p =
      if p < 2 ^ k ∨ revBits k p < 2 ^ k then m.get (revBits k p) else m.get p) ∧
      (2 ^ k ≤ p → (permute (2 ^ k) rev m).get p = m.get p) := by
    have main : ∀ p, (p < 2 ^ k → (permute (2 ^ k) rev m).get p =
        if p < 2 ^ k ∨ revBits k p < 2 ^ k then m.get (revBits k p) else m.get p) ∧
        (2 ^ k ≤ p → (permute (2 ^ k) rev m).get p = m.get p) := by
      refine forUpTo_induct (n := 2 ^ k) (fun t (q : Memory 32) => ∀ p,
        (p < 2 ^ k → q.get p = if p < t ∨ revBits k p < t then m.get (revBits k p) else m.get p) ∧
        (2 ^ k ≤ p → q.get p = m.get p)) (fun p => ⟨fun _ => by simp, fun _ => rfl⟩) fun t q ht ih p => ?_
      simp only [h t ht]
      have hrt : revBits k t < 2 ^ k := revBits_lt k t
      have hrr : revBits k (revBits k t) = t := revBits_revBits ht
      have inj : ∀ p, p < 2 ^ k → revBits k p = t → p = revBits k t := fun p hp e => by
        rw [← e, revBits_revBits hp]
      split
      · rename_i hlt
        rw [get_swapElems]
        refine ⟨fun hp => ?_, fun hp => ?_⟩
        · split
          · subst p
            rw [(ih t).1 ht, if_neg (by omega), if_pos (by omega), hrr]
          · split
            · subst p
              rw [(ih _).1 hrt, if_neg (by omega), if_pos (by omega)]
            · rename_i hpr hpt
              rw [(ih p).1 hp]
              have : revBits k p ≠ t := fun e => hpr (inj p hp e)
              by_cases hc : p < t ∨ revBits k p < t
              · rw [if_pos hc, if_pos (by omega)]
              · rw [if_neg hc, if_neg (by omega)]
        · rw [if_neg (by omega), if_neg (by omega), (ih p).2 hp]
      · rename_i hge
        refine ⟨fun hp => ?_, (ih p).2⟩
        rw [(ih p).1 hp]
        by_cases hc : p < t ∨ revBits k p < t
        · rw [if_pos hc, if_pos (by omega)]
        · rw [if_neg hc]
          split
          · rename_i hc'
            have hpt : p = t ∨ revBits k p = t := by omega
            have : revBits k p = p := by
              rcases hpt with e | e
              · subst e; omega
              · have := inj p hp e; omega
            rw [this]
          · rfl
    exact main p
  split
  · rw [key.1 ‹_›, if_pos (.inl ‹_›)]
  · exact key.2 (Nat.le_of_not_lt ‹_›)

theorem wf_swapElems {cap : Nat} {m : Memory 32} (h : m.wf cap) {i r : Nat} (hi : i < cap) (hr : r < cap) :
    Memory.wf cap (swapElems m i r) :=
  Memory.wf_set (Memory.wf_set h _ hi) _ hr

theorem inField_swapElems {m : Memory 32} (h : m.inField) (i r : Nat) : Memory.inField (swapElems m i r) :=
  inField_set (inField_set h i (h r)) r (h i)

theorem wf_permute {n : Nat} (rev : Memory Config.KMAX) {m : Memory 32} (h : m.wf Config.NCAP)
    (hn : n ≤ Config.NCAP) : Memory.wf Config.NCAP (permute n rev m) := by
  refine forUpTo_keeps (fun q : Memory 32 => q.wf Config.NCAP) h fun i q hi hq => ?_
  split
  · exact wf_swapElems hq (Nat.lt_of_lt_of_le hi hn) (rev.get i).isLt
  · exact hq

theorem inField_permute (n : Nat) (rev : Memory Config.KMAX) {m : Memory 32} (h : m.inField) :
    Memory.inField (permute n rev m) := by
  refine forUpTo_keeps (fun q : Memory 32 => q.inField) h fun i q _ hq => ?_
  split
  · exact inField_swapElems hq _ _
  · exact hq

/-! ### The butterfly (R154) -/

theorem get_butterfly_other (m : Memory 32) {lo hi i : Nat} (w : Nat) (h1 : i ≠ lo) (h2 : i ≠ hi) :
    (butterfly lo hi w m).get i = m.get i := by
  rw [butterfly, setElem, setElem, Memory.get_set_other _ _ h2, Memory.get_set_other _ _ h1]

theorem elem_butterfly_lo {m : Memory 32} (h : m.inField) {lo hi : Nat} (w : Nat) (hne : lo ≠ hi) :
    elem (butterfly lo hi w m) lo = addMod (elem m lo) (mulMod (elem m hi) w) := by
  rw [butterfly, elem_setElem_other _ _ hne, elem_setElem_same _ _ (addMod_lt (elem_lt h lo) (mulMod_lt _ _))]

theorem elem_butterfly_hi {m : Memory 32} (h : m.inField) (lo hi w : Nat) :
    elem (butterfly lo hi w m) hi = subMod (elem m lo) (mulMod (elem m hi) w) := by
  rw [butterfly, elem_setElem_same _ _ (subMod_lt (elem_lt h lo) (mulMod_lt _ _))]

theorem inField_butterfly {m : Memory 32} (h : m.inField) (lo hi w : Nat) :
    Memory.inField (butterfly lo hi w m) :=
  inField_setElem (inField_setElem h _ (addMod_lt (elem_lt h lo) (mulMod_lt _ _))) _ (subMod_lt (elem_lt h lo) (mulMod_lt _ _))

theorem wf_butterfly {cap : Nat} {m : Memory 32} (h : m.wf cap) {lo hi : Nat} (w : Nat) (hl : lo < cap)
    (hh : hi < cap) : Memory.wf cap (butterfly lo hi w m) :=
  Memory.wf_set (Memory.wf_set h _ hl) _ hh

/-! ### A block, a stage, the stages (R153): where they write and what they keep -/

theorem get_nttBlock_other (wlen len base : Nat) (m : Memory 32) {i : Nat} (h : i < base ∨ base + len ≤ i) :
    (nttBlock wlen len base m).get i = m.get i := by
  refine forUpTo_keeps (fun x : Memory 32 × Nat => x.1.get i = m.get i) rfl fun j x hj ih => ?_
  simp only
  rw [get_butterfly_other _ _ (by omega) (by omega), ih]

theorem wf_nttBlock {cap : Nat} (wlen len base : Nat) {m : Memory 32} (h : m.wf cap) (hb : base + len ≤ cap) :
    Memory.wf cap (nttBlock wlen len base m) :=
  forUpTo_keeps (fun x : Memory 32 × Nat => x.1.wf cap) h fun j x hj hx =>
    wf_butterfly hx _ (by omega) (by omega)

theorem inField_nttBlock (wlen len base : Nat) {m : Memory 32} (h : m.inField) :
    Memory.inField (nttBlock wlen len base m) :=
  forUpTo_keeps (fun x : Memory 32 × Nat => x.1.inField) h fun _ _ _ hx => inField_butterfly hx _ _ _

/-- A block of a stage ends within the active range. -/
theorem block_end_le {n len b : Nat} (h : b < n / len) : b * len + len ≤ n := by
  rw [← Nat.succ_mul]
  exact (Nat.mul_le_mul_right _ h).trans (Nat.div_mul_le_self _ _)

theorem get_nttStage_above (root len : Nat) (m : Memory 32) {n i : Nat} (h : n ≤ i) :
    (nttStage root n len m).get i = m.get i := by
  refine forUpTo_keeps (fun q : Memory 32 => q.get i = m.get i) rfl fun b q hb ih => ?_
  rw [get_nttBlock_other _ _ _ _ (.inr ((block_end_le hb).trans h)), ih]

theorem wf_nttStage {cap n : Nat} (root len : Nat) {m : Memory 32} (h : m.wf cap) (hn : n ≤ cap) :
    Memory.wf cap (nttStage root n len m) :=
  forUpTo_keeps (fun q : Memory 32 => q.wf cap) h fun _ _ hb hq => wf_nttBlock _ _ _ hq ((block_end_le hb).trans hn)

theorem inField_nttStage (root n len : Nat) {m : Memory 32} (h : m.inField) :
    Memory.inField (nttStage root n len m) :=
  forUpTo_keeps (fun q : Memory 32 => q.inField) h fun _ _ _ hq => inField_nttBlock _ _ _ hq

theorem get_nttStages_above (root : Nat) (m : Memory 32) {k i : Nat} (h : 2 ^ k ≤ i) :
    (nttStages root k m).get i = m.get i :=
  forUpTo_keeps (fun q : Memory 32 => q.get i = m.get i) rfl fun _ q _ ih => (get_nttStage_above _ _ q h).trans ih

theorem wf_nttStages {cap k : Nat} (root : Nat) {m : Memory 32} (h : m.wf cap) (hk : 2 ^ k ≤ cap) :
    Memory.wf cap (nttStages root k m) :=
  forUpTo_keeps (fun q : Memory 32 => q.wf cap) h fun _ _ _ hq => wf_nttStage _ _ hq hk

theorem inField_nttStages (root k : Nat) {m : Memory 32} (h : m.inField) : Memory.inField (nttStages root k m) :=
  forUpTo_keeps (fun q : Memory 32 => q.inField) h fun _ _ _ hq => inField_nttStage _ _ _ hq

/-! ### Step 3, the scaling (R155) -/

theorem get_scaleElems (n : Nat) (m : Memory 32) (i : Nat) :
    (scaleElems n m).get i =
      if i < n then BitVec.ofNat 32 (mulMod (elem m i) (powMod n (Config.P - 2))) else m.get i := by
  refine forUpTo_induct (n := n) (fun t (q : Memory 32) => q.get i =
    if i < t then BitVec.ofNat 32 (mulMod (elem m i) (powMod n (Config.P - 2))) else m.get i) (by simp)
    fun t q _ ih => ?_
  rw [setElem, Memory.get_set]
  rcases Nat.lt_trichotomy i t with h | rfl | h
  · rw [if_neg (Nat.ne_of_lt h), ih, if_pos h, if_pos (Nat.lt_succ_of_lt h)]
  · rw [if_pos rfl, if_pos (Nat.lt_succ_self _), elem, ih, if_neg (Nat.lt_irrefl _), elem]
  · rw [if_neg (Nat.ne_of_gt h), ih, if_neg (by omega), if_neg (by omega)]

theorem elem_scaleElems {n : Nat} (m : Memory 32) {i : Nat} (h : i < n) :
    elem (scaleElems n m) i = mulMod (elem m i) (powMod n (Config.P - 2)) := by
  rw [elem, get_scaleElems, if_pos h, toNat_ofNat_of_lt_P (mulMod_lt _ _)]

theorem wf_scaleElems {cap n : Nat} {m : Memory 32} (h : m.wf cap) (hn : n ≤ cap) :
    Memory.wf cap (scaleElems n m) :=
  forUpTo_keeps (fun q : Memory 32 => q.wf cap) h fun _ _ hi hq => Memory.wf_set hq _ (Nat.lt_of_lt_of_le hi hn)

theorem inField_scaleElems (n : Nat) {m : Memory 32} (h : m.inField) : Memory.inField (scaleElems n m) :=
  forUpTo_keeps (fun q : Memory 32 => q.inField) h fun _ _ _ hq => inField_setElem hq _ (mulMod_lt _ _)

/-! ### The transforms: where they write and what they keep -/

theorem wf_nttForward {k : Nat} (rev : Memory Config.KMAX) {m : Memory 32} (h : m.wf Config.NCAP)
    (hk : k ≤ Config.KMAX) : Memory.wf Config.NCAP (nttForward k rev m) :=
  wf_nttStages _ (wf_permute rev h (NCAP_of_le hk)) (NCAP_of_le hk)

theorem wf_nttInverse {k : Nat} (rev : Memory Config.KMAX) {m : Memory 32} (h : m.wf Config.NCAP)
    (hk : k ≤ Config.KMAX) : Memory.wf Config.NCAP (nttInverse k rev m) :=
  wf_scaleElems (wf_nttStages _ (wf_permute rev h (NCAP_of_le hk)) (NCAP_of_le hk)) (NCAP_of_le hk)

theorem inField_nttForward (k : Nat) (rev : Memory Config.KMAX) {m : Memory 32} (h : m.inField) :
    Memory.inField (nttForward k rev m) :=
  inField_nttStages _ _ (inField_permute _ rev h)

theorem inField_nttInverse (k : Nat) (rev : Memory Config.KMAX) {m : Memory 32} (h : m.inField) :
    Memory.inField (nttInverse k rev m) :=
  inField_scaleElems _ (inField_nttStages _ _ (inField_permute _ rev h))

theorem get_nttForward_above {k : Nat} {rev : Memory Config.KMAX} (m : Memory 32)
    (h : ∀ i < 2 ^ k, (rev.get i).toNat = revBits k i) {i : Nat} (hi : 2 ^ k ≤ i) :
    (nttForward k rev m).get i = m.get i := by
  rw [nttForward, get_nttStages_above _ _ hi, get_permute m h, if_neg (Nat.not_lt.2 hi)]

theorem get_nttInverse_above {k : Nat} {rev : Memory Config.KMAX} (m : Memory 32)
    (h : ∀ i < 2 ^ k, (rev.get i).toNat = revBits k i) {i : Nat} (hi : 2 ^ k ≤ i) :
    (nttInverse k rev m).get i = m.get i := by
  rw [nttInverse, get_scaleElems, if_neg (Nat.not_lt.2 hi), get_nttStages_above _ _ hi, get_permute m h,
    if_neg (Nat.not_lt.2 hi)]

/-! ### What a block and a stage compute -/

/-- A block of length `2 * h` puts sums in its first half and differences in its second, element `j` of the second half
first multiplied by the twiddle `wlen^j` (R154). -/
theorem val_nttBlock (wlen base : Nat) {h : Nat} {m : Memory 32} (hm : m.inField) {j : Nat} (hj : j < h) :
    val (nttBlock wlen (2 * h) base m) (base + j) =
      val m (base + j) + val m (base + j + h) * (wlen : ZMod Config.P) ^ j ∧
    val (nttBlock wlen (2 * h) base m) (base + j + h) =
      val m (base + j) - val m (base + j + h) * (wlen : ZMod Config.P) ^ j := by
  have hh : 2 * h / 2 = h := by omega
  let body := fun j (x : Memory 32 × Nat) =>
    (butterfly (base + j) (base + j + 2 * h / 2) x.2 x.1, mulMod x.2 wlen)
  have inv : ∀ t ≤ h, (forUpTo t body (m, 1)).1.inField ∧
      (((forUpTo t body (m, 1)).2 : Nat) : ZMod Config.P) = (wlen : ZMod Config.P) ^ t ∧
      (∀ j < t,
        val (forUpTo t body (m, 1)).1 (base + j) =
          val m (base + j) + val m (base + j + h) * (wlen : ZMod Config.P) ^ j ∧
        val (forUpTo t body (m, 1)).1 (base + j + h) =
          val m (base + j) - val m (base + j + h) * (wlen : ZMod Config.P) ^ j) ∧
      (∀ j, t ≤ j → j < h →
        val (forUpTo t body (m, 1)).1 (base + j) = val m (base + j) ∧
        val (forUpTo t body (m, 1)).1 (base + j + h) = val m (base + j + h)) := by
    intro t
    induction t with
    | zero => exact fun _ => ⟨hm, by simp, fun _ h => absurd h (Nat.not_lt_zero _), fun _ _ _ => ⟨rfl, rfl⟩⟩
    | succ t ih =>
      intro ht
      obtain ⟨h1, h2, h3, h4⟩ := ih (by omega)
      rw [forUpTo_succ]
      generalize forUpTo t body (m, 1) = x at h1 h2 h3 h4 ⊢
      simp only [body, hh]
      have other : ∀ i, i ≠ base + t → i ≠ base + t + h →
          val (butterfly (base + t) (base + t + h) x.2 x.1) i = val x.1 i := fun i hi hi' =>
        val_congr (get_butterfly_other _ _ hi hi')
      refine ⟨inField_butterfly h1 _ _ _, by rw [cast_mulMod, h2, pow_succ], fun j hj => ?_, fun j hj hj' => ?_⟩
      · rcases Nat.lt_succ_iff_lt_or_eq.1 hj with hj | rfl
        · rw [other _ (by omega) (by omega), other _ (by omega) (by omega)]
          exact h3 j hj
        · have e1 : (elem x.1 (base + j) : ZMod Config.P) = val m (base + j) := (h4 j le_rfl ht).1
          have e2 : (elem x.1 (base + j + h) : ZMod Config.P) = val m (base + j + h) := (h4 j le_rfl ht).2
          constructor
          · rw [val, elem_butterfly_lo h1 _ (by omega), cast_addMod (elem_lt h1 _) (mulMod_lt _ _), cast_mulMod, h2,
              e1, e2]
          · rw [val, elem_butterfly_hi h1, cast_subMod (elem_lt h1 _) (mulMod_lt _ _), cast_mulMod, h2, e1, e2]
      · rw [other _ (by omega) (by omega), other _ (by omega) (by omega)]
        exact h4 j (by omega) hj'
  have := (inv h le_rfl).2.2.1 j hj
  rwa [show forUpTo h body (m, 1) = forUpTo (2 * h / 2) body (m, 1) by rw [hh]] at this

/-- A stage does to every block what its block does (R153). -/
theorem val_nttStage (root : Nat) {n h : Nat} {m : Memory 32} (hm : m.inField) {b j : Nat} (hb : b < n / (2 * h))
    (hj : j < h) :
    val (nttStage root n (2 * h) m) (b * (2 * h) + j) = val m (b * (2 * h) + j) +
      val m (b * (2 * h) + j + h) * ((powMod root ((Config.P - 1) / (2 * h)) : Nat) : ZMod Config.P) ^ j ∧
    val (nttStage root n (2 * h) m) (b * (2 * h) + j + h) = val m (b * (2 * h) + j) -
      val m (b * (2 * h) + j + h) * ((powMod root ((Config.P - 1) / (2 * h)) : Nat) : ZMod Config.P) ^ j := by
  have far : ∀ b b' : Nat, b ≠ b' → ∀ j < h,
      (b * (2 * h) + j < b' * (2 * h) ∨ b' * (2 * h) + 2 * h ≤ b * (2 * h) + j) ∧
      (b * (2 * h) + j + h < b' * (2 * h) ∨ b' * (2 * h) + 2 * h ≤ b * (2 * h) + j + h) := by
    intro b b' hne j hj
    rcases Nat.lt_or_gt_of_ne hne with hlt | hlt
    · have := Nat.mul_le_mul_right (2 * h) (Nat.succ_le_of_lt hlt)
      rw [Nat.succ_mul] at this
      omega
    · have := Nat.mul_le_mul_right (2 * h) (Nat.succ_le_of_lt hlt)
      rw [Nat.succ_mul] at this
      omega
  have inv := forUpTo_induct (n := n / (2 * h)) (x := m)
    (body := fun b m => nttBlock (powMod root ((Config.P - 1) / (2 * h))) (2 * h) (b * (2 * h)) m)
    (fun t (q : Memory 32) => q.inField ∧
      (∀ b < t, ∀ j < h,
        val q (b * (2 * h) + j) = val m (b * (2 * h) + j) +
          val m (b * (2 * h) + j + h) * ((powMod root ((Config.P - 1) / (2 * h)) : Nat) : ZMod Config.P) ^ j ∧
        val q (b * (2 * h) + j + h) = val m (b * (2 * h) + j) -
          val m (b * (2 * h) + j + h) * ((powMod root ((Config.P - 1) / (2 * h)) : Nat) : ZMod Config.P) ^ j) ∧
      (∀ b, t ≤ b → ∀ j < h, val q (b * (2 * h) + j) = val m (b * (2 * h) + j) ∧
        val q (b * (2 * h) + j + h) = val m (b * (2 * h) + j + h)))
    ⟨hm, fun _ h => absurd h (Nat.not_lt_zero _), fun _ _ _ _ => ⟨rfl, rfl⟩⟩ fun t q _ ih => ?_
  · exact inv.2.1 b hb j hj
  · obtain ⟨h1, h2, h3⟩ := ih
    have other : ∀ b, b ≠ t → ∀ j < h,
        val (nttBlock (powMod root ((Config.P - 1) / (2 * h))) (2 * h) (t * (2 * h)) q) (b * (2 * h) + j) =
          val q (b * (2 * h) + j) ∧
        val (nttBlock (powMod root ((Config.P - 1) / (2 * h))) (2 * h) (t * (2 * h)) q) (b * (2 * h) + j + h) =
          val q (b * (2 * h) + j + h) := fun b hbt j hj =>
      ⟨val_congr (get_nttBlock_other _ _ _ _ (far b t hbt j hj).1),
        val_congr (get_nttBlock_other _ _ _ _ (far b t hbt j hj).2)⟩
    refine ⟨inField_nttBlock _ _ _ h1, fun b hb j hj => ?_, fun b hb j hj => ?_⟩
    · rcases Nat.lt_succ_iff_lt_or_eq.1 hb with hb | rfl
      · rw [(other b (Nat.ne_of_lt hb) j hj).1, (other b (Nat.ne_of_lt hb) j hj).2]
        exact h2 b hb j hj
      · have := val_nttBlock (powMod root ((Config.P - 1) / (2 * h))) (b * (2 * h)) h1 hj
        rwa [(h3 b le_rfl j hj).1, (h3 b le_rfl j hj).2] at this
    · rw [(other b (by omega) j hj).1, (other b (by omega) j hj).2]
      exact h3 b (by omega) j hj

end Sys2Proof.Machine
end

