-- ==== Sys2Proof/Laws/Frames.lean ====
section
/-! SUPPORT. The frames of the named updates in the terms of Safety.lean, what a valid table gives, and the packaged
case analysis of a step: what every move keeps, every step keeps. -/

namespace Sys2Proof.Machine

theorem onlyRecords_raise (e : ErrorCode) (s : State) : OnlyRecords e s (s.raise e) := by
  refine ⟨rfl, ?_⟩
  rw [State.raise_status]
  obtain ⟨_, _, err, _, _, _⟩ := s.status
  cases err <;> rfl

theorem onlyFails_failCommand (e : ErrorCode) (s : State) : OnlyFails e s (s.failCommand e) := by
  refine ⟨rfl, ?_⟩
  rw [State.failCommand_status]
  obtain ⟨_, _, err, _, _, _⟩ := s.status
  cases err <;> rfl

theorem onlyRes_scalar (f : Nat → Nat → Nat) (s : State) : OnlyRes s (s.scalar f).finish :=
  ⟨⟨rfl, rfl, rfl, rfl⟩, ⟨rfl, rfl, rfl, rfl⟩, ⟨rfl, rfl⟩, ⟨rfl, rfl, rfl⟩, rfl, rfl, ⟨rfl, rfl, rfl⟩⟩

theorem onlyActiveRange_setBuf (d : Buffer) {s : State} {m : Memory 32}
    (h : ∀ i, s.n ≤ i → m.get i = (s.buf d).get i) : OnlyActiveRange d s (s.setBuf d m).finish where
  finished := ⟨by simp, by simp, by simp, by simp⟩
  operands := ⟨by simp, by simp, by simp, by simp⟩
  result := ⟨by simp, by simp⟩
  table := ⟨by simp, by simp, by simp⟩
  res := by simp
  other := by simp
  above := by simpa using h
  outside := ⟨by simp, by simp, by simp⟩

theorem onlyStores_setBuf (b : Buffer) (i : Nat) (v : Word) (s : State) :
    OnlyStores b i v s (s.setBuf b ((s.buf b).set i v)) :=
  ⟨by simp, by simp, fun j hj => by rw [State.setBuf_buf_same, Memory.get_set_other _ _ hj]⟩

/-- A table that is valid for k holds the bit reversals for k. -/
theorem State.TableRecord.entry {s : State} (ht : s.TableRecord) (hv : s.tableValid = true) {i : Nat}
    (hi : i < 2 ^ s.k) : (s.rev.get i).toNat = revBits s.k i := by
  rw [State.tableValid, Bool.and_eq_true, beq_iff_eq] at hv
  have h := ht.built hv.1
  rw [hv.2] at h
  exact h i hi

theorem State.FieldElements.buf {s : State} (h : s.FieldElements) (d : Buffer) : (s.buf d).inField := by
  cases d
  · exact h.buf0
  · exact h.buf1

/-- What every command keeps, and every move of the host and of the reset input keeps, every step keeps. -/
theorem step_keeps {Q : State → Prop}
    (command : ∀ i s t, Q s → exec i s = .next t → Q t)
    (take : ∀ (s : State) r, Q s → Q { s with script := r })
    (raise : ∀ (s : State) e, Q s → Q (s.raise e))
    (fail : ∀ (s : State) e, Q s → Q (s.failCommand e))
    (answer : ∀ (s : State) v, Q s → Q (s.answer v))
    (draw : ∀ s : State, Q s → Q s.answerDraw)
    (reset : ∀ s : State, Q s.resetMachine)
    (accept : ∀ (s : State) w, s.status.busy = false → Q s → Q (s.acceptCommand w))
    (cfg : ∀ (s : State) v, Q s → Q { s with logn := v })
    (opx : ∀ (s : State) (v : Word), Q s → v.toNat < Config.P → Q { s with opx := v })
    (opy : ∀ (s : State) (v : Word), Q s → v.toNat < Config.P → Q { s with opy := v })
    (store : ∀ (s : State) b i (v : Word), Q s → i < Config.NCAP → v.toNat < Config.P →
      Q (s.setBuf b ((s.buf b).set i v))) {s t : State} (hs : Q s) (h : step s = .next t) : Q t := by
  have turn : ∀ {s t : State}, Q s → engineTurn s = .next t → Q t := by
    intro s t hs h
    rcases engineTurn_next h with ⟨_, rfl⟩ | ⟨_, _, rfl⟩ | ⟨_, i, _, h⟩
    · exact hs
    · exact fail _ _ hs
    · exact command _ _ _ hs h
  rcases step_next h with ⟨_, h⟩ | ⟨r, _, h⟩ | ⟨a, r, _, rfl⟩ | ⟨a, v, r, _, rfl⟩ | ⟨r, _, rfl⟩
  · exact turn hs h
  · exact turn (take _ _ hs) h
  · have hs := take s r hs
    generalize { s with script := r } = u at *
    rcases hostRead_cases a u with ⟨_, e⟩ | ⟨_, _, _, e⟩ | ⟨_, _, e⟩ <;> rw [e]
    · exact answer _ _ (raise _ _ hs)
    · exact draw _ hs
    · exact answer _ _ hs
  · have hs := take s r hs
    generalize { s with script := r } = u at *
    rcases hostWrite_cases a v u with e | ⟨e, _⟩ | ⟨_, e⟩ | ⟨hb, _, e⟩ | ⟨_, e⟩ | ⟨_, _, e⟩ | ⟨_, _, e⟩ |
      ⟨_, _, b, i, hl, e⟩ <;> rw [e]
    · exact hs
    · exact reset _
    · exact raise _ _ hs
    · exact accept _ _ hb hs
    · exact cfg _ _ hs
    · exact opx _ _ hs ‹_›
    · exact opy _ _ hs ‹_›
    · exact store _ _ _ _ hs (locate_buffer_lt hl) ‹_›
  · exact reset _

end Sys2Proof.Machine
end

