-- ==== Sys2Proof/Laws/Roots.lean ====
section
/-! SUPPORT. The roots of unity of the stages (R153, R161) and what the stages compute: the evaluation of the buffer,
taken in bit-reversed order, at the powers of a root. -/

namespace Sys2Proof.Machine

/-- The twiddle generator of the stage of length `2^t` in `ZMod P`. -/
def stageRoot (root t : Nat) : ZMod Config.P :=
  (root : ZMod Config.P) ^ ((Config.P - 1) / 2 ^ t)

theorem cast_twiddle (root t : Nat) :
    ((powMod root ((Config.P - 1) / 2 ^ t) : Nat) : ZMod Config.P) = stageRoot root t :=
  cast_powMod _ _

theorem two_pow_dvd {t : Nat} (ht : t ≤ Config.KMAX) : 2 ^ t ∣ Config.P - 1 :=
  (pow_dvd_pow 2 ht).trans (by decide)

/-- The twiddle generator of a stage squared is that of the stage before (R161). -/
theorem stageRoot_sq (root : Nat) {t : Nat} (ht : t + 1 ≤ Config.KMAX) :
    stageRoot root (t + 1) ^ 2 = stageRoot root t := by
  obtain ⟨q, hq⟩ := two_pow_dvd ht
  rw [stageRoot, stageRoot, ← pow_mul, hq, Nat.mul_div_cancel_left _ (Nat.pow_pos Nat.two_pos), Nat.pow_succ,
    Nat.mul_assoc, Nat.mul_div_cancel_left _ (Nat.pow_pos Nat.two_pos), Nat.mul_comm]

theorem stageRoot_pow (root : Nat) {k t : Nat} (hk : k ≤ Config.KMAX) (ht : t ≤ k) :
    stageRoot root k ^ 2 ^ t = stageRoot root (k - t) := by
  induction t with
  | zero => simp
  | succ t ih =>
    rw [Nat.pow_succ, pow_mul, ih (by omega), show k - t = k - (t + 1) + 1 by omega, stageRoot_sq]
    omega

/-- A root whose power `(P-1)/2` is `P - 1`: the generator of a stage to the power of half its length is -1. -/
theorem stageRoot_half {root : Nat} (hr : powMod root ((Config.P - 1) / 2) = Config.P - 1) {t : Nat}
    (ht : t + 1 ≤ Config.KMAX) : stageRoot root (t + 1) ^ 2 ^ t = -1 := by
  rw [stageRoot_pow root ht (Nat.le_succ t), show t + 1 - t = 1 by omega, stageRoot, pow_one, ← cast_powMod, hr,
    Nat.cast_sub (by decide), ZMod.natCast_self, Nat.cast_one, zero_sub]

theorem half_G : powMod Config.G ((Config.P - 1) / 2) = Config.P - 1 := by decide

theorem half_GINV : powMod Config.GINV ((Config.P - 1) / 2) = Config.P - 1 := by decide

/-- The generator of the stage of length `2^t` is a `2^t`-th root of unity. -/
theorem stageRoot_self {root : Nat} (hr : powMod root ((Config.P - 1) / 2) = Config.P - 1) {t : Nat}
    (ht : t ≤ Config.KMAX) : stageRoot root t ^ 2 ^ t = 1 := by
  cases t with
  | zero =>
    have h := stageRoot_half hr (t := 0) (by decide)
    have h2 := stageRoot_sq root (t := 0) (by decide)
    rw [pow_zero, pow_one] at h
    rw [pow_zero, pow_one, ← h2, h, neg_one_sq]
  | succ t => rw [Nat.pow_succ, pow_mul, stageRoot_half hr ht, neg_one_sq]

/-! Evaluation at the powers of a root, split into even and odd positions, over any commutative ring. -/

/-- The evaluation of the first `n` terms of `y` at `w^j`. -/
def evalAt {R : Type} [CommRing R] (n : Nat) (y : Nat → R) (w : R) (j : Nat) : R :=
  ∑ i ∈ Finset.range n, y i * w ^ (i * j)

theorem sum_even_odd {R : Type} [CommRing R] (n : Nat) (f : Nat → R) : ∑ i ∈ Finset.range (2 * n), f i =
    ∑ i ∈ Finset.range n, f (2 * i) + ∑ i ∈ Finset.range n, f (2 * i + 1) := by
  induction n with
  | zero => simp
  | succ n ih =>
    rw [show 2 * (n + 1) = 2 * n + 1 + 1 by ring, Finset.sum_range_succ, Finset.sum_range_succ, ih,
      Finset.sum_range_succ, Finset.sum_range_succ]
    ring

theorem evalAt_split {R : Type} [CommRing R] (n : Nat) (y : Nat → R) (w : R) (j : Nat) :
    evalAt (2 * n) y w j =
      evalAt n (fun i => y (2 * i)) (w ^ 2) j + evalAt n (fun i => y (2 * i + 1)) (w ^ 2) j * w ^ j := by
  rw [evalAt, sum_even_odd, evalAt, evalAt, Finset.sum_mul]
  congr 1
  · refine Finset.sum_congr rfl fun i _ => ?_
    rw [← pow_mul, Nat.mul_assoc]
  · refine Finset.sum_congr rfl fun i _ => ?_
    rw [← pow_mul, mul_assoc, ← pow_add]
    congr 2
    ring

/-- Evaluation is periodic in the exponent when `w^n = 1`. -/
theorem evalAt_period {R : Type} [CommRing R] {n : Nat} (y : Nat → R) {w : R} (hw : w ^ n = 1) (j : Nat) :
    evalAt n y w (j + n) = evalAt n y w j := by
  refine Finset.sum_congr rfl fun i _ => ?_
  rw [Nat.mul_add, pow_add, Nat.mul_comm i n, pow_mul w n i, hw, one_pow, mul_one]

theorem evalAt_congr {R : Type} [CommRing R] {n : Nat} {y y' : Nat → R} (w : R) (j : Nat) (h : ∀ i < n, y i = y' i) :
    evalAt n y w j = evalAt n y' w j :=
  Finset.sum_congr rfl fun i hi => by rw [h i (Finset.mem_range.1 hi)]

/-- What a stage computes from evaluations of half its length (the step of the induction of R159). -/
theorem val_stage_eval {root k t : Nat} {q : Memory 32} (hq : q.inField)
    (hr : powMod root ((Config.P - 1) / 2) = Config.P - 1) (hk : k ≤ Config.KMAX) (ht : t + 1 ≤ k)
    {y : Nat → ZMod Config.P}
    (hv : ∀ b < 2 ^ (k - t), ∀ j < 2 ^ t,
      val q (b * 2 ^ t + j) = evalAt (2 ^ t) (fun i => y (b * 2 ^ t + revBits t i)) (stageRoot root t) j) :
    ∀ b < 2 ^ (k - (t + 1)), ∀ j < 2 ^ (t + 1),
      val (nttStage root (2 ^ k) (2 ^ (t + 1)) q) (b * 2 ^ (t + 1) + j) =
        evalAt (2 ^ (t + 1)) (fun i => y (b * 2 ^ (t + 1) + revBits (t + 1) i)) (stageRoot root (t + 1)) j := by
  intro b hb j hj
  have htK : t + 1 ≤ Config.KMAX := ht.trans hk
  have hlen : (2 : Nat) ^ (t + 1) = 2 * 2 ^ t := by rw [Nat.pow_succ, Nat.mul_comm]
  have hdiv : (2 : Nat) ^ k / 2 ^ (t + 1) = 2 ^ (k - (t + 1)) := Nat.pow_div ht Nat.two_pos
  have hbb : b < 2 ^ k / (2 * 2 ^ t) := by rwa [← hlen, hdiv]
  have hb2 : 2 * b + 1 < 2 ^ (k - t) := by
    rw [show k - t = k - (t + 1) + 1 by omega, Nat.pow_succ]
    omega
  have stage := fun {j : Nat} (hj : j < 2 ^ t) => val_nttStage root (n := 2 ^ k) hq hbb hj
  have lo : ∀ j < 2 ^ t, val q (b * (2 * 2 ^ t) + j) = evalAt (2 ^ t)
      (fun i => y (b * (2 * 2 ^ t) + revBits (t + 1) (2 * i))) (stageRoot root t) j := fun j hj => by
    rw [show b * (2 * 2 ^ t) = 2 * b * 2 ^ t by ring, hv (2 * b) (by omega) j hj]
    exact evalAt_congr _ _ fun i _ => by rw [revBits_double]
  have hi : ∀ j < 2 ^ t, val q (b * (2 * 2 ^ t) + j + 2 ^ t) = evalAt (2 ^ t)
      (fun i => y (b * (2 * 2 ^ t) + revBits (t + 1) (2 * i + 1))) (stageRoot root t) j := fun j hj => by
    rw [show b * (2 * 2 ^ t) + j + 2 ^ t = (2 * b + 1) * 2 ^ t + j by ring, hv (2 * b + 1) hb2 j hj]
    refine evalAt_congr _ _ fun i _ => ?_
    rw [revBits_double_succ, show (2 * b + 1) * 2 ^ t + revBits t i = b * (2 * 2 ^ t) + (revBits t i + 2 ^ t) by ring]
  have twiddle : ((powMod root ((Config.P - 1) / (2 * 2 ^ t)) : Nat) : ZMod Config.P) = stageRoot root (t + 1) := by
    rw [← hlen, cast_twiddle]
  rw [hlen, evalAt_split, stageRoot_sq root htK]
  rcases Nat.lt_or_ge j (2 ^ t) with hj' | hj'
  · rw [(stage hj').1, twiddle, lo j hj', hi j hj']
  · obtain ⟨j, rfl⟩ := Nat.exists_eq_add_of_le' hj'
    have hj'' : j < 2 ^ t := by omega
    have hroot := stageRoot_self hr (t := t) (by omega)
    rw [← Nat.add_assoc, (stage hj'').2, twiddle, lo j hj'', hi j hj'', evalAt_period _ hroot,
      evalAt_period _ hroot, pow_add, stageRoot_half hr htK, mul_neg_one, mul_neg, sub_eq_add_neg]

/-- What the stages compute (the induction of R159): after the stage of length `2^t`, each block of that length holds the
evaluation of its elements, taken in bit-reversed order, at the powers of the stage's root. -/
theorem val_nttStages {root k : Nat} {m : Memory 32} (hm : m.inField)
    (hr : powMod root ((Config.P - 1) / 2) = Config.P - 1) (hk : k ≤ Config.KMAX) {j : Nat} (hj : j < 2 ^ k) :
    val (nttStages root k m) j = evalAt (2 ^ k) (fun i => val m (revBits k i)) (stageRoot root k) j := by
  have inv : ∀ t ≤ k,
      (forUpTo t (fun t m => nttStage root (2 ^ k) (2 ^ (t + 1)) m) m).inField ∧
      ∀ b < 2 ^ (k - t), ∀ j < 2 ^ t,
        val (forUpTo t (fun t m => nttStage root (2 ^ k) (2 ^ (t + 1)) m) m) (b * 2 ^ t + j) =
          evalAt (2 ^ t) (fun i => val m (b * 2 ^ t + revBits t i)) (stageRoot root t) j := by
    intro t
    induction t with
    | zero =>
      refine fun _ => ⟨hm, fun b _ j hj => ?_⟩
      obtain rfl : j = 0 := by simpa using hj
      simp [revBits_zero, evalAt]
    | succ t ih =>
      intro ht
      obtain ⟨hq, hv⟩ := ih (by omega)
      exact ⟨inField_nttStage _ _ _ hq, val_stage_eval hq hr hk ht hv⟩
  have h := (inv k le_rfl).2 0 (Nat.pow_pos Nat.two_pos) j hj
  simp only [Nat.zero_mul, Nat.zero_add] at h
  exact h

/-- What a transform's first two steps compute, with the bit reversals in the table: the evaluation of the buffer at the
powers of the root (R159). -/
theorem val_stages_permute {root k : Nat} {rev : Memory Config.KMAX} {m : Memory 32} (hm : m.inField)
    (hr : powMod root ((Config.P - 1) / 2) = Config.P - 1) (hk : k ≤ Config.KMAX)
    (ht : ∀ i < 2 ^ k, (rev.get i).toNat = revBits k i) {j : Nat} (hj : j < 2 ^ k) :
    val (nttStages root k (permute (2 ^ k) rev m)) j = evalAt (2 ^ k) (val m) (stageRoot root k) j := by
  rw [val_nttStages (inField_permute _ _ hm) hr hk hj]
  refine evalAt_congr _ _ fun i hi => val_congr ?_
  rw [get_permute m ht, if_pos (revBits_lt k i), revBits_revBits hi]

end Sys2Proof.Machine
end

