-- ==== Sys2Proof/Laws/Inverse.lean ====
section
/-! SUPPORT. The inverses that Fermat's theorem gives (R125), the orthogonality of the powers of a root of unity, and with
it the inversion of an evaluation and the cyclic convolution (R159, R171), over a field. -/

namespace Sys2Proof.Machine

/-- `pow_mod(x, P-2)` inverts every element of the field but 0 (R125). -/
theorem mul_powMod_inverse {x : Nat} (h0 : (x : ZMod Config.P) ≠ 0) :
    (x : ZMod Config.P) * ((powMod x (Config.P - 2) : Nat) : ZMod Config.P) = 1 := by
  have : Fact (Nat.Prime Config.P) := ⟨prime_P⟩
  rw [cast_powMod, ← pow_succ', show Config.P - 2 + 1 = Config.P - 1 by decide]
  exact ZMod.pow_card_sub_one_eq_one h0

theorem cast_ne_zero {x : Nat} (h0 : x ≠ 0) (h : x < Config.P) : (x : ZMod Config.P) ≠ 0 := fun e =>
  h0 (eq_of_cast_eq h P_pos (by rw [e, Nat.cast_zero]))

theorem two_pow_lt_P {k : Nat} (hk : k ≤ Config.KMAX) : 2 ^ k < Config.P :=
  Nat.lt_of_le_of_lt (Nat.pow_le_pow_right Nat.two_pos hk) (by decide)

/-- The scale factor of the inverse transform inverts the length (R155, R162). -/
theorem length_mul_scale {k : Nat} (hk : k ≤ Config.KMAX) :
    ((2 ^ k : Nat) : ZMod Config.P) * ((powMod (2 ^ k) (Config.P - 2) : Nat) : ZMod Config.P) = 1 :=
  mul_powMod_inverse (cast_ne_zero (Nat.ne_of_gt (Nat.pow_pos Nat.two_pos)) (two_pow_lt_P hk))

/-- The two roots of a length are inverses of each other (R161). -/
theorem stageRoot_mul (k : Nat) : stageRoot Config.G k * stageRoot Config.GINV k = 1 := by
  rw [stageRoot, stageRoot, ← mul_pow, ← Nat.cast_mul,
    show ((Config.G * Config.GINV : Nat) : ZMod Config.P) = ((1 : Nat) : ZMod Config.P) from
      (ZMod.natCast_eq_natCast_iff' _ _ _).2 (by decide), Nat.cast_one, one_pow]

/-- A root of a length has exactly that order (R159). -/
theorem orderOf_stageRoot {root : Nat} (hr : powMod root ((Config.P - 1) / 2) = Config.P - 1) {k : Nat}
    (hk : k ≤ Config.KMAX) : orderOf (stageRoot root k) = 2 ^ k := by
  cases k with
  | zero => rw [pow_zero, orderOf_eq_one_iff, ← stageRoot_self hr hk, pow_zero, pow_one]
  | succ k =>
    have : Fact (Nat.Prime 2) := ⟨Nat.prime_two⟩
    refine orderOf_eq_prime_pow ?_ (stageRoot_self hr hk)
    rw [stageRoot_half hr hk]
    intro h
    have h2 : ((2 : Nat) : ZMod Config.P) = ((0 : Nat) : ZMod Config.P) := by
      rw [Nat.cast_zero, Nat.cast_ofNat, ← one_add_one_eq_two]
      nth_rw 1 [← h]
      exact neg_add_cancel 1
    exact absurd (eq_of_cast_eq (by decide) P_pos h2) (by decide)

section field

variable {K : Type} [Field K]

/-- The powers of a root of exact order n are orthogonal. -/
theorem sum_root_powers {n : Nat} {w v : K} (hw : orderOf w = n) (hv : w * v = 1) {a b : Nat}
    (ha : a < n) (hb : b < n) : ∑ j ∈ Finset.range n, (w ^ a * v ^ b) ^ j = if a = b then (n : K) else 0 := by
  have hwn : w ^ n = 1 := hw ▸ pow_orderOf_eq_one w
  have hvn : v ^ n = 1 := by
    have := congrArg (· ^ n) hv
    simpa [mul_pow, hwn] using this
  split
  · subst b
    simp [← mul_pow, hv]
  · rename_i hab
    have hz : w ^ a * v ^ b ≠ 1 := by
      intro h
      have : w ^ a = w ^ b := by
        calc
          w ^ a = w ^ a * (w * v) ^ b := by rw [hv, one_pow, mul_one]
          _ = w ^ a * v ^ b * w ^ b := by rw [mul_pow]; ring
          _ = w ^ b := by rw [h, one_mul]
      exact hab (pow_injOn_Iio_orderOf (Set.mem_Iio.2 (hw.symm ▸ ha)) (Set.mem_Iio.2 (hw.symm ▸ hb)) this)
    rw [geom_sum_eq hz, mul_pow, ← pow_mul, ← pow_mul, Nat.mul_comm a, Nat.mul_comm b, pow_mul, pow_mul, hwn, hvn]
    simp

/-- Evaluating at the powers of a root and then at those of its inverse gives n times the start. -/
theorem evalAt_evalAt {n : Nat} {w v : K} (hw : orderOf w = n) (hv : w * v = 1) (x : Nat → K) {a : Nat}
    (ha : a < n) : evalAt n (evalAt n x w) v a = n * x a := by
  calc
    evalAt n (evalAt n x w) v a
      = ∑ j ∈ Finset.range n, ∑ i ∈ Finset.range n, x i * (w ^ i * v ^ a) ^ j := by
        refine Finset.sum_congr rfl fun j _ => ?_
        rw [evalAt, Finset.sum_mul]
        refine Finset.sum_congr rfl fun i _ => ?_
        rw [mul_pow, ← pow_mul, ← pow_mul, Nat.mul_comm j a]
        ring
    _ = ∑ i ∈ Finset.range n, x i * ∑ j ∈ Finset.range n, (w ^ i * v ^ a) ^ j := by
        rw [Finset.sum_comm]
        exact Finset.sum_congr rfl fun i _ => (Finset.mul_sum _ _ _).symm
    _ = ∑ i ∈ Finset.range n, if i = a then x i * n else 0 := by
        refine Finset.sum_congr rfl fun i hi => ?_
        rw [sum_root_powers hw hv (Finset.mem_range.1 hi) ha, mul_ite, mul_zero]
    _ = n * x a := by
        rw [Finset.sum_ite_eq' _ a, if_pos (Finset.mem_range.2 ha), mul_comm]

/-- The cyclic convolution of two sequences of length n. -/
def cyclic (n : Nat) (a b : Nat → K) (t : Nat) : K :=
  ∑ i ∈ Finset.range n, ∑ j ∈ Finset.range n, if (i + j) % n = t then a i * b j else 0

/-- Evaluation turns cyclic convolution into multiplication (R171). -/
theorem evalAt_cyclic {n : Nat} {w : K} (hw : w ^ n = 1) (a b : Nat → K) (j : Nat) (hn : 0 < n) :
    evalAt n (cyclic n a b) w j = evalAt n a w j * evalAt n b w j := by
  calc
    evalAt n (cyclic n a b) w j
      = ∑ t ∈ Finset.range n, ∑ i ∈ Finset.range n, ∑ l ∈ Finset.range n,
          if (i + l) % n = t then a i * b l * w ^ (t * j) else 0 := by
        refine Finset.sum_congr rfl fun t _ => ?_
        rw [cyclic, Finset.sum_mul]
        refine Finset.sum_congr rfl fun i _ => ?_
        rw [Finset.sum_mul]
        exact Finset.sum_congr rfl fun l _ => by rw [ite_mul, zero_mul]
    _ = ∑ i ∈ Finset.range n, ∑ l ∈ Finset.range n, ∑ t ∈ Finset.range n,
          if (i + l) % n = t then a i * b l * w ^ (t * j) else 0 := by
        rw [Finset.sum_comm]
        exact Finset.sum_congr rfl fun i _ => Finset.sum_comm
    _ = ∑ i ∈ Finset.range n, ∑ l ∈ Finset.range n, a i * b l * w ^ ((i + l) * j) := by
        refine Finset.sum_congr rfl fun i _ => Finset.sum_congr rfl fun l _ => ?_
        rw [Finset.sum_ite_eq, if_pos (Finset.mem_range.2 (Nat.mod_lt _ hn))]
        congr 1
        rw [pow_mul, pow_mul]
        congr 1
        conv_rhs => rw [← Nat.mod_add_div (i + l) n, pow_add, pow_mul, hw, one_pow, mul_one]
    _ = evalAt n a w j * evalAt n b w j := by
        rw [evalAt, evalAt, Finset.sum_mul_sum]
        refine Finset.sum_congr rfl fun i _ => Finset.sum_congr rfl fun l _ => ?_
        rw [Nat.add_mul, pow_add]
        ring

end field

/-! ### The inverse transform -/

/-- What NTT.I computes, with the bit reversals in the table: the evaluation at the powers of the inverse root, times
the scale factor (R159). -/
theorem val_nttInverse {k : Nat} {rev : Memory Config.KMAX} {m : Memory 32} (hm : m.inField)
    (hk : k ≤ Config.KMAX) (ht : ∀ i < 2 ^ k, (rev.get i).toNat = revBits k i) {j : Nat} (hj : j < 2 ^ k) :
    val (nttInverse k rev m) j = evalAt (2 ^ k) (val m) (stageRoot Config.GINV k) j *
      ((powMod (2 ^ k) (Config.P - 2) : Nat) : ZMod Config.P) := by
  rw [nttInverse, val, elem_scaleElems _ hj, cast_mulMod, ← val_stages_permute hm half_GINV hk ht hj, val]

/-- What NTT.F computes (R159). -/
theorem val_nttForward {k : Nat} {rev : Memory Config.KMAX} {m : Memory 32} (hm : m.inField)
    (hk : k ≤ Config.KMAX) (ht : ∀ i < 2 ^ k, (rev.get i).toNat = revBits k i) {j : Nat} (hj : j < 2 ^ k) :
    val (nttForward k rev m) j = evalAt (2 ^ k) (val m) (stageRoot Config.G k) j :=
  val_stages_permute hm half_G hk ht hj

/-- Two buffers of field elements that agree in `ZMod P` at an index agree there. -/
theorem get_eq_of_val_eq {m m' : Memory 32} (hm : m.inField) (hm' : m'.inField) {i j : Nat}
    (h : val m i = val m' j) : m.get i = m'.get j :=
  get_eq_of_elem_eq (eq_of_cast_eq (elem_lt hm i) (elem_lt hm' j) h)

end Sys2Proof.Machine
end

