-- ==== Sys2Proof/Laws/PerInstr.lean ====
section
/-! SUPPORT. A fact about every command as syntax, made per constructor: the fields of its word obey its format (R90,
R91). -/

namespace Sys2Proof.Laws

/-- The opcode has the command's format, the reserved bits are 0, and so is every operand field that the format does not
use. -/
def FormatObeyed.Statement (i : Instr) : Prop :=
  Format.ofOpcode i.fields.opc = some i.format ∧ i.fields.reserved = 0 ∧
  (i.format.usesDir = true ∨ i.fields.dir = 0) ∧ (i.format.usesBs = true ∨ i.fields.bs = 0) ∧
  (i.format.usesBd = true ∨ i.fields.bd = 0)

theorem FormatObeyed.nop : FormatObeyed.Statement .nop :=
  ⟨rfl, rfl, .inr rfl, .inr rfl, .inr rfl⟩

theorem FormatObeyed.addm : FormatObeyed.Statement .addm :=
  ⟨rfl, rfl, .inr rfl, .inr rfl, .inr rfl⟩

theorem FormatObeyed.subm : FormatObeyed.Statement .subm :=
  ⟨rfl, rfl, .inr rfl, .inr rfl, .inr rfl⟩

theorem FormatObeyed.mulm : FormatObeyed.Statement .mulm :=
  ⟨rfl, rfl, .inr rfl, .inr rfl, .inr rfl⟩

theorem FormatObeyed.powm : FormatObeyed.Statement .powm :=
  ⟨rfl, rfl, .inr rfl, .inr rfl, .inr rfl⟩

theorem FormatObeyed.bitrev : FormatObeyed.Statement .bitrev :=
  ⟨rfl, rfl, .inr rfl, .inr rfl, .inr rfl⟩

theorem FormatObeyed.nttF (d : Buffer) : FormatObeyed.Statement (.nttF d) :=
  ⟨rfl, rfl, .inl rfl, .inr rfl, .inl rfl⟩

theorem FormatObeyed.nttI (d : Buffer) : FormatObeyed.Statement (.nttI d) :=
  ⟨rfl, rfl, .inl rfl, .inr rfl, .inl rfl⟩

theorem FormatObeyed.pwmul (d s : Buffer) : FormatObeyed.Statement (.pwmul d s) :=
  ⟨rfl, rfl, .inr rfl, .inl rfl, .inl rfl⟩

theorem FormatObeyed.carry (d : Buffer) : FormatObeyed.Statement (.carry d) :=
  ⟨rfl, rfl, .inr rfl, .inr rfl, .inl rfl⟩

theorem FormatObeyed.clr (d : Buffer) : FormatObeyed.Statement (.clr d) :=
  ⟨rfl, rfl, .inr rfl, .inr rfl, .inl rfl⟩

end Sys2Proof.Laws
end

