-- ==== Sys2Proof/Tests/Slice0.lean ====
section
/-! SUPPORT. The model's own tests: ill-formed words, decoding, one step per command, the host port, and a witness for the
hypotheses of each statement.  Expected values are those of 95_test_vectors.md, whose vector each test names. -/

namespace Sys2Proof.Tests

open Sys2Proof Sys2Proof.Machine

/-- The next state of an outcome. -/
def nextOf : Host.Outcome State Fault Refusal → Option State
  | .next t => some t
  | .fault _ => none
  | .refused _ => none

/-- The reset state with scalar operands. -/
def scalars (x y : Word) : State :=
  { State.reset with opx := x, opy := y }

/-- The reset state with a length and buffer contents. -/
def buffers (logn : BitVec 5) (a b : Memory 32) : State :=
  { State.reset with logn := logn, buf0 := a, buf1 := b }

/-- The state with `k = 2`, its table built, and buffer contents. -/
def tableTwo (a b : Memory 32) : State :=
  { buffers 2 a b with
    rev := [(1, 2), (2, 1), (3, 3)]
    status := { Status.reset with revv := true, revk := 2 } }

/-- The reset state with a command word pending. -/
def pending (w : Word) : State :=
  { State.reset with cmd := w, status := { Status.reset with busy := true } }

/-- The reset state with E_ACCESS recorded. -/
def halted : State :=
  { State.reset with status := { Status.reset with err := true, ecode := 5 } }

/-- The reset state with a coming event of the outside. -/
def scripted (e : HostEvent) : State :=
  { State.reset with script := [e] }

/-- A state with a result of two digits, 81. -/
def resultTwo : State :=
  { State.reset with rlen := 2, dig := [(0, 1), (1, 8)] }

/-! ### Well-formed words (R90, R91, R94): one ill-formed word for each check -/

theorem test_wellFormed : (Fields.mk 0x0A 0 0 1 1).wellFormed = true := by decide
theorem test_illFormed_opcode : (Fields.mk 0x05 0 0 0 0).wellFormed = false := by decide
theorem test_illFormed_reserved : (Fields.mk 0x0B 1 0 0 0).wellFormed = false := by decide
theorem test_illFormed_dir : (Fields.mk 0x0A 0 1 0 0).wellFormed = false := by decide
theorem test_illFormed_bs : (Fields.mk 0x09 0 0 1 0).wellFormed = false := by decide
theorem test_illFormed_bd : (Fields.mk 0x08 0 0 0 1).wellFormed = false := by decide

/-! ### Decoding: words written out bit by bit from R90 and R93 (V-ENC-1, V-ENC-2) -/

theorem test_decode_nop : decode 0b00000000_000000000000000000000_0_0_0 = some .nop := by decide
theorem test_decode_addm : decode 0b00000001_000000000000000000000_0_0_0 = some .addm := by decide
theorem test_decode_subm : decode 0b00000010_000000000000000000000_0_0_0 = some .subm := by decide
theorem test_decode_mulm : decode 0b00000011_000000000000000000000_0_0_0 = some .mulm := by decide
theorem test_decode_powm : decode 0b00000100_000000000000000000000_0_0_0 = some .powm := by decide
theorem test_decode_bitrev : decode 0b00001000_000000000000000000000_0_0_0 = some .bitrev := by decide
theorem test_decode_nttF : decode 0b00001001_000000000000000000000_0_0_1 = some (.nttF .b1) := by decide
theorem test_decode_nttI : decode 0b00001001_000000000000000000000_1_0_0 = some (.nttI .b0) := by decide
theorem test_decode_pwmul : decode 0b00001010_000000000000000000000_0_1_0 = some (.pwmul .b0 .b1) := by decide
theorem test_decode_carry : decode 0b00001011_000000000000000000000_0_0_1 = some (.carry .b1) := by decide
theorem test_decode_clr : decode 0b00001100_000000000000000000000_0_0_0 = some (.clr .b0) := by decide

theorem test_decode_illegal :
    decode 0x05000000 = none ∧ decode 0x07000000 = none ∧ decode 0x0D000000 = none ∧ decode 0xFFFFFFFF = none ∧
    decode 0x00000001 = none ∧ decode 0x04000004 = none ∧ decode 0x09000006 = none ∧ decode 0x09000008 = none ∧
    decode 0x0A000004 = none ∧ decode 0x0B000100 = none ∧ decode 0x0C800000 = none := by decide

theorem test_decodeTableWord :
    decodeTableWord 32 0x0A000001 = some (.pwmul .b1 .b0) ∧ decodeTableWord 32 0x0A000004 = none := by decide

/-! ### One step per command -/

/-- V-NOP-1. -/
theorem test_nop : (nextOf (step (pending 0))).map (fun t => t.status.toWord) = some 0x00000002 := by decide

/-- V-ADD: the sum P. -/
theorem test_addm : (nextOf (exec .addm (scalars 998244352 1))).map State.res = some 0 := by decide
theorem test_addm_large : (nextOf (exec .addm (scalars 998244352 998244352))).map State.res = some 998244351 := by
  decide

/-- V-SUB: a borrow. -/
theorem test_subm : (nextOf (exec .subm (scalars 0 1))).map State.res = some 998244352 := by decide
theorem test_subm_equal : (nextOf (exec .subm (scalars 5 5))).map State.res = some 0 := by decide

/-- V-MUL: a product just above P. -/
theorem test_mulm : (nextOf (exec .mulm (scalars 31596 31596))).map State.res = some 62863 := by decide
theorem test_mulm_large : (nextOf (exec .mulm (scalars 998244352 998244352))).map State.res = some 1 := by decide

/-- V-POW: base 0 with exponent 0, and an inverse. -/
theorem test_powm_zero : (nextOf (exec .powm State.reset)).map State.res = some 1 := by decide
theorem test_powm_inverse : (nextOf (exec .powm (scalars 3 998244351))).map State.res = some 332748118 := by decide

/-- V-REV-1 (k = 3). -/
theorem test_bitrev :
    (nextOf (exec .bitrev (buffers 3 [] []))).map (fun t => (t.rev, t.status.toWord)) =
      some ([(1, 4), (2, 2), (3, 6), (4, 1), (5, 5), (6, 3), (7, 7)], 0x0000030A) := by decide

/-- V-REV-4. -/
theorem test_bitrev_overflow :
    (nextOf (exec .bitrev (buffers 24 [] []))).map (fun t => (t.rev, t.status.toWord)) =
      some ([], 0x00000034) := by decide

/-- V-NTT-3. -/
theorem test_nttF :
    (nextOf (exec (.nttF .b0) (tableTwo [(0, 1), (1, 2), (2, 3), (3, 4)] []))).map State.buf0 =
      some [(0, 10), (1, 173167434), (2, 998244351), (3, 825076915)] := by decide

/-- V-NTT-8: no table was built. -/
theorem test_nttF_noTable :
    (nextOf (exec (.nttF .b0) (buffers 2 [(0, 1)] []))).map (fun t => (t.buf0, t.status.toWord)) =
      some ([(0, 1)], 0x00000044) := by decide

/-- V-NTT-4, in BUF1. -/
theorem test_nttI :
    (nextOf (exec (.nttI .b1) (tableTwo [] [(0, 10), (1, 173167434), (2, 998244351), (3, 825076915)]))).map
      State.buf1 = some [(0, 1), (1, 2), (2, 3), (3, 4)] := by decide

/-- V-PW-2: both factors one buffer, and an element outside the active range. -/
theorem test_pwmul_square :
    (nextOf (exec (.pwmul .b0 .b0) (buffers 1 [(0, 3), (1, 998244352), (2, 7)] []))).map State.buf0 =
      some [(0, 9), (1, 1), (2, 7)] := by decide

/-- V-PW-1, the second form. -/
theorem test_pwmul :
    (nextOf (exec (.pwmul .b1 .b0) (buffers 1 [(0, 2), (1, 3)] [(0, 5), (1, 499122177)]))).map
      (fun t => (t.buf0, t.buf1)) = some ([(0, 2), (1, 3)], [(0, 10), (1, 499122178)]) := by decide

/-- The carry table of section 7 (k = 2): a flush of two digits. -/
theorem test_carry :
    (nextOf (exec (.carry .b0) (buffers 2 [(0, 99), (1, 99), (2, 99), (3, 99)] []))).map
      (fun t => (t.dig, t.rlen)) = some ([(0, 9), (1, 8), (2, 9), (3, 9), (5, 1)], 6) := by decide

/-- V-CAR-RESET. -/
theorem test_carry_reset :
    (nextOf (exec (.carry .b0) State.reset)).map (fun t => (t.rlen, t.status.toWord)) =
      some (1, 0x00000002) := by decide

/-- V-CLR-1. -/
theorem test_clr :
    (nextOf (exec (.clr .b0) (buffers 1 [(0, 14), (1, 998244349), (2, 77), (3, 88)] []))).map State.buf0 =
      some [(2, 77), (3, 88)] := by decide

/-! ### The host port (V-HP, V-BUSY) -/

/-- V-HP-17: the address check, the value check, and a store after an error. -/
theorem test_write_range :
    (hostWrite 6 5 (hostWrite 6 998244353 State.reset)).opx = 5 ∧
    (hostWrite 6 5 (hostWrite 6 998244353 State.reset)).status.toWord = 0x00000024 := by decide

/-- V-HP-14. -/
theorem test_write_address_first :
    (hostWrite 0x1800000 0xFFFFFFFF State.reset).status.toWord = 0x00000054 := by decide

/-- V-HP-9, V-HP-11. -/
theorem test_read_unmapped :
    (hostRead 0x000000A State.reset).lastRead = some 0 ∧
    (hostRead 0x000000A State.reset).status.toWord = 0x00000054 ∧
    (hostRead 0x4800009 State.reset).status.toWord = 0x00000054 ∧
    (hostRead 0x4800008 State.reset).status.toWord = 0 := by decide

/-- V-BUSY: a dropped write, and a read of a register of the host while a command is pending. -/
theorem test_write_busy :
    (hostWrite 6 7 (pending 0x0C000000)).status.toWord = 0x00000065 ∧
    (hostRead 5 (hostWrite 6 7 (pending 0x0C000000))).lastRead = some 0x0C000000 := by decide

/-- V-BUSY-SRST. -/
theorem test_reset_busy : hostWrite 2 1 (pending 0x0B000000) = State.reset := by decide

/-- The memories of the reset state are in the canonical form. -/
theorem test_reset_memory : Memory.wf Config.NCAP State.reset.buf0 ∧ Memory.wf Config.DCAP State.reset.dig := by decide

/-- The host's placing of a command word: the very next step runs it. -/
theorem test_withFetchWord :
    (nextOf (step (State.reset.withFetchWord 32 0x0B000000))).map State.rlen = some 1 := by decide

/-- S3: the zero fast-path of the driver touches nothing. -/
theorem test_multiply_zero : multiply 23 1 [['7'], ['0']] State.reset = .ok (State.reset, ['0']) := rfl

/-- R243: a driver that does not know the state resets; it then learns KMAX. -/
theorem test_boot : (boot false true { pending 0x0C000000 with opx := 7 }).map
    (fun r => ({ r.1 with lastRead := none }, r.2)) = .ok (State.reset, 23) := rfl

/-- N9: an empty token, and R191: a token with a sign. -/
theorem test_parse_malformed :
    parseTokens [[], ['5']] = .error .malformedInput ∧ parseTokens [['-', '5'], ['5']] = .error .malformedInput :=
  ⟨rfl, rfl⟩

/-- V-DRV-1: operands of 2^22 and 2^22 + 1 digits need the longest transform. -/
theorem test_plan : plan 4194304 4194305 = 23 ∧ plan 1 1 = 0 := by decide

/-! ### Witnesses: for each statement with hypotheses, values that meet them -/

theorem test_witness_field : (998244352 : Nat) < Config.P ∧ (0 : Nat) < Config.P ∧ ¬ 998244353 < Config.P := by decide

theorem test_witness_PowModIsTheFieldPower :
    (998244352 : Nat) < Config.P ∧ 998244352 ≤ Config.P - 1 ∧ 1 ≤ Config.P - 1 := by decide

theorem test_witness_PowModGivesInverses : 1 ≤ 998244352 ∧ 998244352 < Config.P ∧ (1 : Nat) ≤ 1 := by decide

theorem test_witness_IllegalWordRaisesOpcodeError :
    (pending 0x09000002).status.busy = true ∧ (pending 0x09000002).script = [] ∧
    (∀ i : Instr, (pending 0x09000002).cmd ≠ encode i) ∧
    0x05 ≤ ((0x05000000 : Word).extractLsb' 24 8).toNat ∧ ((0x07FFFFFF : Word).extractLsb' 24 8).toNat ≤ 0x07 ∧
    0x0D ≤ ((0x0D000000 : Word).extractLsb' 24 8).toNat := by
  refine ⟨rfl, rfl, fun i => ?_, by decide, by decide, by decide⟩
  cases i with
  | nop => decide
  | addm => decide
  | subm => decide
  | mulm => decide
  | powm => decide
  | bitrev => decide
  | nttF d => cases d <;> decide
  | nttI d => cases d <;> decide
  | pwmul d s => cases d <;> cases s <;> decide
  | carry d => cases d <;> decide
  | clr d => cases d <;> decide

theorem test_witness_StepRunsTheDecodedCommand :
    (pending 0x0B000001).status.busy = true ∧ decode (pending 0x0B000001).cmd = some (.carry .b1) ∧
    (pending 0x0B000001).script = [] ∧ { pending 0x0B000001 with script := [.wait] }.script = [.wait] := by decide

theorem test_witness_StepTakesTheNextEvent :
    (scripted (.read 5)).script = [.read 5] ∧ (scripted (.write 2 1)).script = [.write 2 1] ∧
    (scripted .resetInput).script = [.resetInput] ∧ (scripted .wait).status.busy = false ∧
    (scripted .wait).script = [.wait] ∧ State.reset.script = [] ∧ State.reset.status.busy = false := by decide

theorem test_witness_EveryStepTerminates :
    (pending 0x0C000000).status.busy = true ∧ (pending 0x0C000000).script = [] := by decide

theorem test_witness_ChecksComeInOrder :
    (usesLength (.clr .b0) = true ∧ Config.KMAX < (buffers 24 [] []).k) ∧
    (usesTable (.nttF .b1) = true ∧ (buffers 23 [] []).k ≤ Config.KMAX ∧ (buffers 23 [] []).tableValid = false) ∧
    ((tableTwo [] []).k ≤ Config.KMAX ∧ (tableTwo [] []).tableValid = true) ∧
    ((pending 0x09000002).status.busy = true ∧ (pending 0x09000002).script = [] ∧
      decode (pending 0x09000002).cmd = none) := by decide

/-- For the statements about every next state of a command or of a step: one for each way a command can end. -/
theorem test_witness_exec_next :
    (∃ t, exec (.carry .b0) resultTwo = .next t) ∧ (∃ t, exec .bitrev (buffers 24 [] []) = .next t) ∧
    (∃ t, exec (.nttI .b1) (buffers 23 [] []) = .next t) ∧ (∃ t, step (pending 0x08000000) = .next t) ∧
    (∃ t, step (scripted (.write 2 1)) = .next t) ∧ (∃ t, step (scripted .resetInput) = .next t) :=
  ⟨⟨_, rfl⟩, ⟨_, rfl⟩, ⟨_, rfl⟩, ⟨_, rfl⟩, ⟨_, rfl⟩, ⟨_, rfl⟩⟩

theorem test_witness_FirstErrorIsKeptUntilReset :
    State.reset.status.err = false ∧ halted.status.err = true ∧ ∃ t, step halted = .next t :=
  ⟨rfl, rfl, _, rfl⟩

theorem test_witness_HaltedBlockAcceptsNoCommand :
    halted.status.err = true ∧ halted.status.busy = false ∧ (998244352 : Word).toNat < Config.P ∧
    8388607 < Config.NCAP ∧ halted.k ≤ Config.KMAX ∧
    ({ tableTwo [] [] with status := { (tableTwo [] []).status with err := true } } : State).tableValid = true := by
  decide

/-- The boundary indices of every clause of the statements about host reads and writes. -/
theorem test_witness_regions :
    mappedIndex 0 9 ∧ ¬ mappedIndex 0 10 ∧ mappedIndex 1 8388607 ∧ ¬ mappedIndex 1 8388608 ∧ mappedIndex 2 8388607 ∧
    ¬ mappedIndex 2 8388608 ∧ mappedIndex 3 8388607 ∧ ¬ mappedIndex 3 8388608 ∧ mappedIndex 4 8388616 ∧
    ¬ mappedIndex 4 8388617 ∧ ¬ mappedIndex 5 0 ∧ ¬ mappedIndex 15 0xFFFFFF := by
  refine ⟨?_, ?_, ?_, ?_, ?_, ?_, ?_, ?_, ?_, ?_, ?_, ?_⟩ <;> decide

theorem test_witness_HostReadWhileIdle :
    State.reset.status.busy = false ∧ (hostRead (addressOf 0 0) State.reset).lastRead = some 0x4E545431 ∧
    (hostRead (addressOf 0 9) resultTwo).lastRead = some 2 ∧
    (hostRead (addressOf 4 1) resultTwo).lastRead = some 8 ∧
    (hostRead (addressOf 3 2) (tableTwo [] [])).lastRead = some 1 ∧
    (hostRead (addressOf 2 8388607) (buffers 0 [] [(8388607, 9)])).lastRead = some 9 ∧
    (hostRead (addressOf 2 8388608) (buffers 0 [] [])).status.toWord = 0x00000054 ∧
    (hostRead (addressOf 15 0xFFFFFF) State.reset).status.toWord = 0x00000054 := by decide

theorem test_witness_HostWriteWhileIdle :
    State.reset.status.busy = false ∧ (1 : Word).getLsbD 0 = true ∧ (0xFFFFFFFE : Word).getLsbD 0 = false ∧
    State.reset.status.err = false ∧ halted.status.busy = false ∧ halted.status.err = true ∧
    (998244352 : Word).toNat < Config.P ∧ Config.P ≤ (998244353 : Word).toNat ∧
    (hostWrite (addressOf 1 8388607) 998244352 State.reset).buf0 = [(8388607, 998244352)] ∧
    (hostWrite (addressOf 2 0) 998244353 State.reset).status.toWord = 0x00000024 ∧
    (hostWrite (addressOf 3 0) 0 State.reset).status.toWord = 0x00000054 ∧
    (hostWrite (addressOf 0 8) 1 State.reset).status.toWord = 0x00000054 := by decide

/-- Draws and an unmapped index while a command is pending. -/
theorem test_witness_HostReadWhileBusy :
    (pending 0x0C000000).status.busy = true ∧ (hostRead (addressOf 0 8) (pending 0x0C000000)).draws = 1 ∧
    (hostRead (addressOf 4 8388616) (pending 0x0C000000)).draws = 1 ∧
    (hostRead (addressOf 4 8388617) (pending 0x0C000000)).draws = 0 ∧
    (hostRead (addressOf 4 8388617) (pending 0x0C000000)).status.toWord = 0x00000055 ∧
    (hostRead (addressOf 0 7) (pending 0x0C000000)).draws = 0 := by decide

theorem test_witness_HostWriteWhileBusy :
    (pending 0x0C000000).status.busy = true ∧
    (hostWrite (addressOf 0 1) 1 (pending 0x0C000000)).status.toWord = 0x00000065 ∧
    hostWrite (addressOf 0 2) 2 (pending 0x0C000000) = pending 0x0C000000 ∧
    (hostWrite (addressOf 0 3) 1 (pending 0x0C000000)).status.toWord = 0x00000065 ∧
    (hostWrite (addressOf 15 0) 1 (pending 0x0C000000)).status.toWord = 0x00000065 := by decide

theorem test_witness_CommandAcceptance :
    (pending 0).status.busy = true ∧ halted.status.busy = false ∧ halted.status.err = true ∧
    State.reset.status.busy = false ∧ State.reset.status.err = false ∧ State.reset.script = [] ∧
    decode 0x05000000 = none ∧ (hostWrite 5 0x05000000 State.reset).status.toWord = 0x00000001 := by decide

theorem test_witness_StoredValueReadsBack :
    State.reset.status.busy = false ∧ (998244352 : Word).toNat < Config.P ∧ 8388607 < Config.NCAP ∧
    (hostRead 4 (hostWrite 4 0xFFFFFFF8 State.reset)).lastRead = some 0x00000018 := by decide

theorem test_witness_AddressesNameTheirLocations :
    8388607 < Config.NCAP ∧ 8388616 < Config.DCAP ∧ locate 0x4800008 = .dig 8388616 ∧
    locate 0x0000009 = .register .rlen := by decide

theorem test_witness_ResetEventsAreOneReset : (0xFFFFFFFF : Word).getLsbD 0 = true := by decide

theorem test_witness_NopOnlyFinishes : halted.status.busy = false ∧ halted.status.err = true := by decide

theorem test_witness_scalar :
    (scalars 998244352 998244351).opx.toNat < Config.P ∧ (scalars 998244352 998244351).opy.toNat = Config.P - 2 ∧
    (scalars 998244352 998244352).opy.toNat = Config.P - 1 ∧ (scalars 998244352 998244352).opx.toNat ≠ 0 := by decide

theorem test_witness_RevBits : 23 ≤ Config.KMAX ∧ 8388607 < 2 ^ 23 ∧ 0 < 2 ^ 0 ∧ revBits 23 1 = 4194304 := by decide

theorem test_witness_RevBitsLaws : 23 ≤ Config.KMAX ∧ 4194303 < 2 ^ (23 - 1) ∧ 1 ≤ 23 := by decide

theorem test_witness_BitrevBuildsTheTable :
    (buffers 23 [] []).k ≤ Config.KMAX ∧ Config.KMAX < (buffers 24 [] []).k ∧ (buffers 3 [] []).logn = 3 ∧
    (buffers 3 [] []).status.err = false ∧ (buffers 3 [] []).status.ecode = 0 := by decide

theorem test_witness_PermutationReordersTheBuffer :
    (∀ i < 2 ^ 2, (Memory.get ([(1, 2), (2, 1), (3, 3)] : Memory Config.KMAX) i).toNat = revBits 2 i) ∧
    (∀ i < 2 ^ 1, (Memory.get ([(1, 1)] : Memory Config.KMAX) i).toNat = revBits 1 i) := by decide

theorem test_tableTwo_table (a b : Memory 32) : (tableTwo a b).TableRecord :=
  ⟨fun _ => (by decide : (2 : BitVec 5).toNat ≤ Config.KMAX),
    fun _ => (by decide : ∀ i < 2 ^ 2, (Memory.get ([(1, 2), (2, 1), (3, 3)] : Memory Config.KMAX) i).toNat =
      revBits 2 i), nofun⟩

theorem test_tableTwo_elements : (tableTwo [(0, 998244352), (3, 7)] [(1, 9)]).FieldElements where
  opx := by decide
  opy := by decide
  res := by decide
  buf0 := Memory.get_of_forall (p := fun v => v.toNat < Config.P) (by decide) (by decide)
  buf1 := Memory.get_of_forall (p := fun v => v.toNat < Config.P) (by decide) (by decide)

/-- The hypotheses of the statements about the transforms and of PipelineConvolves, at k = 2. -/
theorem test_witness_transforms :
    (tableTwo [(0, 998244352), (3, 7)] [(1, 9)]).k ≤ Config.KMAX ∧
    (tableTwo [(0, 998244352), (3, 7)] [(1, 9)]).tableValid = true ∧
    (tableTwo [(0, 998244352), (3, 7)] [(1, 9)]).TableRecord ∧
    (tableTwo [(0, 998244352), (3, 7)] [(1, 9)]).FieldElements :=
  ⟨by decide, by decide, test_tableTwo_table _ _, test_tableTwo_elements⟩

/-- The corner cases of the transforms: a table for k = 0 and for k = 1. -/
theorem test_witness_transforms_corners :
    (∃ s : State, s.k = 0 ∧ s.tableValid = true ∧ s.TableRecord ∧ (s.buf .b0).inField) ∧
    ∃ s : State, s.k = 1 ∧ s.tableValid = true ∧ s.TableRecord ∧ (s.buf .b0).inField :=
  ⟨⟨{ State.reset with status := { Status.reset with revv := true } }, by decide, by decide,
      ⟨fun _ => by decide, fun _ => by decide, nofun⟩, inField_nil⟩,
    ⟨{ State.reset with logn := 1, rev := [(1, 1)], status := { Status.reset with revv := true, revk := 1 } },
      by decide, by decide, ⟨fun _ => by decide, fun _ => by decide, nofun⟩, inField_nil⟩⟩

theorem test_witness_length : (buffers 23 [] []).k ≤ Config.KMAX ∧ Config.KMAX < (buffers 24 [] []).k := by decide

/-- Must-be-zero bits set in the words of BITREV, PWMUL, CARRY and CLR, the lowest such bit of each. -/
theorem test_witness_mustBeZero :
    (pending 0x08000001).cmd.extractLsb' 24 8 = 0x08 ∧ (pending 0x08000001).cmd &&& 0x00FFFFFF ≠ 0 ∧
    (pending 0x0A000004).cmd.extractLsb' 24 8 = 0x0A ∧ (pending 0x0A000004).cmd &&& 0x00FFFFFC ≠ 0 ∧
    (pending 0x0B000002).cmd.extractLsb' 24 8 = 0x0B ∧ (pending 0x0B000002).cmd &&& 0x00FFFFFE ≠ 0 ∧
    (pending 0x0C000002).cmd.extractLsb' 24 8 = 0x0C ∧ (pending 0x0C000002).cmd &&& 0x00FFFFFE ≠ 0 := by decide

theorem test_witness_CarryPreservesTheValue :
    (tableTwo [(0, 998244352), (3, 7)] [(1, 9)]).k ≤ Config.KMAX ∧
    (tableTwo [(0, 998244352), (3, 7)] [(1, 9)]).FieldElements :=
  ⟨by decide, test_tableTwo_elements⟩

theorem test_witness_TrimIsTheLeastCount : 1 ≤ 1 ∧ trim [] 1 = 1 ∧ trim [(0, 1), (1, 8)] 3 = 2 := by decide

theorem test_witness_CarryIsBounded : Memory.inField [(0, 998244352), (1, 998244352)] :=
  Memory.get_of_forall (p := fun v => v.toNat < Config.P) (by decide) (by decide)

/-- A state other than reset that meets every invariant. -/
theorem test_tableTwo_invariant : (tableTwo [(0, 998244352), (3, 7)] [(1, 9)]).Inv where
  memoryForm := ⟨by decide, by decide, by decide, by decide⟩
  fieldElements := test_tableTwo_elements
  statusRecord := ⟨by decide, by decide, by decide⟩
  tableRecord := test_tableTwo_table _ _
  resultRecord := ⟨fun _ => Nat.zero_le 9, by decide, by decide⟩

/-- The hypotheses of the statements about the invariants. -/
theorem test_witness_invariants :
    (tableTwo [(0, 998244352), (3, 7)] [(1, 9)]).Inv ∧
    ∃ t, step (tableTwo [(0, 998244352), (3, 7)] [(1, 9)]) = .next t :=
  ⟨test_tableTwo_invariant, _, rfl⟩

theorem test_witness_PendingCommandIsUndisturbed :
    State.reset.Ready ∧ (pending 0x0C000000).status.busy = true ∧
    (∀ v : Word, v.getLsbD 0 = true → HostEvent.write 6 7 ≠ .write 2 v) ∧
    ∃ t, outsideTurn (.write 6 7) (pending 0x0C000000) = .next t :=
  ⟨⟨rfl, rfl⟩, rfl, fun v _ h => by injection h with h; exact absurd h (by decide), _, rfl⟩

theorem test_witness_PlannerIsMinimal : 1 ≤ 4194304 ∧ 4194304 + 4194305 - 1 ≤ 2 ^ 23 := by decide

theorem test_witness_FormatterPrintsTheDigits :
    resultTwo.status.busy = false ∧ resultTwo.ResultRecord ∧ 1 ≤ resultTwo.rlen.toNat ∧
    ∃ t, readDigits 2 resultTwo = .ok (t, ['8', '1']) :=
  ⟨rfl, ⟨Memory.get_of_forall (p := fun v => v.toNat ≤ 9) (by decide) (by decide), by decide, by decide⟩, by decide,
    _, rfl⟩

theorem test_witness_MultiplyYieldsTheProduct :
    (tableTwo [(0, 998244352), (3, 7)] [(1, 9)]).Inv ∧ (tableTwo [(0, 998244352), (3, 7)] [(1, 9)]).Ready ∧
    parseTokens [['0', '7'], ['3', '4']] = .ok ([0, 7], [3, 4]) ∧ checkSizes Config.KMAX 2 [0, 7] [3, 4] = .ok 2 :=
  ⟨test_tableTwo_invariant, ⟨rfl, rfl⟩, rfl, rfl⟩

end Sys2Proof.Tests
end

/-! PROOFS. The state and its invariants (10_state.md): which state each command writes, what a step can do to the table
and to the result, and what every step keeps. -/

namespace Sys2Proof.Machine

/-! ### The moves of the two agents, one equation for each case of the definitions -/

theorem engineStep_of_illegal {s : State} (h : decode s.cmd = none) :
    engineStep s = .next (s.failCommand .opcode) := by
  rw [engineStep, h]

theorem engineStep_of_decode {s : State} {i : Instr} (h : decode s.cmd = some i) : engineStep s = exec i s := by
  rw [engineStep, h]

theorem engineTurn_of_busy {s : State} (h : s.status.busy = true) : engineTurn s = engineStep s :=
  if_pos h

theorem engineTurn_of_idle {s : State} (h : s.status.busy = false) : engineTurn s = .next s :=
  if_neg (Bool.eq_false_iff.1 h)

theorem step_of_nil {s : State} (h : s.script = []) : step s = engineTurn s := by
  rw [step, h]

theorem step_of_cons {s : State} {e : HostEvent} {rest : List HostEvent} (h : s.script = e :: rest) :
    step s = outsideTurn e { s with script := rest } := by
  rw [step, h]

/-! ### The decoder and the addresses of registers, inverted -/

/-- A word that decodes selects a row of the opcode map (R93), and that row builds the command. -/
theorem exists_row_of_decode {w : Word} {i : Instr} (h : decode w = some i) :
    ∃ r ∈ opcodeMap, r.selects w = true ∧ r.build (wordBd w) (wordBs w) = i := by
  rw [decode, Option.map_eq_some_iff] at h
  obtain ⟨r, hr, hi⟩ := h
  exact ⟨r, List.mem_of_find?_eq_some hr, List.find?_some (p := fun r : Row => r.selects w) hr, hi⟩

/-- BITREV has one word (R93). -/
theorem eq_of_decode_bitrev {w : Word} (h : decode w = some .bitrev) : w = 0x08000000 := by
  obtain ⟨r, hr, hs, hi⟩ := exists_row_of_decode h
  simp only [opcodeMap, List.mem_cons, List.not_mem_nil, or_false] at hr
  rcases hr with rfl | rfl | rfl | rfl | rfl | rfl | rfl | rfl | rfl | rfl | rfl <;> cases hi
  have hw : w &&& BitVec.allOnes 32 = 0x08000000 := of_decide_eq_true hs
  rwa [BitVec.and_allOnes] at hw

/-- An address is that of its region and its index (R61). -/
theorem addressOf_locate (a : Address) : addressOf (a.extractLsb' 24 4).toNat (a.extractLsb' 0 24).toNat = a := by
  apply BitVec.eq_of_toNat_eq
  rw [addressOf, BitVec.extractLsb'_toNat, BitVec.extractLsb'_toNat, BitVec.toNat_ofNat, Nat.shiftRight_eq_div_pow,
    Nat.shiftRight_eq_div_pow]
  have := a.isLt
  omega

theorem index_of_ofIndex {i : Nat} {r : Register} (h : Register.ofIndex i = some r) : i = r.index := by
  rw [Register.ofIndex.eq_def] at h
  split at h <;> cases h <;> rfl

/-- Only region 0 names a register (R63). -/
theorem locateParts_register {region i : Nat} {r : Register} (h : locateParts region i = .register r) :
    region = 0 ∧ i = r.index := by
  rw [locateParts.eq_def] at h
  split at h
  · split at h
    · cases h
      exact ⟨rfl, index_of_ofIndex ‹_›⟩
    · cases h
  all_goals simp [ite_eq_iff] at h

/-- An address that names a register is that register's (R30, R63). -/
theorem eq_of_locate_register {a : Address} {r : Register} (h : locate a = .register r) :
    a = BitVec.ofNat 28 r.index := by
  obtain ⟨hr, hi⟩ := locateParts_register h
  rw [← addressOf_locate a, hr, hi, addressOf, Nat.zero_mul, Nat.zero_add]

theorem locate_cmd : locate 5 = .register .cmd := by decide

/-! ### A host write by the state it finds (R67, R69) -/

theorem hostWrite_of_busy {a : Address} {s : State} (v : Word) (hb : s.status.busy = true)
    (hl : locate a ≠ .register .ctrl) : hostWrite a v s = s.raise .busy := by
  rw [hostWrite, if_pos hb, if_neg hl]

theorem hostWrite_of_idle {s : State} (a : Address) (v : Word) (hb : s.status.busy = false) :
    hostWrite a v s = writeLocation (locate a) v s :=
  if_neg (Bool.eq_false_iff.1 hb)

/-! ### Which state each command writes (R71) -/

/-- Everything the effect of a command can be: nothing, a scalar result, a new table, a new result, or the new contents of
the buffer the command names. -/
theorem commandEffect_cases (i : Instr) (s : State) :
    (i = .nop ∧ commandEffect i s = s) ∨
    ((i = .addm ∨ i = .subm ∨ i = .mulm ∨ i = .powm) ∧ ∃ f, commandEffect i s = s.scalar f) ∨
    (i = .bitrev ∧ commandEffect i s = s.buildRev) ∨
    (∃ d, i = .carry d ∧ commandEffect i s = s.normalise (s.buf d)) ∨
    (∃ d m, (i = .nttF d ∨ i = .nttI d ∨ (∃ b, i = .pwmul d b) ∨ i = .clr d) ∧ commandEffect i s = s.setBuf d m) := by
  cases i with
  | nop => exact .inl ⟨rfl, rfl⟩
  | addm => exact .inr (.inl ⟨.inl rfl, _, rfl⟩)
  | subm => exact .inr (.inl ⟨.inr (.inl rfl), _, rfl⟩)
  | mulm => exact .inr (.inl ⟨.inr (.inr (.inl rfl)), _, rfl⟩)
  | powm => exact .inr (.inl ⟨.inr (.inr (.inr rfl)), _, rfl⟩)
  | bitrev => exact .inr (.inr (.inl ⟨rfl, rfl⟩))
  | carry d => exact .inr (.inr (.inr (.inl ⟨d, rfl, rfl⟩)))
  | nttF d => exact .inr (.inr (.inr (.inr ⟨d, _, .inl rfl, rfl⟩)))
  | nttI d => exact .inr (.inr (.inr (.inr ⟨d, _, .inr (.inl rfl), rfl⟩)))
  | pwmul d b =>
    exact .inr (.inr (.inr (.inr ⟨d, _, .inr (.inr (.inl ⟨b, rfl⟩)), multiplyElems_eq_setBuf d b s⟩)))
  | clr d => exact .inr (.inr (.inr (.inr ⟨d, _, .inr (.inr (.inr rfl)), rfl⟩)))

/-- From `s` to `t` only the state that the command's rule names was written (R71). -/
structure OnlyTargets (i : Instr) (s t : State) : Prop where
  operands : SameOperands s t
  outside : SameOutside s t
  res : (i ≠ .addm ∧ i ≠ .subm ∧ i ≠ .mulm ∧ i ≠ .powm) → t.res = s.res
  table : i ≠ .bitrev → SameTable s t
  result : (∀ d, i ≠ .carry d) → SameResult s t
  buf : ∀ d, (i ≠ .nttF d ∧ i ≠ .nttI d ∧ (∀ b, i ≠ .pwmul d b) ∧ i ≠ .clr d) → t.buf d = s.buf d

theorem sameTable_failCommand (s : State) (e : ErrorCode) : SameTable s (s.failCommand e) :=
  ⟨rfl, by simp, by simp⟩

theorem onlyTargets_failCommand (i : Instr) (s : State) (e : ErrorCode) : OnlyTargets i s (s.failCommand e) where
  operands := ⟨rfl, rfl, rfl, rfl⟩
  outside := ⟨rfl, rfl, rfl⟩
  res _ := rfl
  table _ := sameTable_failCommand s e
  result _ := ⟨rfl, rfl⟩
  buf _ _ := by simp

theorem onlyTargets_commandEffect (i : Instr) (s : State) : OnlyTargets i s (commandEffect i s).finish := by
  rcases commandEffect_cases i s with ⟨rfl, e⟩ | ⟨hi, f, e⟩ | ⟨rfl, e⟩ | ⟨d, rfl, e⟩ | ⟨d, m, hi, e⟩ <;> rw [e]
  · exact ⟨⟨rfl, rfl, rfl, rfl⟩, ⟨rfl, rfl, rfl⟩, fun _ => rfl, fun _ => ⟨rfl, rfl, rfl⟩, fun _ => ⟨rfl, rfl⟩,
      fun _ _ => by simp⟩
  · exact ⟨⟨rfl, rfl, rfl, rfl⟩, ⟨rfl, rfl, rfl⟩, fun h => by tauto, fun _ => ⟨rfl, rfl, rfl⟩, fun _ => ⟨rfl, rfl⟩,
      fun _ _ => by simp⟩
  · exact ⟨⟨rfl, rfl, rfl, rfl⟩, ⟨rfl, rfl, rfl⟩, fun _ => rfl, fun h => absurd rfl h, fun _ => ⟨rfl, rfl⟩,
      fun _ _ => by simp⟩
  · exact ⟨⟨rfl, rfl, rfl, rfl⟩, ⟨rfl, rfl, rfl⟩, fun _ => rfl, fun _ => ⟨rfl, rfl, rfl⟩, fun h => absurd rfl (h d),
      fun _ _ => by simp⟩
  · refine ⟨by constructor <;> simp, by constructor <;> simp, fun _ => by simp, fun _ => by constructor <;> simp,
      fun _ => by constructor <;> simp, fun b hb => ?_⟩
    have hne : b ≠ d := by
      rintro rfl
      obtain ⟨hF, hI, hP, hC⟩ := hb
      rcases hi with h | h | ⟨b', h⟩ | h
      · exact hF h
      · exact hI h
      · exact hP b' h
      · exact hC h
    rw [State.finish_buf, State.setBuf_buf, if_neg hne]

/-- A command writes its targets only, whether it finishes or fails. -/
theorem onlyTargets_of_exec {i : Instr} {s t : State} (h : exec i s = .next t) : OnlyTargets i s t := by
  rcases exec_next h with ⟨_, rfl⟩ | ⟨_, _, rfl⟩ | ⟨_, _, _, rfl⟩
  · exact onlyTargets_commandEffect i s
  · exact onlyTargets_failCommand i s _
  · exact onlyTargets_failCommand i s _

/-! ### What a step can do to the table and to the result -/

theorem hostRead_keeps_table_result (a : Address) (s : State) :
    SameTable s (hostRead a s) ∧ SameResult s (hostRead a s) := by
  rcases hostRead_cases a s with ⟨_, e⟩ | ⟨_, _, _, e⟩ | ⟨_, _, e⟩ <;> rw [e]
  · exact ⟨⟨rfl, by simp, by simp⟩, ⟨rfl, rfl⟩⟩
  · exact ⟨⟨rfl, rfl, rfl⟩, ⟨rfl, rfl⟩⟩
  · exact ⟨⟨rfl, rfl, rfl⟩, ⟨rfl, rfl⟩⟩

/-- A host write is the soft reset, or it leaves the table and the result alone. -/
theorem hostWrite_resets_or_keeps (a : Address) (v : Word) (s : State) :
    (a = 2 ∧ v.getLsbD 0 = true ∧ hostWrite a v s = s.resetMachine) ∨
    (SameTable s (hostWrite a v s) ∧ SameResult s (hostWrite a v s)) := by
  rcases hostWrite_cases a v s with e | ⟨e, hl, hv⟩ | ⟨_, e⟩ | ⟨_, _, e⟩ | ⟨_, e⟩ | ⟨_, _, e⟩ | ⟨_, _, e⟩ |
    ⟨_, _, b, i, _, e⟩
  case inr.inl => exact .inl ⟨eq_of_locate_register hl, hv, e⟩
  all_goals
    rw [e]
    refine .inr ⟨?_, ?_⟩ <;> constructor <;> simp

/-- The engine's turn changes the table and the result only by executing a command. -/
theorem engineTurn_keeps_or_executes {s t : State} (h : engineTurn s = .next t) :
    (SameTable s t ∧ SameResult s t) ∨
    (s.status.busy = true ∧ ∃ i, decode s.cmd = some i ∧ exec i s = .next t) := by
  rcases engineTurn_next h with ⟨_, rfl⟩ | ⟨_, _, rfl⟩ | ⟨hb, i, hd, h⟩
  · exact .inl ⟨⟨rfl, rfl, rfl⟩, ⟨rfl, rfl⟩⟩
  · exact .inl ⟨sameTable_failCommand s _, ⟨rfl, rfl⟩⟩
  · exact .inr ⟨hb, i, hd, h⟩

/-- Everything a step can do to the table and to the result: nothing, what the pending command does, or a reset. -/
theorem step_keeps_executes_or_resets {s t : State} (h : step s = .next t) :
    (SameTable s t ∧ SameResult s t) ∨
    (∃ r, (s.script = [] ∨ s.script = .wait :: r) ∧ s.status.busy = true ∧
      ∃ i, decode s.cmd = some i ∧ exec i { s with script := r } = .next t) ∨
    (∃ r, s.script = .resetInput :: r ∨ ∃ v : Word, v.getLsbD 0 = true ∧ s.script = .write 2 v :: r) ∧
      ∃ u, t = State.resetMachine u := by
  have take {r : List HostEvent} {t : State} :
      SameTable { s with script := r } t ∧ SameResult { s with script := r } t → SameTable s t ∧ SameResult s t :=
    fun ⟨hT, hR⟩ => ⟨⟨hT.rev, hT.revv, hT.revk⟩, ⟨hR.rlen, hR.dig⟩⟩
  rcases step_next h with ⟨hs, h⟩ | ⟨r, hs, h⟩ | ⟨a, r, hs, rfl⟩ | ⟨a, v, r, hs, rfl⟩ | ⟨r, hs, rfl⟩
  · have hu : { s with script := [] } = s := by rw [← hs]
    rcases engineTurn_keeps_or_executes h with hk | ⟨hb, i, hd, h⟩
    · exact .inl hk
    · exact .inr (.inl ⟨[], .inl hs, hb, i, hd, hu ▸ h⟩)
  · rcases engineTurn_keeps_or_executes h with hk | ⟨hb, i, hd, h⟩
    · exact .inl (take hk)
    · exact .inr (.inl ⟨r, .inr hs, hb, i, hd, h⟩)
  · exact .inl (take (hostRead_keeps_table_result a _))
  · rcases hostWrite_resets_or_keeps a v { s with script := r } with ⟨rfl, hv, e⟩ | hk
    · exact .inr (.inr ⟨⟨r, .inr ⟨v, hv, hs⟩⟩, _, e⟩)
    · exact .inl (take hk)
  · exact .inr (.inr ⟨⟨r, .inl hs⟩, _, rfl⟩)

/-! ### The table record (R34, R144) -/

theorem tableRecord_resetMachine (s : State) : s.resetMachine.TableRecord :=
  ⟨nofun, nofun, fun _ => rfl⟩

theorem State.TableRecord.of_same {s t : State} (hs : s.TableRecord) (h : SameTable s t) : t.TableRecord where
  bounded := by simpa only [h.revv, h.revk] using hs.bounded
  built := by simpa only [h.rev, h.revv, h.revk] using hs.built
  notBuilt := by simpa only [h.revv, h.revk] using hs.notBuilt

/-- BITREV leaves the table it records (R143). -/
theorem tableRecord_buildRev {s : State} (hk : s.k ≤ Config.KMAX) : s.buildRev.TableRecord where
  bounded _ := hk
  built _ i hi := by
    have hi : i < 2 ^ s.k := hi
    rw [State.buildRev_rev, get_buildTable, if_pos hi, toNat_revEntry hk]
    rfl
  notBuilt := nofun

theorem tableRecord_of_exec {i : Instr} {s t : State} (hs : s.TableRecord) (h : exec i s = .next t) :
    t.TableRecord := by
  by_cases hi : i = .bitrev
  · subst hi
    rcases exec_next h with ⟨⟨hk, _⟩, rfl⟩ | ⟨_, _, rfl⟩ | ⟨hu, _⟩
    · exact (tableRecord_buildRev (hk rfl)).of_same ⟨rfl, rfl, rfl⟩
    · exact hs.of_same (sameTable_failCommand s _)
    · cases hu
  · exact hs.of_same ((onlyTargets_of_exec h).table hi)

/-! ### The result record (R38, R42, R183) -/

theorem resultRecord_resetMachine (s : State) : s.resetMachine.ResultRecord :=
  ⟨fun _ => Nat.zero_le 9, Nat.zero_le _, fun h => absurd (show 1 < 0 from h) (by decide)⟩

theorem State.ResultRecord.of_same {s t : State} (hs : s.ResultRecord) (h : SameResult s t) : t.ResultRecord where
  digits := by simpa only [h.dig] using hs.digits
  count := by simpa only [h.rlen] using hs.count
  trimmed := by simpa only [h.rlen, h.dig] using hs.trimmed

/-- CARRY writes digits up to 9 and the trimmed count (R181 to R183), within the digit memory. -/
theorem resultRecord_normalise {s : State} (hk : s.k ≤ Config.KMAX) (m : Memory 32) (hs : s.ResultRecord) :
    (s.normalise m).ResultRecord := by
  obtain ⟨hn, hle, hdigit, habove, _, _⟩ := carryDigits_spec s.n m s.dig
  obtain ⟨_, htrim, _, htop⟩ := trim_spec (carryDigits s.n m s.dig).1 (Nat.one_le_two_pow.trans hn)
  have hcap : trim (carryDigits s.n m s.dig).1 (carryDigits s.n m s.dig).2 ≤ Config.DCAP :=
    htrim.trans (hle.trans (Nat.add_le_add_right (NCAP_of_le hk) 9))
  have hlen : (s.normalise m).rlen.toNat = trim (carryDigits s.n m s.dig).1 (carryDigits s.n m s.dig).2 :=
    Nat.mod_eq_of_lt (hcap.trans_lt (by decide))
  refine ⟨fun i => ?_, hlen ▸ hcap, fun h => ?_⟩
  · rw [State.normalise_dig]
    rcases Nat.lt_or_ge i (carryDigits s.n m s.dig).2 with hi | hi
    · exact hdigit i hi
    · rw [habove i hi]
      exact hs.digits i
  · rw [hlen] at h ⊢
    exact htop.resolve_left (Nat.ne_of_gt h)

theorem resultRecord_of_exec {i : Instr} {s t : State} (hs : s.ResultRecord) (h : exec i s = .next t) :
    t.ResultRecord := by
  by_cases hi : ∃ d, i = .carry d
  · obtain ⟨d, rfl⟩ := hi
    rcases exec_next h with ⟨⟨hk, _⟩, rfl⟩ | ⟨_, _, rfl⟩ | ⟨hu, _⟩
    · exact (resultRecord_normalise (hk rfl) (s.buf d) hs).of_same ⟨rfl, rfl⟩
    · exact hs.of_same ⟨rfl, rfl⟩
    · cases hu
  · exact hs.of_same ((onlyTargets_of_exec h).result fun d hd => hi ⟨d, hd⟩)

/-! ### The form of the memories (R40 to R42) -/

theorem memoryForm_resetMachine (s : State) : s.resetMachine.MemoryForm :=
  ⟨Memory.wf_nil _, Memory.wf_nil _, Memory.wf_nil _, Memory.wf_nil _⟩

theorem State.MemoryForm.of_same {s t : State} (hs : s.MemoryForm) (h0 : t.buf0 = s.buf0) (h1 : t.buf1 = s.buf1)
    (hr : t.rev = s.rev) (hd : t.dig = s.dig) : t.MemoryForm :=
  ⟨h0 ▸ hs.buf0, h1 ▸ hs.buf1, hr ▸ hs.rev, hd ▸ hs.dig⟩

theorem State.MemoryForm.buf {s : State} (h : s.MemoryForm) (d : Buffer) : (s.buf d).wf Config.NCAP := by
  cases d
  · exact h.buf0
  · exact h.buf1

theorem State.MemoryForm.setBuf {s : State} (h : s.MemoryForm) (d : Buffer) {m : Memory 32}
    (hm : m.wf Config.NCAP) : (s.setBuf d m).MemoryForm := by
  cases d
  · exact ⟨hm, h.buf1, h.rev, h.dig⟩
  · exact ⟨h.buf0, hm, h.rev, h.dig⟩

theorem memoryForm_commandEffect {i : Instr} {s : State} (hc : ChecksPass i s) (h : s.MemoryForm) :
    (commandEffect i s).MemoryForm := by
  have hn (hu : usesLength i = true) : s.n ≤ Config.NCAP := NCAP_of_le (hc.1 hu)
  have scalar (f : Nat → Nat → Nat) : (s.scalar f).MemoryForm := h.of_same rfl rfl rfl rfl
  cases i with
  | nop => exact h
  | addm => exact scalar addMod
  | subm => exact scalar subMod
  | mulm => exact scalar mulMod
  | powm => exact scalar powMod
  | bitrev => exact ⟨h.buf0, h.buf1, wf_buildTable h.rev (hn rfl), h.dig⟩
  | nttF d => exact h.setBuf d (wf_nttForward s.rev (h.buf d) (hc.1 rfl))
  | nttI d => exact h.setBuf d (wf_nttInverse s.rev (h.buf d) (hc.1 rfl))
  | pwmul d b =>
    rw [commandEffect, multiplyElems_eq_setBuf]
    exact h.setBuf d (wf_multiplyElems b (h.buf d) (hn rfl))
  | carry d => exact ⟨h.buf0, h.buf1, h.rev, wf_carryDigits (s.buf d) h.dig (hn rfl)⟩
  | clr d => exact h.setBuf d (wf_clearElems (h.buf d) (hn rfl))

theorem memoryForm_of_exec {i : Instr} {s t : State} (hs : s.MemoryForm) (h : exec i s = .next t) :
    t.MemoryForm := by
  rcases exec_next h with ⟨hc, rfl⟩ | ⟨_, _, rfl⟩ | ⟨_, _, _, rfl⟩
  · exact (memoryForm_commandEffect hc hs).of_same rfl rfl rfl rfl
  · exact hs.of_same rfl rfl rfl rfl
  · exact hs.of_same rfl rfl rfl rfl

/-! ### The fields of STATUS together (R34, R211) -/

theorem statusRecord_resetMachine (s : State) : s.resetMachine.StatusRecord :=
  ⟨by simp [State.reset, Status.reset], by simp [State.reset, Status.reset], Nat.zero_le 6⟩

theorem ErrorCode.code_ne_zero (e : ErrorCode) : e.code ≠ 0 := by
  cases e <;> decide

theorem ErrorCode.code_le (e : ErrorCode) : e.code.toNat ≤ 6 := by
  cases e <;> decide

theorem State.StatusRecord.of_same {s t : State} (hs : s.StatusRecord) (e : t.status = s.status) : t.StatusRecord :=
  ⟨by rw [e]; exact hs.busyDone, by rw [e]; exact hs.errCode, by rw [e]; exact hs.codeLe⟩

/-- An error record keeps ERR in step with ECODE (R213). -/
theorem statusRecord_raise {s : State} (hs : s.StatusRecord) (e : ErrorCode) : (s.raise e).StatusRecord := by
  refine ⟨by simpa using hs.busyDone, ?_, ?_⟩ <;> rw [State.raise_status, Status.record_ecode]
  · cases he : s.status.err with
    | true => simpa using hs.errCode.1 he
    | false => simpa using e.code_ne_zero
  · split
    · exact hs.codeLe
    · exact e.code_le

/-- With BUSY = 0 nothing is asked of DONE. -/
theorem statusRecord_of_idle {s t : State} (hs : s.StatusRecord) (hb : t.status.busy = false)
    (he : t.status.err = s.status.err) (hc : t.status.ecode = s.status.ecode) : t.StatusRecord :=
  ⟨by simp [hb], by rw [he, hc]; exact hs.errCode, by rw [hc]; exact hs.codeLe⟩

theorem statusRecord_failCommand {s : State} (hs : s.StatusRecord) (e : ErrorCode) :
    (s.failCommand e).StatusRecord :=
  statusRecord_of_idle (statusRecord_raise hs e) (by simp) (by simp) (by simp)

theorem finished_commandEffect (i : Instr) (s : State) : Finished s (commandEffect i s).finish := by
  rcases commandEffect_cases i s with ⟨_, e⟩ | ⟨_, f, e⟩ | ⟨_, e⟩ | ⟨d, _, e⟩ | ⟨d, m, _, e⟩ <;>
    constructor <;> simp [e]

theorem statusRecord_of_exec {i : Instr} {s t : State} (hs : s.StatusRecord) (h : exec i s = .next t) :
    t.StatusRecord := by
  rcases exec_next h with ⟨_, rfl⟩ | ⟨_, _, rfl⟩ | ⟨_, _, _, rfl⟩
  · have hf := finished_commandEffect i s
    exact statusRecord_of_idle hs hf.busy hf.err hf.ecode
  · exact statusRecord_failCommand hs _
  · exact statusRecord_failCommand hs _

/-! ### The obligations -/

/-- Settles O52: each command writes within the capacity of its target, and the host stores at mapped indices only. -/
theorem memoryFormIsKept : Obligations.MemoryFormIsKept := by
  intro s t hs h
  exact step_keeps (Q := State.MemoryForm)
    (command := fun _ _ _ => memoryForm_of_exec)
    (take := fun _ _ hs => hs.of_same rfl rfl rfl rfl)
    (raise := fun _ _ hs => hs.of_same rfl rfl rfl rfl)
    (fail := fun _ _ hs => hs.of_same rfl rfl rfl rfl)
    (answer := fun _ _ hs => hs.of_same rfl rfl rfl rfl)
    (draw := fun _ hs => hs.of_same rfl rfl rfl rfl)
    (reset := memoryForm_resetMachine)
    (accept := fun _ _ _ hs => hs.of_same rfl rfl rfl rfl)
    (cfg := fun _ _ hs => hs.of_same rfl rfl rfl rfl)
    (opx := fun _ _ hs _ => hs.of_same rfl rfl rfl rfl)
    (opy := fun _ _ hs _ => hs.of_same rfl rfl rfl rfl)
    (store := fun _ b _ v hs hi _ => hs.setBuf b (Memory.wf_set (hs.buf b) v hi)) hs h

/-- Settles O55: only BITREV and a reset write the table, and each leaves what its record says. -/
theorem tableRecordIsKept : Obligations.TableRecordIsKept := by
  intro s t hs h
  rcases step_keeps_executes_or_resets h with ⟨hT, _⟩ | ⟨r, _, _, i, _, h⟩ | ⟨_, u, rfl⟩
  · exact hs.of_same hT
  · exact tableRecord_of_exec (s := { s with script := r }) (hs.of_same ⟨rfl, rfl, rfl⟩) h
  · exact tableRecord_resetMachine u

/-- Settles O56: only CARRY and a reset write the result. -/
theorem resultRecordIsKept : Obligations.ResultRecordIsKept := by
  intro s t hs h
  rcases step_keeps_executes_or_resets h with ⟨_, hR⟩ | ⟨r, _, _, i, _, h⟩ | ⟨_, u, rfl⟩
  · exact hs.of_same hR
  · exact resultRecord_of_exec (s := { s with script := r }) (hs.of_same ⟨rfl, rfl⟩) h
  · exact resultRecord_resetMachine u

/-- Settles O16, by the frame of every command. -/
theorem commandsWriteOnlyTheirTargets : Obligations.CommandsWriteOnlyTheirTargets := by
  intro i s t h
  have ht := onlyTargets_of_exec h
  exact ⟨ht.operands, ht.outside, ht.res, ht.table, ht.result, ht.buf⟩

/-- Settles O18: of the commands only BITREV writes the table, and it has one word. -/
theorem onlyBitrevAndResetWriteTheTable : Obligations.OnlyBitrevAndResetWriteTheTable := by
  intro s t h
  rcases step_keeps_executes_or_resets h with ⟨hT, _⟩ | ⟨r, hr, hb, i, hd, h⟩ | ⟨hr, _⟩
  · exact .inl hT
  · by_cases hi : i = .bitrev
    · exact .inr (.inl ⟨hb, eq_of_decode_bitrev (hi ▸ hd), hr.imp_right fun h => ⟨r, h⟩⟩)
    · have hT := (onlyTargets_of_exec h).table hi
      exact .inl ⟨hT.rev, hT.revv, hT.revk⟩
  · exact .inr (.inr hr)

/-- Settles O25: the three cases of a CMD write, and the engine's step on the word accepted. -/
theorem commandAcceptance : Obligations.CommandAcceptance := by
  intro s w
  refine ⟨fun hb => ?_, fun hb he => ?_, fun hb he => ?_⟩
  · rw [hostWrite_of_busy w hb (by rw [locate_cmd]; decide)]
    exact onlyRecords_raise .busy s
  · rw [hostWrite_of_idle 5 w hb, locate_cmd]
    exact if_pos he
  · have ha : hostWrite 5 w s = s.acceptCommand w := by
      rw [hostWrite_of_idle 5 w hb, locate_cmd]
      exact if_neg (Bool.eq_false_iff.1 he)
    rw [ha]
    have hstep (hs : s.script = []) : step (s.acceptCommand w) = engineStep (s.acceptCommand w) :=
      (step_of_nil (s := s.acceptCommand w) hs).trans (engineTurn_of_busy rfl)
    exact ⟨rfl, hstep, fun hs hw => ⟨_, (hstep hs).trans (engineStep_of_illegal hw), onlyFails_failCommand _ _⟩⟩

/-- Settles O54: an error record sets ERR and ECODE together, and BUSY is set only as DONE is cleared. -/
theorem statusRecordIsKept : Obligations.StatusRecordIsKept := by
  intro s t hs h
  exact step_keeps (Q := State.StatusRecord)
    (command := fun _ _ _ => statusRecord_of_exec)
    (take := fun _ _ hs => hs.of_same rfl)
    (raise := fun _ e hs => statusRecord_raise hs e)
    (fail := fun _ e hs => statusRecord_failCommand hs e)
    (answer := fun _ _ hs => hs.of_same rfl)
    (draw := fun _ hs => hs.of_same rfl)
    (reset := statusRecord_resetMachine)
    (accept := fun _ _ _ hs => ⟨by simp, hs.errCode, hs.codeLe⟩)
    (cfg := fun _ _ hs => hs.of_same rfl)
    (opx := fun _ _ hs _ => hs.of_same rfl)
    (opy := fun _ _ hs _ => hs.of_same rfl)
    (store := fun _ _ _ _ hs _ _ => hs.of_same (by simp)) hs h

/-- Settles O11: the engine moves next when nothing is to come or a `wait` is. -/
theorem stepRunsTheDecodedCommand : Obligations.StepRunsTheDecodedCommand := by
  intro s i hb hd
  have turn (r : List HostEvent) : engineTurn { s with script := r } = exec i { s with script := r } :=
    (engineTurn_of_busy (s := { s with script := r }) hb).trans (engineStep_of_decode hd)
  exact ⟨fun hs => (step_of_nil hs).trans (turn s.script), fun rest hs => (step_of_cons hs).trans (turn rest)⟩

/-- Settles O12, one equation of `step` for each event. -/
theorem stepTakesTheNextEvent : Obligations.StepTakesTheNextEvent := by
  intro s rest
  exact ⟨fun a hs => step_of_cons hs, fun a v hs => step_of_cons hs, fun hs => step_of_cons hs,
    fun hb hs => (step_of_cons hs).trans (engineTurn_of_idle (s := { s with script := rest }) hb),
    fun hb hs => (step_of_nil hs).trans (engineTurn_of_idle hb)⟩

/-- Settles O28, by evaluating each register and each memory of the reset state. -/
theorem resetStateIsAsTabulated : Obligations.ResetStateIsAsTabulated :=
  ⟨rfl, rfl, rfl, rfl, rfl, rfl, rfl, rfl, rfl, rfl, rfl, fun _ => ⟨rfl, rfl, rfl, rfl⟩⟩

/-- Settles O51: the reset state is what the reset event leaves. -/
theorem invariantHoldsAtReset : Obligations.InvariantHoldsAtReset where
  memoryForm := memoryForm_resetMachine State.reset
  fieldElements := ⟨P_pos, P_pos, P_pos, inField_nil, inField_nil⟩
  statusRecord := statusRecord_resetMachine State.reset
  tableRecord := tableRecord_resetMachine State.reset
  resultRecord := resultRecord_resetMachine State.reset

end Sys2Proof.Machine

/-! PROOFS. The host port (20_memory.md): what an address names, what a read returns and a write does in an idle and in a
busy block, and that no host event changes what the pending command does. -/

namespace Sys2Proof.Machine

/-! ### The address of a location (R61, R63, R101) -/

/-- The region of a buffer (R63). -/
def Buffer.region : Buffer → Nat
  | .b0 => 1
  | .b1 => 2

theorem exists_buffer_of_region {region : Nat} (h : region = 1 ∨ region = 2) : ∃ b, region = Buffer.region b := by
  rcases h with rfl | rfl
  · exact ⟨.b0, rfl⟩
  · exact ⟨.b1, rfl⟩

theorem Buffer.region_inj {b b' : Buffer} : Buffer.region b = Buffer.region b' ↔ b = b' := by
  cases b <;> cases b' <;> decide

theorem address_register (r : Register) : (Location.register r).address = addressOf 0 r.index := by
  rw [Location.address, addressOf, Nat.zero_mul, Nat.zero_add]

theorem address_buffer (b : Buffer) (i : Nat) : (Location.buffer b i).address = addressOf (Buffer.region b) i := by
  cases b <;> rfl

theorem locate_address_register (r : Register) : locate (Location.register r).address = .register r := by
  cases r <;> decide

theorem locate_address_buffer (b : Buffer) {i : Nat} (hi : i < Config.NCAP) :
    locate (Location.buffer b i).address = .buffer b i := by
  have := NCAP_eq
  cases b
  · exact (locate_addressOf (region := 1) (by decide) (by omega)).trans (if_pos hi)
  · exact (locate_addressOf (region := 2) (by decide) (by omega)).trans (if_pos hi)

theorem locate_address_rev {i : Nat} (hi : i < Config.NCAP) : locate (Location.rev i).address = .rev i := by
  have := NCAP_eq
  exact (locate_addressOf (region := 3) (by decide) (by omega)).trans (if_pos hi)

theorem locate_address_dig {i : Nat} (hi : i < Config.DCAP) : locate (Location.dig i).address = .dig i := by
  have := DCAP_eq
  exact (locate_addressOf (region := 4) (by decide) (by omega)).trans (if_pos hi)

/-- The address of what a region and an index name is made of that region and that index. -/
theorem address_locateParts {region i : Nat} (h : locateParts region i ≠ .unmapped) :
    (locateParts region i).address = addressOf region i := by
  revert h
  fun_cases locateParts region i with
  | case1 r hr => exact fun _ => index_of_ofIndex hr ▸ address_register r
  | case3 | case5 | case7 | case9 => exact fun _ => rfl
  | case2 | case4 | case6 | case8 | case10 | case11 => exact fun h => absurd rfl h

/-- Settles O27: each address is that of its region and its index, and `locate` takes it apart again. -/
theorem addressesNameTheirLocations : Obligations.AddressesNameTheirLocations :=
  ⟨locate_address_register, fun b _ => locate_address_buffer b, fun _ => locate_address_rev,
    fun _ => locate_address_dig, fun a h => (address_locateParts h).trans (addressOf_locate a)⟩

/-! ### The words a read returns (R34, R35, R62) -/

theorem toNat_append_eq_add {m n : Nat} (x : BitVec m) (y : BitVec n) :
    (x ++ y).toNat = 2 ^ n * x.toNat + y.toNat := by
  rw [BitVec.toNat_append, ← Nat.shiftLeft_add_eq_or_of_lt y.isLt, Nat.shiftLeft_eq, Nat.mul_comm]

theorem Status.toNat_toWord (st : Status) : st.toWord.toNat =
    st.busy.toNat + 2 * st.done.toNat + 4 * st.err.toNat + 8 * st.revv.toNat + 16 * st.ecode.toNat +
      256 * st.revk.toNat := by
  simp only [Status.toWord, toNat_append_eq_add, BitVec.toNat_ofBool, BitVec.ofNat_eq_ofNat,
    BitVec.toNat_zero]
  omega

theorem extractLsb'_logn (v : Word) : v.extractLsb' 0 5 = BitVec.ofNat 5 (v.toNat % 32) := by
  apply BitVec.eq_of_toNat_eq
  rw [BitVec.extractLsb'_toNat, Nat.shiftRight_zero, BitVec.toNat_ofNat, Nat.mod_mod]

/-- CFG reads as the low five bits of the word written (R35). -/
theorem setWidth_logn (v : Word) : (v.extractLsb' 0 5).setWidth 32 = v &&& 0x1F := by
  apply BitVec.eq_of_toNat_eq
  rw [BitVec.toNat_setWidth_of_le (by decide), BitVec.extractLsb'_toNat, Nat.shiftRight_zero, BitVec.toNat_and]
  exact (Nat.and_two_pow_sub_one_eq_mod v.toNat 5).symm

/-! ### Host reads of an idle block (R66) -/

theorem hostRead_of_unmapped {a : Address} (s : State) (hl : locate a = .unmapped) :
    hostRead a s = (s.raise .access).answer 0 := by
  rw [hostRead, hl]
  rfl

theorem hostRead_of_idle {a : Address} {s : State} (hb : s.status.busy = false) (hl : locate a ≠ .unmapped) :
    hostRead a s = s.answer ((locate a).value s) := by
  rw [hostRead, readLocation, if_neg hl, hb, Bool.false_and, if_neg Bool.false_ne_true]

theorem readRefused_of_unmapped {a : Address} (s : State) (hl : locate a = .unmapped) :
    ReadRefused s (hostRead a s) := by
  rw [hostRead_of_unmapped s hl]
  exact ⟨rfl, onlyRecords_raise .access s⟩

theorem readReturns_of_locate {a : Address} {l : Location} {s : State} (hb : s.status.busy = false)
    (hl : locate a = l) (hm : l ≠ .unmapped) : ReadReturns (l.value s) s (hostRead a s) := by
  subst hl
  exact hostRead_of_idle hb hm

theorem lastRead_of_locate {a : Address} {l : Location} {s : State} (hb : s.status.busy = false)
    (hl : locate a = l) (hm : l ≠ .unmapped) : (hostRead a s).lastRead = some (l.value s) :=
  congrArg State.lastRead (readReturns_of_locate hb hl hm)

/-- Settles O21: a mapped location returns its value, each narrower one zero-extended, and an unmapped one is refused. -/
theorem hostReadWhileIdle : Obligations.HostReadWhileIdle := by
  intro s region i hr hi hb
  have register (r : Register) : ReadReturns (r.value s) s (hostRead (Location.register r).address s) :=
    readReturns_of_locate hb (locate_address_register r) nofun
  have buffer (b : Buffer) (h : i < Config.NCAP) :
      ReadReturns ((s.buf b).get i) s (hostRead (Location.buffer b i).address s) :=
    readReturns_of_locate hb (locate_address_buffer b h) nofun
  refine ⟨?id, ?cap, ?ctrl, ?status, ?cfg, ?cmd, ?opx, ?opy, ?res, ?rlen, ?buf0, ?buf1, ?rev, ?dig, ?unmapped⟩
  case unmapped => exact fun h => readRefused_of_unmapped s ((locate_addressOf hr hi).trans (locateParts_unmapped h))
  all_goals rintro rfl
  case buf0 => exact buffer .b0
  case buf1 => exact buffer .b1
  case rev =>
    exact fun h => ⟨_, readReturns_of_locate hb (locate_address_rev h) nofun, BitVec.toNat_setWidth_of_le (by decide)⟩
  case dig =>
    exact fun h => ⟨_, readReturns_of_locate hb (locate_address_dig h) nofun, BitVec.toNat_setWidth_of_le (by decide)⟩
  all_goals rintro rfl
  case id => exact register .id
  case cap => exact register .cap
  case ctrl => exact register .ctrl
  case status => exact ⟨_, register .status, s.status.toNat_toWord⟩
  case cfg => exact ⟨_, register .cfg, BitVec.toNat_setWidth_of_le (by decide)⟩
  case cmd => exact register .cmd
  case opx => exact register .opx
  case opy => exact register .opy
  case res => exact register .res
  case rlen => exact ⟨_, register .rlen, BitVec.toNat_setWidth_of_le (by decide)⟩

/-! ### Host writes to an idle block (R67) -/

theorem writeCtrl_of_set {v : Word} (s : State) (h : v.getLsbD 0 = true) : writeCtrl v s = s.resetMachine :=
  if_pos h

theorem writeCtrl_of_clear {v : Word} (s : State) (h : v.getLsbD 0 = false) : writeCtrl v s = s :=
  if_neg (Bool.eq_false_iff.1 h)

theorem writeCmd_of_err {s : State} (v : Word) (h : s.status.err = true) : writeCmd v s = s :=
  if_pos h

theorem writeCmd_of_errorFree {s : State} (v : Word) (h : s.status.err = false) : writeCmd v s = s.acceptCommand v :=
  if_neg (Bool.eq_false_iff.1 h)

theorem writeElement_of_lt {v : Word} (store : State → State) (s : State) (h : v.toNat < Config.P) :
    writeElement v store s = store s :=
  if_pos h

theorem writeElement_of_le {v : Word} (store : State → State) (s : State) (h : Config.P ≤ v.toNat) :
    writeElement v store s = s.raise .range :=
  if_neg (Nat.not_lt.2 h)

theorem writeRegister_opx_of_lt {v : Word} (s : State) (h : v.toNat < Config.P) :
    writeRegister .opx v s = { s with opx := v } := by
  rw [writeRegister, writeElement_of_lt _ s h]

theorem writeRegister_opy_of_lt {v : Word} (s : State) (h : v.toNat < Config.P) :
    writeRegister .opy v s = { s with opy := v } := by
  rw [writeRegister, writeElement_of_lt _ s h]

theorem writeRegister_operand_of_le {r : Register} (hr : r = .opx ∨ r = .opy) {v : Word} (s : State)
    (h : Config.P ≤ v.toNat) : writeRegister r v s = s.raise .range := by
  rcases hr with rfl | rfl <;> rw [writeRegister, writeElement_of_le _ s h]

theorem hostWrite_register {s : State} (r : Register) (v : Word) (hb : s.status.busy = false) :
    hostWrite (Location.register r).address v s = writeRegister r v s := by
  rw [hostWrite_of_idle _ v hb, locate_address_register]
  rfl

theorem hostWrite_buffer {s : State} (b : Buffer) {i : Nat} (v : Word) (hb : s.status.busy = false)
    (hi : i < Config.NCAP) : hostWrite (Location.buffer b i).address v s =
      writeElement v (fun s => s.setBuf b ((s.buf b).set i v)) s := by
  rw [hostWrite_of_idle _ v hb, locate_address_buffer b hi]
  rfl

/-- The index in regions 3 and 4 does not matter to a write: the memories are read-only, and beyond them nothing is mapped
(R67). -/
theorem writeLocation_readOnly_region {region : Nat} (h : region = 3 ∨ region = 4) (i : Nat) (v : Word) (s : State) :
    writeLocation (locateParts region i) v s = s.raise .access := by
  rcases h with rfl | rfl
  · by_cases hi : i < Config.NCAP
    · rw [show locateParts 3 i = .rev i from if_pos hi, writeLocation]
    · rw [show locateParts 3 i = .unmapped from if_neg hi, writeLocation]
  · by_cases hi : i < Config.DCAP
    · rw [show locateParts 4 i = .dig i from if_pos hi, writeLocation]
    · rw [show locateParts 4 i = .unmapped from if_neg hi, writeLocation]

theorem onlyRecords_of_eq_raise {e : ErrorCode} {s t : State} (h : t = s.raise e) : OnlyRecords e s t :=
  h ▸ onlyRecords_raise e s

theorem onlyStores_hostWrite {s : State} (b : Buffer) {i : Nat} {v : Word} (hb : s.status.busy = false)
    (hi : i < Config.NCAP) (hv : v.toNat < Config.P) :
    OnlyStores b i v s (hostWrite (Location.buffer b i).address v s) := by
  rw [hostWrite_buffer b v hb hi, writeElement_of_lt _ s hv]
  exact onlyStores_setBuf b i v s

/-- Settles O22: the address check picks the location, whose own rule then decides. -/
theorem hostWriteWhileIdle : Obligations.HostWriteWhileIdle := by
  intro s region i v hr hi hb
  have register (r : Register) {t : State} (h : writeRegister r v s = t) :
      hostWrite (Location.register r).address v s = t := (hostWrite_register r v hb).trans h
  have place : hostWrite (addressOf region i) v s = writeLocation (locateParts region i) v s := by
    rw [hostWrite_of_idle _ v hb, locate_addressOf hr hi]
  refine ⟨?ctrlSet, ?ctrlClear, ?cfg, ?cmdErr, ?cmd, ?opx, ?opy, ?operandLarge, ?readOnly, ?buf0, ?buf1, ?elementLarge,
    ?memories, ?unmapped⟩
  case elementLarge =>
    intro h hn hv
    obtain ⟨b, rfl⟩ := exists_buffer_of_region h
    rw [← address_buffer]
    exact onlyRecords_of_eq_raise ((hostWrite_buffer b v hb hn).trans (writeElement_of_le _ s hv))
  case memories => exact fun h => onlyRecords_of_eq_raise (place.trans (writeLocation_readOnly_region h i v s))
  case unmapped =>
    intro h
    rw [locateParts_unmapped h] at place
    exact onlyRecords_of_eq_raise place
  all_goals rintro rfl
  case operandLarge =>
    rintro (rfl | rfl) hv
    · exact onlyRecords_of_eq_raise (register .opx (writeRegister_operand_of_le (.inl rfl) s hv))
    · exact onlyRecords_of_eq_raise (register .opy (writeRegister_operand_of_le (.inr rfl) s hv))
  case readOnly =>
    rintro (rfl | rfl | rfl | rfl | rfl)
    · exact onlyRecords_of_eq_raise (register .id rfl)
    · exact onlyRecords_of_eq_raise (register .cap rfl)
    · exact onlyRecords_of_eq_raise (register .status rfl)
    · exact onlyRecords_of_eq_raise (register .res rfl)
    · exact onlyRecords_of_eq_raise (register .rlen rfl)
  case buf0 => exact onlyStores_hostWrite .b0 hb
  case buf1 => exact onlyStores_hostWrite .b1 hb
  all_goals rintro rfl
  case ctrlSet => exact fun h => register .ctrl (writeCtrl_of_set s h)
  case ctrlClear => exact fun h => register .ctrl (writeCtrl_of_clear s h)
  case cfg => exact register .cfg (extractLsb'_logn v ▸ rfl)
  case cmdErr => exact fun h => register .cmd (writeCmd_of_err v h)
  case cmd => exact fun h => register .cmd (writeCmd_of_errorFree v h)
  case opx => exact fun h => register .opx (writeRegister_opx_of_lt s h)
  case opy => exact fun h => register .opy (writeRegister_opy_of_lt s h)

/-! ### Host writes to a busy block (R69) -/

/-- CTRL is honoured in every state. -/
theorem hostWrite_ctrl {a : Address} (v : Word) (s : State) (hl : locate a = .register .ctrl) :
    hostWrite a v s = writeCtrl v s := by
  rw [hostWrite, hl, if_pos rfl]
  exact ite_self _

/-- Settles O24: an address other than that of CTRL does not name CTRL. -/
theorem hostWriteWhileBusy : Obligations.HostWriteWhileBusy := by
  intro s region i v hr hi hb
  refine ⟨?_, ?_, fun h => ?_⟩
  · rintro rfl rfl h
    exact (hostWrite_ctrl v s (locate_address_register .ctrl)).trans (writeCtrl_of_set s h)
  · rintro rfl rfl h
    exact (hostWrite_ctrl v s (locate_address_register .ctrl)).trans (writeCtrl_of_clear s h)
  · have hl : locate (addressOf region i) ≠ .register .ctrl := by
      rw [locate_addressOf hr hi]
      exact fun hl => h (locateParts_register hl)
    exact onlyRecords_of_eq_raise (hostWrite_of_busy v hb hl)

/-! ### What is stored reads back (R67, R68) -/

theorem lastRead_buffer {s : State} (b : Buffer) {i : Nat} (hb : s.status.busy = false) (hi : i < Config.NCAP) :
    (hostRead (addressOf (Buffer.region b) i) s).lastRead = some ((s.buf b).get i) := by
  rw [← address_buffer]
  exact lastRead_of_locate hb (locate_address_buffer b hi) nofun

/-- The element at an index of a buffer after a store to an index of a buffer. -/
theorem get_buf_setBuf_set (s : State) (b b' : Buffer) (i i' : Nat) (v : Word) :
    ((s.setBuf b ((s.buf b).set i v)).buf b').get i' = if b' = b ∧ i' = i then v else (s.buf b').get i' := by
  rw [State.setBuf_buf]
  by_cases hb : b' = b
  · subst hb
    rw [if_pos rfl, Memory.get_set]
    simp
  · rw [if_neg hb, if_neg fun h => hb h.1]

/-- Settles O26: a store changes the value of its own location only, and a read returns that value. -/
theorem storedValueReadsBack : Obligations.StoredValueReadsBack := by
  intro s v hb hv
  refine ⟨?_, ?_, fun region i region' i' hr hr' hi hi' => ?_⟩
  · rintro a (rfl | rfl)
    · rw [show hostWrite 6 v s = { s with opx := v } from
        (hostWrite_register .opx v hb).trans (writeRegister_opx_of_lt s hv)]
      exact lastRead_of_locate (l := .register .opx) hb (locate_address_register .opx) nofun
    · rw [show hostWrite 7 v s = { s with opy := v } from
        (hostWrite_register .opy v hb).trans (writeRegister_opy_of_lt s hv)]
      exact lastRead_of_locate (l := .register .opy) hb (locate_address_register .opy) nofun
  · rw [show hostWrite 4 v s = { s with logn := v.extractLsb' 0 5 } from hostWrite_register .cfg v hb, ← setWidth_logn]
    exact lastRead_of_locate (l := .register .cfg) hb (locate_address_register .cfg) nofun
  · obtain ⟨b, rfl⟩ := exists_buffer_of_region hr
    obtain ⟨b', rfl⟩ := exists_buffer_of_region hr'
    have hw : hostWrite (addressOf (Buffer.region b) i) v s = s.setBuf b ((s.buf b).set i v) := by
      rw [← address_buffer, hostWrite_buffer b v hb hi, writeElement_of_lt _ s hv]
    rw [hw, lastRead_buffer b' (by rwa [State.setBuf_status]) hi', get_buf_setBuf_set, lastRead_buffer b' hb hi',
      apply_ite some]
    simp only [Buffer.region_inj]

/-! ### What the pending command computes (R75)

A command reads and writes the registers and the memories, and only adds to the error record: in two states with the same
`engineView` it has the same effect. -/

/-- The state without the error record and the model's own fields, which alone a host event changes in a busy block. -/
def State.engineView (s : State) : State :=
  { s with status := { s.status with err := false, ecode := 0 }, script := [], lastRead := none, draws := 0 }

theorem engineView_raise (e : ErrorCode) (s : State) : (s.raise e).engineView = s.engineView := by
  simp [State.engineView, State.raise]

theorem engineView_failCommand (e : ErrorCode) (s : State) :
    (s.engineView.failCommand e).engineView = (s.failCommand e).engineView := by
  simp [State.engineView, State.failCommand]

theorem engineView_buf (s : State) (d : Buffer) : s.engineView.buf d = s.buf d := by
  cases d <;> rfl

theorem engineView_setBuf (s : State) (d : Buffer) (m : Memory 32) :
    s.engineView.setBuf d m = (s.setBuf d m).engineView := by
  cases d <;> rfl

/-- A map that carries one loop body to another carries the one loop to the other. -/
theorem forUpTo_map {σ τ : Type} (f : σ → τ) {body : Nat → σ → σ} {body' : Nat → τ → τ}
    (h : ∀ i x, body' i (f x) = f (body i x)) (n : Nat) (x : σ) : forUpTo n body' (f x) = f (forUpTo n body x) := by
  induction n with
  | zero => rfl
  | succ n ih => rw [forUpTo_succ, ih, h, forUpTo_succ]

theorem engineView_multiplyElems (d b : Buffer) (s : State) :
    s.engineView.multiplyElems d b = (s.multiplyElems d b).engineView :=
  forUpTo_map State.engineView (fun i t => by rw [engineView_buf, engineView_buf, engineView_setBuf]) s.n s

theorem engineView_commandEffect (i : Instr) (s : State) :
    commandEffect i s.engineView = (commandEffect i s).engineView := by
  cases i with
  | nop => rfl
  | addm => rfl
  | subm => rfl
  | mulm => rfl
  | powm => rfl
  | bitrev => rfl
  | nttF d => rw [commandEffect, engineView_buf, engineView_setBuf]; rfl
  | nttI d => rw [commandEffect, engineView_buf, engineView_setBuf]; rfl
  | pwmul d b => exact engineView_multiplyElems d b s
  | carry d => rw [commandEffect, engineView_buf]; rfl
  | clr d => rw [commandEffect, engineView_buf, engineView_setBuf]; rfl

/-- What a command leaves of the engine's view is decided by the engine's view. -/
theorem exec_engineView {i : Instr} {s t : State} (h : exec i s = .next t) :
    ∃ u, exec i s.engineView = .next u ∧ u.engineView = t.engineView := by
  rcases exec_next h with ⟨hc, rfl⟩ | ⟨hu, hk, rfl⟩ | ⟨hu, hk, hv, rfl⟩
  · refine ⟨_, exec_of_checks hc, ?_⟩
    rw [engineView_commandEffect]
    rfl
  · exact ⟨_, exec_of_overflow hu hk, engineView_failCommand _ s⟩
  · exact ⟨_, exec_of_stale hu hk hv, engineView_failCommand _ s⟩

/-- A command has the same effect in states with the same engine's view. -/
theorem exec_engineView_congr {i : Instr} {s t s' t' : State} (h : t.engineView = s.engineView)
    (hs : exec i s = .next s') (ht : exec i t = .next t') : t'.engineView = s'.engineView := by
  obtain ⟨u, hu, hus⟩ := exec_engineView hs
  obtain ⟨w, hw, hwt⟩ := exec_engineView ht
  rw [h, hu] at hw
  cases hw
  exact hwt.symm.trans hus

theorem engineView_hostRead (a : Address) (s : State) : (hostRead a s).engineView = s.engineView := by
  rcases hostRead_cases a s with ⟨_, e⟩ | ⟨_, _, _, e⟩ | ⟨_, _, e⟩ <;> rw [e]
  · exact engineView_raise .access s
  · rfl
  · rfl

/-- A host write to a busy block, short of the soft reset, is dropped (R69). -/
theorem engineView_hostWrite {a : Address} {v : Word} {s : State} (hb : s.status.busy = true)
    (hr : a = 2 → v.getLsbD 0 = false) : (hostWrite a v s).engineView = s.engineView := by
  by_cases hl : locate a = .register .ctrl
  · rw [hostWrite_ctrl v s hl, writeCtrl_of_clear s (hr (eq_of_locate_register hl))]
  · rw [hostWrite_of_busy v hb hl]
    exact engineView_raise .busy s

/-- Settles O57: the event leaves the engine's view as it was, and the view decides the command's effect. -/
theorem pendingCommandIsUndisturbed : Obligations.PendingCommandIsUndisturbed := by
  refine ⟨fun s w ⟨hb, he⟩ => ?_, fun s t e i hb hreset hwait hctrl h => ?_⟩
  · obtain ⟨hw, _⟩ := (commandAcceptance s w).2.2 hb he
    rw [hw]
    exact ⟨rfl, rfl⟩
  · have hview : t.engineView = s.engineView := by
      cases e with
      | read a =>
        cases h
        exact engineView_hostRead a s
      | write a v =>
        cases h
        refine engineView_hostWrite hb ?_
        rintro rfl
        exact Bool.eq_false_iff.2 fun hv => hctrl v hv rfl
      | resetInput => exact absurd rfl hreset
      | wait => exact absurd rfl hwait
    have before {α : Type} (f : State → α) : f t.engineView = f s.engineView := congrArg f hview
    obtain ⟨s', hs⟩ := exec_total i s
    obtain ⟨t', ht⟩ := exec_total i t
    have after {α : Type} (f : State → α) : f t'.engineView = f s'.engineView :=
      congrArg f (exec_engineView_congr hview hs ht)
    exact ⟨before State.cmd, (before (·.status.busy)).trans hb, s', t', hs, ht, after (·.status.done), after State.res,
      after State.rlen, after State.buf0, after State.buf1, after State.dig,
      ⟨after State.rev, after (·.status.revv), after (·.status.revk)⟩,
      ⟨after State.logn, after State.cmd, after State.opx, after State.opy⟩⟩

end Sys2Proof.Machine

/-! PROOFS. The command encoding (30_encoding.md): the opcode map read as an encoder, the decoder and the encoder
inverse to each other, the 18 legal words, and the formats. -/

namespace Sys2Proof.Machine

/-! ### The fields of a word (R90) -/

theorem toWord_ofWord (w : Word) : (Fields.ofWord w).toWord = w := by
  simp only [Fields.toWord, Fields.ofWord, BitVec.extractLsb'_append_extractLsb'_eq_extractLsb',
    BitVec.extractLsb'_eq_self]

theorem Buffer.bit_ofBit (b : BitVec 1) : (Buffer.ofBit b).bit = b := by
  obtain rfl | rfl := BitVec.eq_zero_or_eq_one b <;> rfl

/-! ### All commands (R93) -/

/-- The eleven commands with every choice of their buffers. -/
def allCommands : List Instr :=
  [.nop, .addm, .subm, .mulm, .powm, .bitrev, .nttF .b0, .nttF .b1, .nttI .b0, .nttI .b1, .pwmul .b0 .b0,
    .pwmul .b1 .b0, .pwmul .b0 .b1, .pwmul .b1 .b1, .carry .b0, .carry .b1, .clr .b0, .clr .b1]

theorem mem_allCommands (i : Instr) : i ∈ allCommands := by
  cases i with
  | nop | addm | subm | mulm | powm | bitrev => decide
  | nttF d | nttI d | carry d | clr d => cases d <;> decide
  | pwmul d s => cases d <;> cases s <;> decide

/-- A fact about every command is one about each of the list. -/
theorem of_allCommands {p : Instr → Prop} (h : ∀ j ∈ allCommands, p j) (i : Instr) : p i :=
  h i (mem_allCommands i)

theorem ofWord_encode (i : Instr) : Fields.ofWord (encode i) = i.fields := by
  revert i
  exact of_allCommands (by decide)

/-! ### The rows of the opcode map (R93) -/

theorem selects_iff (r : Row) (w : Word) : r.selects w = true ↔ w &&& r.mask = r.pattern :=
  decide_eq_true_iff

theorem decode_isSome_iff (w : Word) : (decode w).isSome = true ↔ ∃ r ∈ opcodeMap, r.selects w = true := by
  rw [decode, Option.isSome_map, List.find?_isSome]

/-- Two rows that one word selects have patterns that agree where both masks are set. -/
theorem pattern_and_mask_eq {r r' : Row} {w : Word} (h : r.selects w = true) (h' : r'.selects w = true) :
    r.pattern &&& r'.mask = r'.pattern &&& r.mask := by
  rw [← (selects_iff r w).1 h, ← (selects_iff r' w).1 h', BitVec.and_assoc, BitVec.and_assoc,
    BitVec.and_comm r.mask]

/-- The rows are disjoint (R93): the patterns of two rows differ where both masks are set. -/
theorem opcodeMap_disjoint (w : Word) :
    opcodeMap.Pairwise fun r r' => ¬ (r.selects w = true ∧ r'.selects w = true) := by
  have hne : opcodeMap.Pairwise fun r r' => r.pattern &&& r'.mask ≠ r'.pattern &&& r.mask := by decide
  exact hne.imp fun hne ⟨h, h'⟩ => hne (pattern_and_mask_eq h h')

/-! ### A selected row encodes the word it decodes -/

/-- A word whose operand fields BS and BD name `s` and `d` and whose other bits are 0 (R90). -/
def operandBits (d s : Buffer) : Word :=
  (s.bit ++ d.bit).setWidth 32

theorem operandBits_of_word (w : Word) : operandBits (wordBd w) (wordBs w) = w &&& 3 := by
  rw [operandBits, wordBd, wordBs, Buffer.bit_ofBit, Buffer.bit_ofBit,
    BitVec.extractLsb'_append_extractLsb'_eq_extractLsb' (Nat.zero_add 1).symm]
  apply BitVec.eq_of_toNat_eq
  rw [BitVec.toNat_setWidth_of_le (by decide), BitVec.extractLsb'_toNat, Nat.shiftRight_zero, BitVec.toNat_and]
  exact (Nat.and_two_pow_sub_one_eq_mod w.toNat 2).symm

/-- The word of a row's command is the row's pattern with the operand bits that the row's mask leaves open. -/
theorem encode_build {r : Row} (hr : r ∈ opcodeMap) (d s : Buffer) :
    encode (r.build d s) = r.pattern ||| operandBits d s &&& ~~~r.mask := by
  revert r
  cases d <;> cases s <;> decide

/-- A row leaves no bits open but BS and BD. -/
theorem operandField_of_row {r : Row} (hr : r ∈ opcodeMap) : 3 &&& ~~~r.mask = ~~~r.mask := by
  revert r
  decide

theorem encode_build_of_selects {r : Row} (hr : r ∈ opcodeMap) {w : Word} (h : r.selects w = true) :
    encode (r.build (wordBd w) (wordBs w)) = w := by
  calc encode (r.build (wordBd w) (wordBs w))
      = r.pattern ||| (w &&& 3) &&& ~~~r.mask := by rw [encode_build hr, operandBits_of_word]
    _ = (w &&& r.mask) ||| (w &&& ~~~r.mask) := by
        rw [BitVec.and_assoc, operandField_of_row hr, (selects_iff r w).1 h]
    _ = w := by rw [← BitVec.and_or_distrib_left, BitVec.or_not_self, BitVec.and_allOnes]

/-! ### The decoder and the encoder, inverse to each other (R97) -/

theorem encode_of_decode {w : Word} {i : Instr} (h : decode w = some i) : encode i = w := by
  obtain ⟨r, hr, hs, rfl⟩ := exists_row_of_decode h
  exact encode_build_of_selects hr hs

theorem decode_encode (i : Instr) : decode (encode i) = some i := by
  revert i
  exact of_allCommands (by decide)

/-- Settles O6: a row that a word selects builds the command whose encoding the word is, and each of the 18 encodings
decodes to its command. -/
theorem decodeAgreesWithEncode : Obligations.DecodeAgreesWithEncode := by
  intro w i
  constructor
  · exact fun h => (encode_of_decode h).symm
  · rintro rfl
    exact decode_encode i

theorem decode_isSome_iff_exists_encode (w : Word) : (decode w).isSome = true ↔ ∃ i, encode i = w := by
  rw [Option.isSome_iff_exists]
  exact exists_congr fun i => (decodeAgreesWithEncode w i).trans eq_comm

/-- The words that decode are the encodings of all commands. -/
theorem decode_isSome_iff_mem (w : Word) : (decode w).isSome = true ↔ w ∈ allCommands.map encode := by
  simp only [decode_isSome_iff_exists_encode, List.mem_map, mem_allCommands, true_and]

/-- Settles O7: the rows as data, their disjointness from the patterns and masks, and the legal words as the encodings
of all commands. -/
theorem opcodeMapIsDisjointAndComplete : Obligations.OpcodeMapIsDisjointAndComplete := by
  refine ⟨by decide, fun d b => ?_, opcodeMap_disjoint, selects_iff, decode_isSome_iff, decode_isSome_iff_mem⟩
  cases d <;> cases b <;> decide

/-- Settles O9, by running the decoder on the eight words. -/
theorem sampleWordsDecode : Obligations.SampleWordsDecode := by
  unfold Obligations.SampleWordsDecode
  decide

/-! ### The formats (R91) -/

theorem formatObeyed (i : Instr) : Laws.FormatObeyed.Statement i := by
  cases i with
  | nop => exact Laws.FormatObeyed.nop
  | addm => exact Laws.FormatObeyed.addm
  | subm => exact Laws.FormatObeyed.subm
  | mulm => exact Laws.FormatObeyed.mulm
  | powm => exact Laws.FormatObeyed.powm
  | bitrev => exact Laws.FormatObeyed.bitrev
  | nttF d => exact Laws.FormatObeyed.nttF d
  | nttI d => exact Laws.FormatObeyed.nttI d
  | pwmul d s => exact Laws.FormatObeyed.pwmul d s
  | carry d => exact Laws.FormatObeyed.carry d
  | clr d => exact Laws.FormatObeyed.clr d

theorem Fields.wellFormed_iff (f : Fields) : f.wellFormed = true ↔
    ∃ fmt, Format.ofOpcode f.opc = some fmt ∧ f.reserved = 0 ∧ (fmt.usesDir = true ∨ f.dir = 0) ∧
      (fmt.usesBs = true ∨ f.bs = 0) ∧ (fmt.usesBd = true ∨ f.bd = 0) := by
  rw [Fields.wellFormed]
  cases Format.ofOpcode f.opc with
  | none => simp
  | some fmt => simp [and_assoc]

theorem Instr.wellFormed_eq_true (i : Instr) : i.wellFormed = true :=
  (Fields.wellFormed_iff i.fields).2 ⟨i.format, formatObeyed i⟩

/-- The opcodes of each format (R93). -/
theorem ofOpcode_cases {opc : BitVec 8} {fmt : Format} (h : Format.ofOpcode opc = some fmt) :
    (fmt = .z ∧ (opc = 0x00 ∨ opc = 0x01 ∨ opc = 0x02 ∨ opc = 0x03 ∨ opc = 0x04 ∨ opc = 0x08)) ∨
    (fmt = .t ∧ opc = 0x09) ∨ (fmt = .bb ∧ opc = 0x0A) ∨ (fmt = .b ∧ (opc = 0x0B ∨ opc = 0x0C)) := by
  rw [Format.ofOpcode] at h
  split_ifs at h with hz ht hbb hb <;> cases h
  · exact .inl ⟨rfl, hz⟩
  · exact .inr (.inl ⟨rfl, ht⟩)
  · exact .inr (.inr (.inl ⟨rfl, hbb⟩))
  · exact .inr (.inr (.inr ⟨rfl, hb⟩))

/-- Well-formed fields are those of a command: the opcode, with DIR for the transforms, names it, and BD and BS name its
buffers. -/
theorem Fields.exists_instr_of_wellFormed {f : Fields} (h : f.wellFormed = true) : ∃ i : Instr, i.fields = f := by
  obtain ⟨opc, reserved, dir, bs, bd⟩ := f
  obtain ⟨fmt, hf, rfl, hdir, hbs, hbd⟩ := (Fields.wellFormed_iff _).1 h
  obtain ⟨d, rfl⟩ : ∃ d : Buffer, d.bit = bd := ⟨_, Buffer.bit_ofBit bd⟩
  obtain ⟨s, rfl⟩ : ∃ s : Buffer, s.bit = bs := ⟨_, Buffer.bit_ofBit bs⟩
  obtain ⟨rfl, hopc⟩ | ⟨rfl, rfl⟩ | ⟨rfl, rfl⟩ | ⟨rfl, hopc⟩ := ofOpcode_cases hf <;>
    simp only [Format.usesDir, Format.usesBs, Format.usesBd, Bool.false_eq_true, false_or] at hdir hbs hbd
  · subst hdir
    rw [hbs, hbd]
    obtain rfl | rfl | rfl | rfl | rfl | rfl := hopc
    exacts [⟨.nop, rfl⟩, ⟨.addm, rfl⟩, ⟨.subm, rfl⟩, ⟨.mulm, rfl⟩, ⟨.powm, rfl⟩, ⟨.bitrev, rfl⟩]
  · rw [hbs]
    obtain rfl | rfl := BitVec.eq_zero_or_eq_one dir
    exacts [⟨.nttF d, rfl⟩, ⟨.nttI d, rfl⟩]
  · subst hdir
    exact ⟨.pwmul d s, rfl⟩
  · subst hdir
    rw [hbs]
    obtain rfl | rfl := hopc
    exacts [⟨.carry d, rfl⟩, ⟨.clr d, rfl⟩]

theorem decode_isSome_eq_wellFormed (w : Word) : (decode w).isSome = (Fields.ofWord w).wellFormed := by
  rw [Bool.eq_iff_iff, decode_isSome_iff_exists_encode]
  constructor
  · rintro ⟨i, rfl⟩
    rw [ofWord_encode]
    exact Instr.wellFormed_eq_true i
  · intro h
    obtain ⟨i, hi⟩ := Fields.exists_instr_of_wellFormed h
    exact ⟨i, by rw [encode, hi, toWord_ofWord]⟩

theorem encode_and_mustBeZero (i : Instr) : encode i &&& i.format.mustBeZero = 0 := by
  revert i
  exact of_allCommands (by decide)

/-- Settles O8: well-formed fields are those of a command, and the word that they make up is its encoding. -/
theorem formatsAgreeWithTheOpcodeMap : Obligations.FormatsAgreeWithTheOpcodeMap :=
  ⟨fun w => ⟨decode_isSome_eq_wellFormed w, toWord_ofWord w⟩,
    fun i => ⟨Instr.wellFormed_eq_true i, encode_and_mustBeZero i⟩⟩

/-! ### Illegal words (R94) -/

theorem decode_eq_none_of_ne_encode {w : Word} (h : ∀ i : Instr, w ≠ encode i) : decode w = none :=
  Option.eq_none_iff_forall_ne_some.2 fun i hi => h i (encode_of_decode hi).symm

/-- No command has a reserved opcode (R93). -/
theorem opcode_encode (i : Instr) : ((encode i).extractLsb' 24 8).toNat ≤ 0x04 ∨
    0x08 ≤ ((encode i).extractLsb' 24 8).toNat ∧ ((encode i).extractLsb' 24 8).toNat ≤ 0x0C := by
  revert i
  exact of_allCommands (by decide)

/-- Settles O10: a word that no command encodes to does not decode, and the engine's step then only fails. -/
theorem illegalWordRaisesOpcodeError : Obligations.IllegalWordRaisesOpcodeError := by
  refine ⟨fun s hb hs hne => ⟨s.failCommand .opcode, ?_, onlyFails_failCommand .opcode s⟩, ?_⟩
  · rw [step_of_nil hs, engineTurn_of_busy hb, engineStep_of_illegal (decode_eq_none_of_ne_encode hne)]
  · rintro i w hopc rfl
    have := opcode_encode i
    omega

end Sys2Proof.Machine

/-! PROOFS. Modular arithmetic (40_modular_arithmetic.md): the field functions give the least residues of the integer
operations, `pow_mod` gives the inverses, and each scalar command writes its function's value to RES. -/

namespace Sys2Proof.Machine

/-! ### Least residues modulo P -/

/-- A remainder modulo P is the one field element of its residue class, which is how R121, R123 and R124 give values. -/
theorem mod_P_unique (a : Nat) :
    a % Config.P < Config.P ∧ a % Config.P ≡ a [MOD Config.P] ∧
    ∀ z < Config.P, z ≡ a [MOD Config.P] → z = a % Config.P :=
  ⟨Nat.mod_lt _ P_pos, Nat.mod_modEq _ _, fun _ hz h => (Nat.mod_eq_of_modEq h.symm hz).symm⟩

/-- `sub_mod` as a remainder of the integer difference, which may be negative where R122's expressions are not. -/
theorem intCast_subMod {x y : Nat} (hx : x < Config.P) (hy : y < Config.P) :
    (subMod x y : Int) = ((x : Int) - y) % Config.P := by
  rw [subMod_eq hx hy, Int.natCast_emod, Nat.cast_sub (by omega), Nat.cast_add, add_sub_right_comm,
    Int.add_emod_right]

/-! ### Powers and inverses -/

/-- Fermat's little theorem for `pow_mod` (R131). -/
theorem powMod_P_sub_one {x : Nat} (h0 : x ≠ 0) (h : x < Config.P) : powMod x (Config.P - 1) = 1 := by
  have : Fact (Nat.Prime Config.P) := ⟨prime_P⟩
  refine eq_of_cast_eq (powMod_lt _ _) (by decide) ?_
  rw [cast_powMod, ZMod.pow_card_sub_one_eq_one (cast_ne_zero h0 h), Nat.cast_one]

theorem mulMod_powMod_inverse {x : Nat} (h0 : x ≠ 0) (h : x < Config.P) :
    mulMod x (powMod x (Config.P - 2)) = 1 := by
  refine eq_of_cast_eq (mulMod_lt _ _) (by decide) ?_
  rw [cast_mulMod, mul_powMod_inverse (cast_ne_zero h0 h), Nat.cast_one]

theorem powMod_zero_right (b : Nat) : powMod b 0 = 1 := by
  rw [powMod_eq, pow_zero]
  decide

theorem powMod_zero_left {e : Nat} (he : 1 ≤ e) : powMod 0 e = 0 := by
  rw [powMod_eq, zero_pow (Nat.ne_of_gt he), Nat.zero_mod]

/-- An exponent below P has at most 30 bits, so 30 turns of the loop are enough (R124). -/
theorem powMod_eq_powLoop_thirty (b : Nat) {e : Nat} (he : e ≤ Config.P - 1) : powMod b e = powLoop 30 1 b e := by
  rw [powMod_eq, powLoop_eq (by decide) (he.trans_lt (by decide)), Nat.one_mul]

/-! ### The scalar commands (R127) -/

/-- A command whose checks pass and whose effect is a scalar operation leaves in RES the value of its function, if that is
a field element, and writes nothing else. -/
theorem exists_next_of_scalar {i : Instr} {f : Nat → Nat → Nat} {s : State} (hc : ChecksPass i s)
    (he : commandEffect i s = s.scalar f) (hf : f s.opx.toNat s.opy.toNat < Config.P) :
    ∃ t, exec i s = .next t ∧ t.res.toNat = f s.opx.toNat s.opy.toNat ∧ OnlyRes s t := by
  refine ⟨(s.scalar f).finish, by rw [exec_of_checks hc, he], ?_, onlyRes_scalar f s⟩
  rw [State.finish_res, State.scalar_res, toNat_ofNat_of_lt_P hf]

/-! ### The obligations -/

/-- Settles O4: the loop of `pow_mod` computes the remainder of the power. -/
theorem powModIsTheFieldPower : Obligations.PowModIsTheFieldPower := by
  intro b e _
  obtain ⟨hlt, hmod, huniq⟩ := mod_P_unique (b ^ e)
  rw [← powMod_eq] at hlt hmod huniq
  exact ⟨hlt, hmod, huniq, powMod_zero_right b, powMod_zero_left, powMod_eq_powLoop_thirty b⟩

/-- Settles O5, by Fermat's little theorem; the inverse of 3 is evaluated. -/
theorem powModGivesInverses : Obligations.PowModGivesInverses :=
  ⟨fun _ h1 h => mulMod_powMod_inverse (Nat.ne_of_gt h1) h, powMod_zero_left (by decide), by decide, rfl⟩

/-- Settles O34: RES gets `pow_mod(OPX, OPY)`, and the two corner cases are Fermat's little theorem and the inverse it
gives. -/
theorem powmWritesTheFieldPower : Obligations.PowmWritesTheFieldPower := by
  refine ⟨by decide, fun s hx _ => ?_⟩
  obtain ⟨t, hexec, hres, honly⟩ := exists_next_of_scalar (i := .powm) (s := s) ⟨nofun, nofun⟩ rfl (powMod_lt _ _)
  refine ⟨t, hexec, hres.trans (powMod_eq _ _), honly, fun he h0 => ?_, fun he h0 => ?_⟩
  · rw [hres, he]
    exact powMod_P_sub_one h0 hx
  · rw [hres, he]
    exact mulMod_powMod_inverse h0 hx

/-- Settles O1: `add_mod` is the remainder of the sum. -/
theorem addModIsTheFieldSum : Obligations.AddModIsTheFieldSum := by
  intro x y hx hy
  obtain ⟨hlt, hmod, huniq⟩ := mod_P_unique (x + y)
  rw [← addMod_eq hx hy] at hlt hmod huniq
  exact ⟨hlt, hmod, huniq, (Nat.add_lt_add hx hy).trans (by decide)⟩

/-- Settles O2: `sub_mod` is the remainder of the integer difference. -/
theorem subModIsTheFieldDifference : Obligations.SubModIsTheFieldDifference := by
  intro x y hx hy
  refine ⟨subMod_lt hx hy, ?_, fun z hz h => ?_⟩
  · rw [intCast_subMod hx hy]
    exact Int.mod_modEq _ _
  · have hz' : (z : Int) % Config.P = z := Int.emod_eq_of_lt (Int.natCast_nonneg z) (Int.ofNat_lt.2 hz)
    apply Int.ofNat_inj.1
    rw [intCast_subMod hx hy, ← h, hz']

/-- Settles O3: `mul_mod` is by definition the remainder of the exact product. -/
theorem mulModIsTheFieldProduct : Obligations.MulModIsTheFieldProduct := by
  intro x y hx hy
  obtain ⟨hlt, hmod, huniq⟩ := mod_P_unique (x * y)
  exact ⟨hlt, hmod, huniq, (Nat.mul_lt_mul'' hx hy).trans (by decide)⟩

/-- Settles O31: RES gets `add_mod(OPX, OPY)`. -/
theorem addmWritesTheFieldSum : Obligations.AddmWritesTheFieldSum := by
  refine ⟨by decide, fun s hx hy => ?_⟩
  rw [← addMod_eq hx hy]
  exact exists_next_of_scalar (i := .addm) (s := s) ⟨nofun, nofun⟩ rfl (addMod_lt hx hy)

/-- Settles O32: RES gets `sub_mod(OPX, OPY)`. -/
theorem submWritesTheFieldDifference : Obligations.SubmWritesTheFieldDifference := by
  refine ⟨by decide, fun s hx hy => ?_⟩
  obtain ⟨t, hexec, hres, honly⟩ := exists_next_of_scalar (i := .subm) (s := s) ⟨nofun, nofun⟩ rfl (subMod_lt hx hy)
  exact ⟨t, hexec, by rw [hres, intCast_subMod hx hy], honly⟩

/-- Settles O33: RES gets `mul_mod(OPX, OPY)`. -/
theorem mulmWritesTheFieldProduct : Obligations.MulmWritesTheFieldProduct :=
  ⟨by decide, fun s _ _ => exists_next_of_scalar (i := .mulm) (s := s) ⟨nofun, nofun⟩ rfl (mulMod_lt _ _)⟩

end Sys2Proof.Machine

/-! PROOFS. The bit-reversal unit (41_bit_reversal.md): `rev_k` bit by bit, what BITREV leaves in the table, in its record
and in the rest of the state, and the words of an assigned opcode that are illegal. -/

namespace Sys2Proof.Machine

/-! ### Must-be-zero bits (R91, R94) -/

/-- A word that decodes has the format of its opcode and none of that format's must-be-zero bits. -/
theorem decode_eq_none_of_mustBeZero {w : Word} {fmt : Format} (hf : Format.ofOpcode (w.extractLsb' 24 8) = some fmt)
    (h : w &&& fmt.mustBeZero ≠ 0) : decode w = none := by
  refine decode_eq_none_of_ne_encode ?_
  rintro i rfl
  have hopc : (encode i).extractLsb' 24 8 = i.fields.opc := congrArg Fields.opc (ofWord_encode i)
  have hfmt : Format.ofOpcode i.fields.opc = some i.format := (formatObeyed i).1
  rw [hopc, hfmt] at hf
  cases hf
  exact h (encode_and_mustBeZero i)

/-- A pending word with a must-be-zero bit set fails with E_OPCODE and does nothing else. -/
theorem engineStep_onlyFails_of_mustBeZero {s : State} {fmt : Format}
    (hf : Format.ofOpcode (s.cmd.extractLsb' 24 8) = some fmt) (h : s.cmd &&& fmt.mustBeZero ≠ 0) :
    ∃ t, engineStep s = .next t ∧ OnlyFails .opcode s t :=
  ⟨_, engineStep_of_illegal (decode_eq_none_of_mustBeZero hf h), onlyFails_failCommand .opcode s⟩

/-- A command that uses n fails above KMAX with E_OVERFLOW and does nothing else (R97 check 2). -/
theorem exec_onlyFails_of_overflow {i : Instr} {s : State} (hu : usesLength i = true) (h : Config.KMAX < s.k) :
    ∃ t, exec i s = .next t ∧ OnlyFails .overflow s t :=
  ⟨_, exec_of_overflow hu h, onlyFails_failCommand .overflow s⟩

/-! ### BITREV (R143) -/

theorem exec_bitrev {s : State} (hk : s.k ≤ Config.KMAX) : exec .bitrev s = .next s.buildRev.finish :=
  exec_of_checks ⟨fun _ => hk, nofun⟩

theorem toNat_get_buildRev {s : State} (hk : s.k ≤ Config.KMAX) {i : Nat} (hi : i < s.n) :
    (s.buildRev.rev.get i).toNat = revBits s.k i :=
  (tableRecord_buildRev hk).built rfl i hi

/-- Entries at or above n keep what they held (R41). -/
theorem get_buildRev_of_le {s : State} {i : Nat} (hi : s.n ≤ i) : s.buildRev.rev.get i = s.rev.get i := by
  rw [State.buildRev_rev, get_buildTable]
  exact if_neg (Nat.not_lt.2 hi)

/-- The table for k = 3 (R143, V-REV-1). -/
theorem map_buildRev_of_three {s : State} (h : s.k = 3) :
    (List.range 8).map (fun i => (s.buildRev.rev.get i).toNat) = [0, 4, 2, 6, 1, 5, 3, 7] := by
  have hget : ∀ i ∈ List.range 8, (s.buildRev.rev.get i).toNat = revBits 3 i := fun i hi => by
    rw [toNat_get_buildRev (by rw [h]; decide) (by rw [State.n, h]; exact List.mem_range.1 hi), h]
  rw [List.map_congr_left hget]
  decide

/-- STATUS after BITREV with k = 3 and no error recorded: REVK = 3, REVV = 1 and DONE = 1 (R143). -/
theorem toWord_buildRev_of_three {s : State} (hl : s.logn = 3) (he : s.status.err = false) (hc : s.status.ecode = 0) :
    s.buildRev.finish.status.toWord = 0x0000030A := by
  apply BitVec.eq_of_toNat_eq
  rw [Status.toNat_toWord]
  simp [hl, he, hc]

/-! ### The obligations -/

/-- Settles O35: a bit of `rev_k(i)` below k is the mirrored bit of `i`. -/
theorem revBitsReversesTheBits : Obligations.RevBitsReversesTheBits := by
  refine ⟨fun k i _ _ => ⟨revBits_lt k i, fun t ht => ?_⟩, revBits_zero 0⟩
  rw [testBit_revBits, decide_eq_true ht, Bool.true_and]

/-- Settles O37: the table and its record from what BITREV builds, the rest of the state from the frame of commands; the
failures from the checks of R97. -/
theorem bitrevBuildsTheTable : Obligations.BitrevBuildsTheTable := by
  refine ⟨by decide, fun s hk => ?completes, fun s hk => exec_onlyFails_of_overflow rfl hk, fun s ho h => ?illegal,
    fun s hl he hc => ?three⟩
  case completes =>
    have frame : OnlyTargets .bitrev s s.buildRev.finish := onlyTargets_of_exec (exec_bitrev hk)
    exact ⟨_, exec_bitrev hk, fun _ hi => toNat_get_buildRev hk hi, fun _ hi => get_buildRev_of_le hi, rfl, rfl,
      finished_commandEffect .bitrev s, frame.operands, frame.result nofun, frame.res (by decide),
      frame.buf .b0 (by simp), frame.buf .b1 (by simp), frame.outside⟩
  case illegal =>
    exact engineStep_onlyFails_of_mustBeZero (fmt := .z) (by rw [ho]; rfl) h
  case three =>
    have hk : s.k = 3 := congrArg BitVec.toNat hl
    exact ⟨_, exec_bitrev (by rw [hk]; decide), map_buildRev_of_three hk, toWord_buildRev_of_three hl he hc⟩

end Sys2Proof.Machine

/-! PROOFS. The NTT engine (42_ntt.md): the two transforms undo each other in both orders, NTT.F and NTT.I complete and
write their active range only, and what they compute for n = 1 and n = 2. -/

namespace Sys2Proof.Machine

/-! ### The round trip of the buffers (R160) -/

/-- Evaluation is linear: a common factor of the terms comes out. -/
theorem evalAt_mul_const {R : Type} [CommRing R] (n : Nat) (y : Nat → R) (c w : R) (j : Nat) :
    evalAt n (fun i => y i * c) w j = evalAt n y w j * c := by
  rw [evalAt, evalAt, Finset.sum_mul]
  exact Finset.sum_congr rfl fun i _ => mul_right_comm _ _ _

section roundTrip

variable {k : Nat} {rev : Memory Config.KMAX} {m : Memory 32} (hm : m.inField) (hk : k ≤ Config.KMAX)
  (ht : ∀ i < 2 ^ k, (rev.get i).toNat = revBits k i)
include hm hk ht

theorem get_nttInverse_nttForward (i : Nat) : (nttInverse k rev (nttForward k rev m)).get i = m.get i := by
  have hF : (nttForward k rev m).inField := inField_nttForward k rev hm
  rcases Nat.lt_or_ge i (2 ^ k) with hi | hi
  · refine get_eq_of_val_eq (inField_nttInverse k rev hF) hm ?_
    have forward : ∀ j < 2 ^ k, val (nttForward k rev m) j = evalAt (2 ^ k) (val m) (stageRoot Config.G k) j :=
      fun j hj => val_nttForward hm hk ht hj
    have : Fact (Nat.Prime Config.P) := ⟨prime_P⟩
    rw [val_nttInverse hF hk ht hi, evalAt_congr _ _ forward,
      evalAt_evalAt (orderOf_stageRoot half_G hk) (stageRoot_mul k) _ hi, mul_right_comm, length_mul_scale hk, one_mul]
  · rw [get_nttInverse_above _ ht hi, get_nttForward_above _ ht hi]

theorem get_nttForward_nttInverse (i : Nat) : (nttForward k rev (nttInverse k rev m)).get i = m.get i := by
  have hI : (nttInverse k rev m).inField := inField_nttInverse k rev hm
  rcases Nat.lt_or_ge i (2 ^ k) with hi | hi
  · refine get_eq_of_val_eq (inField_nttForward k rev hI) hm ?_
    have inverse : ∀ j < 2 ^ k, val (nttInverse k rev m) j = evalAt (2 ^ k) (val m) (stageRoot Config.GINV k) j *
        ((powMod (2 ^ k) (Config.P - 2) : Nat) : ZMod Config.P) := fun j hj => val_nttInverse hm hk ht hj
    have : Fact (Nat.Prime Config.P) := ⟨prime_P⟩
    rw [val_nttForward hI hk ht hi, evalAt_congr _ _ inverse, evalAt_mul_const,
      evalAt_evalAt (orderOf_stageRoot half_GINV hk) ((mul_comm _ _).trans (stageRoot_mul k)) _ hi, mul_right_comm,
      length_mul_scale hk, one_mul]
  · rw [get_nttForward_above _ ht hi, get_nttInverse_above _ ht hi]

end roundTrip

/-! ### The commands (R156, R157) -/

section commands

variable {d : Buffer} {s : State} (hk : s.k ≤ Config.KMAX) (hv : s.tableValid = true)
include hk hv

theorem exec_nttF : exec (.nttF d) s = .next (s.setBuf d (nttForward s.k s.rev (s.buf d))).finish :=
  exec_of_checks ⟨fun _ => hk, fun _ => hv⟩

theorem exec_nttI : exec (.nttI d) s = .next (s.setBuf d (nttInverse s.k s.rev (s.buf d))).finish :=
  exec_of_checks ⟨fun _ => hk, fun _ => hv⟩

end commands

/-- A finished buffer command leaves k as it was. -/
@[simp] theorem State.finish_setBuf_k (s : State) (d : Buffer) (m : Memory 32) : (s.setBuf d m).finish.k = s.k :=
  s.setBuf_k d m

/-- A finished buffer command leaves the table as valid as it was (R144). -/
@[simp] theorem State.finish_setBuf_tableValid (s : State) (d : Buffer) (m : Memory 32) :
    (s.setBuf d m).finish.tableValid = s.tableValid := by
  simp [State.tableValid]

/-! ### The corner cases n = 1 and n = 2 -/

theorem revBits_of_le_one {k i : Nat} (hk : k ≤ 1) (hi : i < 2 ^ k) : revBits k i = i := by
  rcases Nat.le_one_iff_eq_zero_or_eq_one.1 hk with rfl | rfl
  · obtain rfl : i = 0 := by simpa using hi
    exact revBits_of_zero 0
  · obtain rfl | rfl : i = 0 ∨ i = 1 := by omega
    · exact revBits_of_zero 1
    · exact revBits_of_ones 1

/-- Each bit reversal is its own index, so nothing is swapped (R152). -/
theorem permute_of_le_one {k : Nat} {rev : Memory Config.KMAX} (m : Memory 32) (hk : k ≤ 1)
    (ht : ∀ i < 2 ^ k, (rev.get i).toNat = revBits k i) : permute (2 ^ k) rev m = m := by
  refine forUpTo_keeps (fun q : Memory 32 => q = m) rfl fun i q hi hq => ?_
  rw [ht i hi, revBits_of_le_one hk hi, if_neg (Nat.lt_irrefl i), hq]

theorem nttStages_zero (root : Nat) (m : Memory 32) : nttStages root 0 m = m := rfl

/-- The one stage of n = 2 is one butterfly, its twiddle the 1 a block starts with. -/
theorem nttStages_one (root : Nat) (m : Memory 32) : nttStages root 1 m = butterfly 0 1 1 m := rfl

theorem mulMod_one {x : Nat} (h : x < Config.P) : mulMod x 1 = x := by
  rw [mulMod, Nat.mul_one, Nat.mod_eq_of_lt h]

/-- What the stages of n = 2 compute, with either root. -/
theorem elem_nttStages_one (root : Nat) {m : Memory 32} (hm : m.inField) :
    elem (nttStages root 1 m) 0 = addMod (elem m 0) (elem m 1) ∧
    elem (nttStages root 1 m) 1 = subMod (elem m 0) (elem m 1) := by
  rw [nttStages_one, elem_butterfly_lo hm 1 Nat.zero_ne_one, elem_butterfly_hi hm, mulMod_one (elem_lt hm 1)]
  exact ⟨rfl, rfl⟩

/-- The scale factor of n = 1 is 1 (R155). -/
theorem get_scaleElems_one {m : Memory 32} (hm : m.inField) (i : Nat) : (scaleElems 1 m).get i = m.get i := by
  have scale : powMod 1 (Config.P - 2) = 1 := by decide
  rw [get_scaleElems, scale, mulMod_one (elem_lt hm i), elem, BitVec.ofNat_toNat, BitVec.setWidth_eq, ite_self]

/-- The scale factor of n = 2 (R162). -/
theorem elem_scaleElems_two (m : Memory 32) {i : Nat} (h : i < 2) :
    elem (scaleElems 2 m) i = mulMod (elem m i) 499122177 := by
  have scale : powMod 2 (Config.P - 2) = 499122177 := by decide
  rw [elem_scaleElems m h, scale]

/-! ### The obligations -/

/-- Settles O43: on the active range the second transform evaluates at the powers of the inverse of the first one's
root, which gives n times the start, and the scaling by the inverse of n undoes that factor; above the range neither
writes. -/
theorem transformsRoundTrip : Obligations.TransformsRoundTrip := by
  intro d s hk hv ht hf
  have table : ∀ i < 2 ^ s.k, (s.rev.get i).toNat = revBits s.k i := fun i hi => ht.entry hv hi
  refine ⟨⟨_, _, exec_nttF hk hv, exec_nttI (by simpa using hk) (by simpa using hv), fun i => ?_⟩,
    ⟨_, _, exec_nttI hk hv, exec_nttF (by simpa using hk) (by simpa using hv), fun i => ?_⟩⟩
  · simpa using get_nttInverse_nttForward (hf.buf d) hk table i
  · simpa using get_nttForward_nttInverse (hf.buf d) hk table i

/-- Settles O39: the frame from where NTT.F writes; for n = 1 there is no stage, for n = 2 one butterfly. -/
theorem nttForwardCompletes : Obligations.NttForwardCompletes := by
  intro d s hk hv ht
  have table : ∀ i < 2 ^ s.k, (s.rev.get i).toNat = revBits s.k i := fun i hi => ht.entry hv hi
  have small (h : s.k ≤ 1) : nttForward s.k s.rev (s.buf d) = nttStages 3 s.k (s.buf d) :=
    congrArg _ (permute_of_le_one _ h table)
  refine ⟨_, exec_nttF hk hv, onlyActiveRange_setBuf d fun i hi => get_nttForward_above _ table hi, ?_⟩
  rw [State.finish_buf, State.setBuf_buf_same]
  refine ⟨rfl, fun h0 => ?one, fun h1 hm => ?two⟩
  case one => rw [small (by omega), h0, nttStages_zero]
  case two =>
    rw [small (by omega), h1]
    exact elem_nttStages_one 3 hm

/-- Settles O40: as for NTT.F, with the scale factors of n = 1 and n = 2. -/
theorem nttInverseCompletes : Obligations.NttInverseCompletes := by
  intro d s hk hv ht
  have table : ∀ i < 2 ^ s.k, (s.rev.get i).toNat = revBits s.k i := fun i hi => ht.entry hv hi
  have small (h : s.k ≤ 1) :
      nttInverse s.k s.rev (s.buf d) = scaleElems (2 ^ s.k) (nttStages 332748118 s.k (s.buf d)) :=
    congrArg (fun m => scaleElems _ (nttStages _ s.k m)) (permute_of_le_one _ h table)
  refine ⟨_, exec_nttI hk hv, onlyActiveRange_setBuf d fun i hi => get_nttInverse_above _ table hi, ?_⟩
  rw [State.finish_buf, State.setBuf_buf_same]
  refine ⟨rfl, fun h0 hm i => ?one, fun h1 hm => ?two⟩
  case one =>
    rw [small (by omega), h0, nttStages_zero]
    exact get_scaleElems_one hm i
  case two =>
    obtain ⟨sum, difference⟩ := elem_nttStages_one 332748118 hm
    rw [small (by omega), h1, Nat.pow_one, elem_scaleElems_two _ Nat.two_pos, elem_scaleElems_two _ Nat.one_lt_two, sum,
      difference]
    exact ⟨rfl, rfl⟩

end Sys2Proof.Machine

/-! PROOFS. The pointwise multiplier, the buffer clear and NOP (43_pointwise_and_buffer.md): what each leaves in its
active range, its frame and its failures. -/

namespace Sys2Proof.Machine

/-! ### PWMUL (R170) and CLR (R172) -/

section commands

variable {s : State} (hk : s.k ≤ Config.KMAX)
include hk

/-- PWMUL asks nothing of the table. -/
theorem exec_pwmul (d b : Buffer) : exec (.pwmul d b) s = .next (s.setBuf d ((s.multiplyElems d b).buf d)).finish := by
  rw [exec_of_checks (i := .pwmul d b) ⟨fun _ => hk, nofun⟩, commandEffect, ← multiplyElems_eq_setBuf]

theorem exec_clr (d : Buffer) : exec (.clr d) s = .next (s.setBuf d (clearElems s.n (s.buf d))).finish :=
  exec_of_checks ⟨fun _ => hk, nofun⟩

end commands

theorem elem_multiplyElems (d b : Buffer) {s : State} {i : Nat} (hi : i < s.n) :
    elem ((s.multiplyElems d b).buf d) i = mulMod (elem (s.buf d) i) (elem (s.buf b) i) := by
  rw [elem, get_multiplyElems, if_pos hi, toNat_ofNat_of_lt_P (mulMod_lt _ _)]

theorem toNat_encode_pwmul (d b : Buffer) :
    (encode (.pwmul d b)).toNat = 0x0A000000 + 2 * b.bit.toNat + d.bit.toNat := by
  cases d <;> cases b <;> rfl

theorem toNat_encode_clr (d : Buffer) : (encode (.clr d)).toNat = 0x0C000000 + d.bit.toNat := by
  cases d <;> rfl

/-! ### NOP (R173) -/

theorem exec_nop (s : State) : exec .nop s = .next s.finish := rfl

/-- From reset the host writes NOP to CMD, the engine takes its step and the host reads STATUS (R173). -/
theorem run_nop_from_reset :
    Host.Core.run core 3 { State.reset with script := [.write 5 0, .wait, .read 3] } =
      .next ((State.reset.acceptCommand 0).finish.answer 0x00000002) :=
  rfl

/-- Once an error is recorded a CMD write of an idle block changes nothing (R37). -/
theorem hostWrite_cmd_of_err {s : State} (w : Word) (hb : s.status.busy = false) (he : s.status.err = true) :
    hostWrite 5 w s = s :=
  (hostWrite_register .cmd w hb).trans (writeCmd_of_err w he)

/-! ### The obligations -/

/-- Settles O44: each turn of the loop reads both elements before it writes their product, so one buffer twice makes no
difference; the failures are those of the checks of R97 and of the decoder. -/
theorem pwmulMultipliesTheElements : Obligations.PwmulMultipliesTheElements := by
  refine ⟨toNat_encode_pwmul, fun d b s hk => ?completes, fun d b s hk => exec_onlyFails_of_overflow rfl hk,
    fun s ho h => ?illegal⟩
  case completes =>
    refine ⟨_, exec_pwmul hk d b, fun i hi => ?_,
      onlyActiveRange_setBuf d fun i hi => (get_multiplyElems d b s i).trans (if_neg (Nat.not_lt.2 hi))⟩
    rw [State.finish_buf, State.setBuf_buf_same]
    exact elem_multiplyElems d b hi
  case illegal =>
    exact engineStep_onlyFails_of_mustBeZero (fmt := .bb) (by rw [ho]; rfl) h

/-- Settles O45: the loop writes 0 at each index below n and none above; the failures as for PWMUL. -/
theorem clrClearsTheActiveRange : Obligations.ClrClearsTheActiveRange := by
  refine ⟨toNat_encode_clr, fun d s hk => ?completes, fun d s hk => exec_onlyFails_of_overflow rfl hk,
    fun s ho h => ?illegal⟩
  case completes =>
    refine ⟨_, exec_clr hk d, fun i hi => ?_,
      onlyActiveRange_setBuf d fun i hi => (get_clearElems _ _ i).trans (if_neg (Nat.not_lt.2 hi))⟩
    rw [State.finish_buf, State.setBuf_buf_same, get_clearElems, if_pos hi]
  case illegal =>
    exact engineStep_onlyFails_of_mustBeZero (fmt := .b) (by rw [ho]; rfl) h

/-- Settles O30: NOP has no effect but its end, and a block with an error recorded drops the CMD write. -/
theorem nopOnlyFinishes : Obligations.NopOnlyFinishes :=
  ⟨rfl, fun s => ⟨_, exec_nop s, rfl⟩, ⟨_, run_nop_from_reset, rfl⟩, fun _ hb he => hostWrite_cmd_of_err _ hb he⟩

end Sys2Proof.Machine

/-! PROOFS. The carry normaliser (44_carry_normalizer.md): CARRY preserves the value of the coefficients, with the count
the trim leaves, and its frame and failures. -/

namespace Sys2Proof.Machine

/-! ### CARRY (R185) -/

theorem toNat_encode_carry (d : Buffer) : (encode (.carry d)).toNat = 0x0B000000 + d.bit.toNat := by
  cases d <;> rfl

theorem one_le_n (s : State) : 1 ≤ s.n := Nat.one_le_two_pow

/-- RLEN is wide enough for every count the trim can give (R38). -/
theorem toNat_rlen_normalise {s : State} (hk : s.k ≤ Config.KMAX) (m : Memory 32) :
    (s.normalise m).rlen.toNat = trim (s.normalise m).dig (carryDigits s.n m s.dig).2 := by
  obtain ⟨hn, hle, _⟩ := carryDigits_spec s.n m s.dig
  obtain ⟨_, htrim, _⟩ := trim_spec (carryDigits s.n m s.dig).1 ((one_le_n s).trans hn)
  have hcap : trim (carryDigits s.n m s.dig).1 (carryDigits s.n m s.dig).2 ≤ Config.DCAP :=
    htrim.trans (hle.trans (Nat.add_le_add_right (NCAP_of_le hk) 9))
  exact Nat.mod_eq_of_lt (hcap.trans_lt (by decide))

theorem exec_carry {s : State} (hk : s.k ≤ Config.KMAX) (d : Buffer) :
    exec (.carry d) s = .next (s.normalise (s.buf d)).finish :=
  exec_of_checks ⟨fun _ => hk, nofun⟩

/-! ### The trim (R183) -/

/-- No smaller count will do: the digit below the trimmed count is not 0. -/
theorem trim_le_of_zeros {dig : Memory 4} {m r : Nat} (hm : 1 ≤ m) (hr : 1 ≤ r)
    (hzero : ∀ i, r ≤ i → i < m → dig.get i = 0) : trim dig m ≤ r := by
  obtain ⟨_, hle, _, htop⟩ := trim_spec dig hm
  by_contra hlt
  rcases htop with hone | hne
  · omega
  · exact hne (hzero _ (by omega) (by omega))

/-- The trim drops zero digits only, so the number denoted stays. -/
theorem digitSum_trim (dig : Memory 4) {m : Nat} (hm : 1 ≤ m) : digitSum dig (trim dig m) = digitSum dig m := by
  obtain ⟨_, hle, hzero, _⟩ := trim_spec dig hm
  exact (digitSum_of_zeros hle hzero).symm

/-! ### The obligations -/

/-- Settles O48: the loop and the flush keep the sum of digits and carry, and the trim drops zero digits only. -/
theorem carryPreservesTheValue : Obligations.CarryPreservesTheValue := by
  intro d s hk _
  obtain ⟨hn, hle, hdigit, habove, hsum, htop⟩ := carryDigits_spec s.n (s.buf d) s.dig
  have hm : 1 ≤ (carryDigits s.n (s.buf d) s.dig).2 := (one_le_n s).trans hn
  obtain ⟨hone, htrim, _⟩ := trim_spec (carryDigits s.n (s.buf d) s.dig).1 hm
  refine ⟨_, _, exec_carry hk d, hn, hle, hdigit, habove, htop, hsum, ?_⟩
  rw [State.finish_rlen, State.finish_dig, toNat_rlen_normalise hk, State.normalise_dig]
  exact ⟨hone, htrim, (digitSum_trim _ hm).trans hsum⟩

/-- Settles O47: DIG and RLEN from what CARRY writes, the rest of the state from the frame of commands, the failures from
the checks of R97 and the decoder. -/
theorem carryCompletes : Obligations.CarryCompletes := by
  refine ⟨toNat_encode_carry, fun d s hk => ?completes, fun d s hk => exec_onlyFails_of_overflow rfl hk,
    fun s ho h => ?illegal⟩
  case completes =>
    have frame : OnlyTargets (.carry d) s (s.normalise (s.buf d)).finish := onlyTargets_of_exec (exec_carry hk d)
    exact ⟨_, exec_carry hk d, rfl, toNat_rlen_normalise hk (s.buf d), finished_commandEffect (.carry d) s,
      frame.operands, frame.table nofun, frame.res (by simp), frame.buf .b0 (by simp), frame.buf .b1 (by simp),
      frame.outside⟩
  case illegal =>
    exact engineStep_onlyFails_of_mustBeZero (fmt := .b) (by rw [ho]; rfl) h

/-- Settles O49: the trim stops at the first digit from the top that is not 0, so no smaller count has zeros above it. -/
theorem trimIsTheLeastCount : Obligations.TrimIsTheLeastCount := by
  intro dig m hm
  obtain ⟨hone, hle, hzero, htop⟩ := trim_spec dig hm
  exact ⟨hone, hle, hzero, fun r hr _ h => trim_le_of_zeros hm hr h, htop⟩

end Sys2Proof.Machine

/-! PROOFS. The host driver (45_host_pipeline.md): the size planner finds the least k, and the formatter prints the
digits of the result. -/

namespace Sys2Proof.Machine

/-! ### The size planner (R193) -/

/-- With turns enough to reach a sufficient k, the loop ends at a sufficient k. -/
theorem le_two_pow_planLoop {turns k l : Nat} (h : l ≤ 2 ^ (k + turns)) : l ≤ 2 ^ planLoop turns k l := by
  induction turns generalizing k with
  | zero => exact h
  | succ turns ih =>
    rw [planLoop]
    split
    · exact ih (by rwa [Nat.add_right_comm])
    · exact Nat.le_of_not_lt ‹_›

/-- The loop passes no sufficient k. -/
theorem planLoop_le {turns k l j : Nat} (hk : k ≤ j) (hl : l ≤ 2 ^ j) : planLoop turns k l ≤ j := by
  induction turns generalizing k with
  | zero => exact hk
  | succ turns ih =>
    rw [planLoop]
    split
    · next hlt => exact ih ((Nat.pow_lt_pow_iff_right (by decide)).1 (hlt.trans_le hl))
    · exact hk

/-- Settles O58: the loop has turns enough, and it stops at the first k that suffices. -/
theorem plannerIsMinimal : Obligations.PlannerIsMinimal := by
  intro lenA lenB _ _
  refine ⟨le_two_pow_planLoop ?_, fun k => planLoop_le k.zero_le⟩
  rw [Nat.zero_add]
  exact Nat.lt_log2_self.le

/-! ### Reads of an idle block (R66) by the driver -/

/-- What the outside does next is no part of what a location holds. -/
theorem Location.value_script (l : Location) (s : State) (es : List HostEvent) :
    l.value { s with script := es } = l.value s := by
  cases l <;> rfl

/-- The driver reads the value of a mapped location and changes nothing else in NTTE (R68). -/
theorem readWord_of_idle {l : Location} {s : State} (hb : s.status.busy = false) (hl : locate l.address = l)
    (hm : l ≠ .unmapped) :
    readWord l s = .ok ({ s with script := [], lastRead := some (l.value s) }, l.value s) := by
  have hread : outsideTurn (.read l.address) { s with script := [] } =
      .next { s with script := [], lastRead := some (l.value s) } := by
    rw [← l.value_script s []]
    exact congrArg Host.Outcome.next (readReturns_of_locate (s := { s with script := [] }) hb hl hm)
  rw [readWord, transact_cons hread]
  rfl

/-! ### The formatter (R198) -/

/-- The characters of the first r digits of a digit memory, the most significant first. -/
def digitChars (dig : Memory 4) (r : Nat) : List Char :=
  (List.range r).reverse.map fun i => charOfDigit (dig.get i).toNat

theorem digitChars_succ (dig : Memory 4) (r : Nat) :
    digitChars dig (r + 1) = charOfDigit (dig.get r).toNat :: digitChars dig r := by
  simp [digitChars, List.range_succ]

@[simp] theorem length_digitChars (dig : Memory 4) (r : Nat) : (digitChars dig r).length = r := by
  simp [digitChars]

theorem getElem?_digitChars (dig : Memory 4) {r j : Nat} (h : j < r) :
    (digitChars dig r)[j]? = some (charOfDigit (dig.get (r - 1 - j)).toNat) := by
  simp [digitChars, h]

/-- The formatter, in an idle block, makes each digit it reads a character and leaves STATUS as it was. -/
theorem readDigits_of_idle {r : Nat} {s : State} (hb : s.status.busy = false) (hr : r ≤ Config.DCAP) :
    ∃ t, readDigits r s = .ok (t, digitChars s.dig r) ∧ t.status = s.status := by
  induction r generalizing s with
  | zero => exact ⟨s, rfl, rfl⟩
  | succ r ih =>
    have hread := readWord_of_idle hb (locate_address_dig hr) nofun
    have hdigit : ((Location.dig r).value s).toNat = (s.dig.get r).toNat := BitVec.toNat_setWidth_of_le (by decide)
    obtain ⟨t, ht, hst⟩ := ih (s := { s with script := [], lastRead := some ((Location.dig r).value s) }) hb
      (Nat.le_of_succ_le hr)
    refine ⟨t, ?_, hst⟩
    rw [readDigits, hread, digitChars_succ, ← hdigit]
    simp only [bind, Except.bind, ht]
    rfl

/-- Only the digit 0 has the character "0". -/
theorem eq_zero_of_charOfDigit {d : Nat} (hd : d ≤ 9) (h : charOfDigit d = '0') : d = 0 := by
  revert d
  decide

/-- Settles O59: the formatter gives `digitChars` of DIG, and the top digit of a longer result is not 0 (R183). -/
theorem formatterPrintsTheDigits : Obligations.FormatterPrintsTheDigits := by
  intro s hb ⟨hdigits, hcount, htrimmed⟩ hr
  obtain ⟨t, ht, _⟩ := readDigits_of_idle hb hcount
  refine ⟨t, _, ht, length_digitChars s.dig _, fun j hj => getElem?_digitChars s.dig hj, fun hzero => ?_⟩
  rw [getElem?_digitChars s.dig hr, Option.some_inj] at hzero
  have htop : s.dig.get (s.rlen.toNat - 1) = 0 :=
    BitVec.eq_of_toNat_eq (eq_zero_of_charOfDigit (hdigits _) hzero)
  exact hr.antisymm' (Nat.le_of_not_lt fun h => htrimmed h htop)

end Sys2Proof.Machine

/-! PROOFS. Errors (60_exceptions.md): how a command ends, what keeps the first error recorded, and what a block with an
error recorded still does. -/

namespace Sys2Proof.Machine

/-! ### The error record (R213) -/

theorem State.raise_of_errorFree {s : State} (e : ErrorCode) (h : s.status.err = false) :
    s.raise e = { s with status := { s.status with ecode := e.code, err := true } } := by
  rw [State.raise, Status.record, if_neg (Bool.eq_false_iff.1 h)]

theorem State.raise_of_err {s : State} (e : ErrorCode) (h : s.status.err = true) : s.raise e = s := by
  rw [State.raise, Status.record, if_pos h]

/-- An error has been recorded, with the code `c`. -/
structure HasError (c : BitVec 4) (s : State) : Prop where
  err : s.status.err = true
  ecode : s.status.ecode = c

section
variable {c : BitVec 4} {s t : State}

theorem HasError.of_same (hs : HasError c s) (he : t.status.err = s.status.err)
    (hc : t.status.ecode = s.status.ecode) : HasError c t :=
  ⟨he.trans hs.err, hc.trans hs.ecode⟩

theorem HasError.raise (hs : HasError c s) (e : ErrorCode) : HasError c (s.raise e) := by
  rwa [State.raise_of_err e hs.err]

theorem HasError.failCommand (hs : HasError c s) (e : ErrorCode) : HasError c (s.failCommand e) :=
  (hs.raise e).of_same (by simp) (by simp)

theorem hasError_of_exec {i : Instr} (hs : HasError c s) (h : exec i s = .next t) : HasError c t := by
  rcases exec_next h with ⟨_, rfl⟩ | ⟨_, _, rfl⟩ | ⟨_, _, _, rfl⟩
  · have hf := finished_commandEffect i s
    exact hs.of_same hf.err hf.ecode
  · exact hs.failCommand _
  · exact hs.failCommand _

theorem hasError_of_engineTurn (hs : HasError c s) (h : engineTurn s = .next t) : HasError c t := by
  rcases engineTurn_next h with ⟨_, rfl⟩ | ⟨_, _, rfl⟩ | ⟨_, i, _, h⟩
  · exact hs
  · exact hs.failCommand _
  · exact hasError_of_exec hs h

theorem hasError_hostRead (a : Address) (hs : HasError c s) : HasError c (hostRead a s) := by
  rcases hostRead_cases a s with ⟨_, e⟩ | ⟨_, _, _, e⟩ | ⟨_, _, e⟩ <;> rw [e]
  · exact (hs.raise .access).of_same rfl rfl
  · exact hs.of_same rfl rfl
  · exact hs.of_same rfl rfl

/-- A host write is the soft reset, or it keeps the error recorded. -/
theorem hostWrite_resets_or_hasError (a : Address) (v : Word) (hs : HasError c s) :
    (a = 2 ∧ v.getLsbD 0 = true) ∨ HasError c (hostWrite a v s) := by
  rcases hostWrite_cases a v s with e | ⟨_, hl, hv⟩ | ⟨_, e⟩ | ⟨_, _, e⟩ | ⟨_, e⟩ | ⟨_, _, e⟩ | ⟨_, _, e⟩ |
    ⟨_, _, b, i, _, e⟩
  case inr.inl => exact .inl ⟨eq_of_locate_register hl, hv⟩
  case inr.inr.inl => exact .inr (e ▸ hs.raise _)
  all_goals
    rw [e]
    exact .inr (hs.of_same (by simp) (by simp))

/-- Every step but a reset keeps the error recorded. -/
theorem step_hasError_or_resets (hs : HasError c s) (h : step s = .next t) :
    HasError c t ∨
    ∃ r, s.script = .resetInput :: r ∨ ∃ v : Word, v.getLsbD 0 = true ∧ s.script = .write 2 v :: r := by
  have take (r : List HostEvent) : HasError c { s with script := r } := hs.of_same rfl rfl
  rcases step_next h with ⟨_, h⟩ | ⟨r, _, h⟩ | ⟨a, r, _, rfl⟩ | ⟨a, v, r, hr, rfl⟩ | ⟨r, hr, _⟩
  · exact .inl (hasError_of_engineTurn hs h)
  · exact .inl (hasError_of_engineTurn (take r) h)
  · exact .inl (hasError_hostRead a (take r))
  · rcases hostWrite_resets_or_hasError a v (take r) with ⟨rfl, hv⟩ | hk
    · exact .inr ⟨r, .inr ⟨v, hv, hr⟩⟩
    · exact .inl hk
  · exact .inr ⟨r, .inl hr⟩

/-! ### How a command ends (R97, R214) -/

theorem finished_of_checks {i : Instr} (hc : ChecksPass i s) : ∃ t, exec i s = .next t ∧ Finished s t :=
  ⟨_, exec_of_checks hc, finished_commandEffect i s⟩

end

/-! ### The obligations -/

/-- Settles O14, by what `exec` does in each case of its checks and the engine's step on a word that does not decode. -/
theorem checksComeInOrder : Obligations.ChecksComeInOrder := by
  refine ⟨fun i s => ⟨exec_onlyFails_of_overflow, fun hu hk hv => ?table, fun hk hv => finished_of_checks ⟨hk, hv⟩⟩,
    fun s hb hs hd => ?opcode⟩
  case table => exact ⟨_, exec_of_stale hu hk hv, onlyFails_failCommand .table s⟩
  case opcode =>
    have hstep : step s = .next (s.failCommand .opcode) := by
      rw [step_of_nil hs, engineTurn_of_busy hb, engineStep_of_illegal hd]
    exact ⟨_, hstep, onlyFails_failCommand .opcode s⟩

/-- Settles O15, by the inversion of `exec`. -/
theorem commandsArePrecise : Obligations.CommandsArePrecise := by
  intro i s t h
  rcases exec_next h with ⟨_, rfl⟩ | ⟨_, _, rfl⟩ | ⟨_, _, _, rfl⟩
  · exact .inl (finished_commandEffect i s)
  · exact .inr (.inl (onlyFails_failCommand .overflow s))
  · exact .inr (.inr (onlyFails_failCommand .table s))

/-- Settles O19: the record is made once, and every move but a reset keeps it. -/
theorem firstErrorIsKeptUntilReset : Obligations.FirstErrorIsKeptUntilReset := by
  refine ⟨fun e s => ⟨State.raise_of_errorFree e, State.raise_of_err e⟩, fun s t h he => ?_⟩
  exact (step_hasError_or_resets ⟨he, rfl⟩ h).imp_left fun ht => ⟨ht.err, ht.ecode⟩

/-- Settles O20: of the writes only that to CMD asks for ERR, and a command that passes its checks finishes whatever ERR
is. -/
theorem haltedBlockAcceptsNoCommand : Obligations.HaltedBlockAcceptsNoCommand := by
  intro s he
  refine ⟨fun hb => ⟨fun w => hostWrite_cmd_of_err w hb he, fun v => ?cfg, fun v hv => ⟨?opx, ?opy, fun i hi => ?buf⟩⟩,
    fun i hk hv => ?pending⟩
  case cfg =>
    rw [← extractLsb'_logn]
    exact hostWrite_register .cfg v hb
  case opx => exact (hostWrite_register .opx v hb).trans (writeRegister_opx_of_lt s hv)
  case opy => exact (hostWrite_register .opy v hb).trans (writeRegister_opy_of_lt s hv)
  case buf => exact ⟨onlyStores_hostWrite .b0 hb hi hv, onlyStores_hostWrite .b1 hb hi hv⟩
  case pending =>
    obtain ⟨t, ht, hf⟩ := finished_of_checks ⟨hk, hv⟩
    exact ⟨t, ht, hf.done, hf.err.trans he⟩

end Sys2Proof.Machine

/-! PROOFS. Termination and reset (70_reset_and_hazards.md): every step answers a next state, and the reset input and the
soft reset are one reset, after which the invariant holds. -/

namespace Sys2Proof.Machine

/-- The engine's step on a pending word, legal or not, answers a state with BUSY = 0 (R253). -/
theorem engineStep_clears_busy (s : State) : ∃ t, engineStep s = .next t ∧ t.status.busy = false := by
  cases hd : decode s.cmd with
  | none => exact ⟨_, engineStep_of_illegal hd, Status.fail_busy _ _⟩
  | some i =>
    obtain ⟨t, ht⟩ := exec_total i s
    refine ⟨t, (engineStep_of_decode hd).trans ht, ?_⟩
    rcases commandsArePrecise i s t ht with hf | ⟨_, hf⟩ | ⟨_, hf⟩
    · exact hf.busy
    · rw [hf]
    · rw [hf]

theorem engineTurn_total (s : State) : ∃ t, engineTurn s = .next t := by
  cases hb : s.status.busy with
  | false => exact ⟨s, engineTurn_of_idle hb⟩
  | true =>
    obtain ⟨t, ht, _⟩ := engineStep_clears_busy s
    exact ⟨t, (engineTurn_of_busy hb).trans ht⟩

theorem outsideTurn_total (e : HostEvent) (s : State) : ∃ t, outsideTurn e s = .next t := by
  cases e with
  | read a => exact ⟨_, rfl⟩
  | write a v => exact ⟨_, rfl⟩
  | resetInput => exact ⟨_, rfl⟩
  | wait => exact engineTurn_total s

theorem step_total (s : State) : ∃ t, step s = .next t := by
  cases hs : s.script with
  | nil => rw [step_of_nil hs]; exact engineTurn_total s
  | cons e rest => rw [step_of_cons hs]; exact outsideTurn_total e _

/-- Settles O13: each event of the outside answers a state, and so does the engine, which clears BUSY whether its command
finishes or fails. -/
theorem everyStepTerminates : Obligations.EveryStepTerminates := by
  intro s
  refine ⟨step_total s, fun hb hs => ?_⟩
  rw [step_of_nil hs, engineTurn_of_busy hb]
  exact engineStep_clears_busy s

/-- A reset, from any state, leaves the invariant (R45, R241). -/
theorem inv_resetMachine (s : State) : s.resetMachine.Inv where
  memoryForm := memoryForm_resetMachine s
  fieldElements := ⟨P_pos, P_pos, P_pos, inField_nil, inField_nil⟩
  statusRecord := statusRecord_resetMachine s
  tableRecord := tableRecord_resetMachine s
  resultRecord := resultRecord_resetMachine s

/-- Settles O29: both events are `resetMachine`, which looks at nothing of the block. -/
theorem resetEventsAreOneReset : Obligations.ResetEventsAreOneReset := by
  intro s rest v hv
  have hsoft : hostWrite 2 v { s with script := rest } = State.resetMachine { s with script := rest } :=
    (hostWrite_ctrl v _ (locate_address_register .ctrl)).trans (writeCtrl_of_set _ hv)
  exact ⟨State.resetMachine { s with script := rest }, rfl, congrArg Host.Outcome.next hsoft, rfl,
    (by decide : Status.reset.toWord = 0),
    fun hr => (step_of_nil hr).trans (engineTurn_of_idle rfl), (inv_resetMachine _).fieldElements⟩

end Sys2Proof.Machine

/-! PROOFS. Numerals and the tokens of the driver (45_host_pipeline.md): the number that decimal digits denote, the numeral
the formatter prints, what the parser and the checks of sizes accept. -/

namespace Sys2Proof.Machine

/-! ### Numbers and their digits -/

theorem getD_le_of_forall_le {l : List Nat} {c : Nat} (h : ∀ d ∈ l, d ≤ c) (i : Nat) : l.getD i 0 ≤ c := by
  rw [List.getD_eq_getElem?_getD]
  cases hi : l[i]? with
  | none => exact Nat.zero_le c
  | some d => exact h d (List.mem_of_getElem? hi)

/-- The number that decimal digits denote, as a sum over their positions from the least significant up. -/
theorem decimalValue_eq_sum {digits : List Nat} {n : Nat} (h : digits.length ≤ n) :
    decimalValue digits = ∑ i ∈ Finset.range n, digits.reverse.getD i 0 * 10 ^ i := by
  induction digits using List.reverseRecOn generalizing n with
  | nil => simp [decimalValue]
  | append_singleton digits d ih =>
    obtain ⟨n, rfl⟩ : ∃ n', n = n' + 1 := Nat.exists_eq_succ_of_ne_zero (by simp at h; omega)
    have hvalue : decimalValue (digits ++ [d]) = 10 * decimalValue digits + d := by simp [decimalValue]
    rw [hvalue, ih (n := n) (by simpa using h), List.reverse_append, List.reverse_singleton, List.singleton_append,
      Finset.sum_range_succ', Finset.mul_sum, List.getD_cons_zero, Nat.pow_zero, Nat.mul_one]
    congr 1
    refine Finset.sum_congr rfl fun i _ => ?_
    rw [List.getD_cons_succ, Nat.pow_succ]
    ring

/-- The numeral of a number given by its digits, with no zero on top unless there is one digit only. -/
theorem toDigits_sum {f : Nat → Nat} {r : Nat} (h9 : ∀ i, f i ≤ 9) (htop : r ≠ 0 → f r ≠ 0) :
    Nat.toDigits 10 (∑ i ∈ Finset.range (r + 1), f i * 10 ^ i) =
      (List.range (r + 1)).reverse.map fun i => (f i).digitChar := by
  induction r generalizing f with
  | zero => simpa using Nat.toDigits_of_lt_base (b := 10) (Nat.lt_succ_of_le (h9 0))
  | succ r ih =>
    have hsum : ∑ i ∈ Finset.range (r + 2), f i * 10 ^ i =
        10 * ∑ i ∈ Finset.range (r + 1), f (i + 1) * 10 ^ i + f 0 := by
      rw [Finset.sum_range_succ', Finset.mul_sum, Nat.pow_zero, Nat.mul_one]
      congr 1
      exact Finset.sum_congr rfl fun i _ => by ring
    have hpos : 0 < ∑ i ∈ Finset.range (r + 1), f (i + 1) * 10 ^ i :=
      Finset.sum_pos' (fun _ _ => Nat.zero_le _) ⟨r, Finset.self_mem_range_succ r,
        Nat.mul_pos (Nat.pos_of_ne_zero (htop r.succ_ne_zero)) (Nat.pow_pos (by decide))⟩
    rw [hsum, ← Nat.toDigits_append_toDigits (by decide) hpos (Nat.lt_succ_of_le (h9 0)),
      ih (fun i => h9 (i + 1)) fun _ => htop r.succ_ne_zero, Nat.toDigits_of_lt_base (Nat.lt_succ_of_le (h9 0)),
      List.range_succ_eq_map (n := r + 1)]
    simp [List.map_reverse, Function.comp_def]

theorem charOfDigit_eq_digitChar {d : Nat} (h : d ≤ 9) : charOfDigit d = d.digitChar := by
  revert d
  decide

/-- What the formatter prints of a result as CARRY leaves it is the canonical numeral of the number it denotes (R198). -/
theorem digitChars_eq_toDigits {s : State} (h : s.ResultRecord) (hr : 1 ≤ s.rlen.toNat) :
    digitChars s.dig s.rlen.toNat = Nat.toDigits 10 (digitSum s.dig s.rlen.toNat) := by
  obtain ⟨hdigits, _, htrimmed⟩ := h
  obtain ⟨r, hlen⟩ := Nat.exists_eq_succ_of_ne_zero (Nat.ne_of_gt hr)
  have htop : r ≠ 0 → (s.dig.get r).toNat ≠ 0 := fun h0 htop0 => by
    rw [hlen] at htrimmed
    exact htrimmed (by omega) (BitVec.eq_of_toNat_eq htop0)
  rw [hlen, digitSum, toDigits_sum hdigits htop]
  exact List.map_congr_left fun i _ => charOfDigit_eq_digitChar (hdigits i)

/-! ### The parser (R191) -/

theorem digitOfChar_le {c : Char} {d : Nat} (h : digitOfChar c = some d) : d ≤ 9 := by
  rw [digitOfChar] at h
  split at h <;> cases h
  omega

theorem le_nine_of_mapM {t : List Char} {digits : List Nat} (h : t.mapM digitOfChar = some digits) :
    ∀ d ∈ digits, d ≤ 9 := by
  induction t generalizing digits with
  | nil => cases h; exact fun _ hd => absurd hd List.not_mem_nil
  | cons c t ih =>
    simp only [List.mapM_cons, Option.bind_eq_bind, Option.bind_eq_some_iff] at h
    obtain ⟨d, hd, ds, hds, heq⟩ := h
    cases heq
    exact List.forall_mem_cons.2 ⟨digitOfChar_le hd, ih hds⟩

/-- A token that parses has a digit, and each of its digits is at most 9. -/
theorem digits_of_parseToken {t : List Char} {digits : List Nat} (h : parseToken t = some digits) :
    1 ≤ digits.length ∧ ∀ d ∈ digits, d ≤ 9 := by
  rw [parseToken] at h
  split at h
  · cases h
  · refine ⟨?_, le_nine_of_mapM h⟩
    obtain ⟨c, t, rfl⟩ := List.exists_cons_of_ne_nil ‹_›
    simp only [List.mapM_cons, Option.bind_eq_bind, Option.bind_eq_some_iff] at h
    obtain ⟨d, _, ds, _, heq⟩ := h
    cases heq
    simp

theorem digits_of_parseTokens {x y : List Char} {more : List (List Char)} {a b : List Nat}
    (h : parseTokens (x :: y :: more) = .ok (a, b)) :
    (1 ≤ a.length ∧ ∀ d ∈ a, d ≤ 9) ∧ 1 ≤ b.length ∧ ∀ d ∈ b, d ≤ 9 := by
  rw [parseTokens] at h
  split at h
  · cases h
    exact ⟨digits_of_parseToken ‹_›, digits_of_parseToken ‹_›⟩
  · cases h

/-! ### The checks of sizes (R194) -/

theorem plan_of_checkSizes {kmax lmax k : Nat} {a b : List Nat} (h : checkSizes kmax lmax a b = .ok k) :
    k = plan a.length b.length ∧ k ≤ kmax := by
  rw [checkSizes] at h
  split at h
  · cases h
  · split at h
    · cases h
    · cases h
      exact ⟨rfl, Nat.le_of_not_lt ‹_›⟩

end Sys2Proof.Machine

/-! PROOFS. The product of two transforms (43_pointwise_and_buffer.md): the cyclic convolution over the natural numbers,
and that the pipeline leaves it, modulo P, in the buffer. -/

namespace Sys2Proof.Machine

/-! ### The convolution of the operands (R171, R200) -/

/-- The cyclic convolution of two sequences of natural numbers. -/
def cyclicNat (n : Nat) (x y : Nat → Nat) (t : Nat) : Nat :=
  ∑ i ∈ Finset.range n, ∑ j ∈ Finset.range n, if (i + j) % n = t then x i * y j else 0

theorem cast_cyclicNat (n : Nat) (m m' : Memory 32) (t : Nat) [Fact (Nat.Prime Config.P)] :
    (cyclicNat n (elem m) (elem m') t : ZMod Config.P) = cyclic n (val m) (val m') t := by
  simp [cyclicNat, cyclic, val]

theorem cyclicNat_congr {n : Nat} {x x' y y' : Nat → Nat} (hx : ∀ i < n, x i = x' i) (hy : ∀ i < n, y i = y' i)
    (t : Nat) : cyclicNat n x y t = cyclicNat n x' y' t :=
  Finset.sum_congr rfl fun i hi => Finset.sum_congr rfl fun j hj => by
    rw [hx i (Finset.mem_range.1 hi), hy j (Finset.mem_range.1 hj)]

section convolution

variable {n : Nat} {x y : Nat → Nat} (hw : ∀ i j, n ≤ i + j → x i * y j = 0)
include hw

/-- Without wrap-around each coefficient has at most one term for each element of the first sequence. -/
theorem cyclicNat_le {c : Nat} (hc : ∀ i j, x i * y j ≤ c) (t : Nat) : cyclicNat n x y t ≤ n * c := by
  have row (i : Nat) : (∑ j ∈ Finset.range n, if (i + j) % n = t then x i * y j else 0) ≤ c := by
    calc (∑ j ∈ Finset.range n, if (i + j) % n = t then x i * y j else 0)
        ≤ ∑ j ∈ Finset.range n, if j = t - i then c else 0 := by
          refine Finset.sum_le_sum fun j _ => ?_
          rcases Nat.lt_or_ge (i + j) n with h | h
          · rw [Nat.mod_eq_of_lt h]
            split
            · rw [if_pos (by omega)]
              exact hc i j
            · exact Nat.zero_le _
          · rw [hw i j h, ite_self]
            exact Nat.zero_le _
      _ ≤ c := by
          rw [Finset.sum_ite_eq']
          split
          · exact le_rfl
          · exact Nat.zero_le c
  simpa [cyclicNat] using Finset.sum_le_card_nsmul (Finset.range n) _ c fun i _ => row i

/-- Without wrap-around the convolution of two sequences denotes the product of what they denote. -/
theorem sum_cyclicNat (b : Nat) : ∑ t ∈ Finset.range n, cyclicNat n x y t * b ^ t =
    (∑ i ∈ Finset.range n, x i * b ^ i) * ∑ j ∈ Finset.range n, y j * b ^ j := by
  have term {i j : Nat} (hi : i < n) :
      (∑ t ∈ Finset.range n, if (i + j) % n = t then x i * y j * b ^ t else 0) = x i * b ^ i * (y j * b ^ j) := by
    rw [Finset.sum_ite_eq, if_pos (Finset.mem_range.2 (Nat.mod_lt _ (Nat.zero_lt_of_lt hi)))]
    rcases Nat.lt_or_ge (i + j) n with h | h
    · rw [Nat.mod_eq_of_lt h, pow_add]
      ring
    · rw [hw i j h, mul_mul_mul_comm, hw i j h, Nat.zero_mul, Nat.zero_mul]
  calc ∑ t ∈ Finset.range n, cyclicNat n x y t * b ^ t
      = ∑ t ∈ Finset.range n, ∑ i ∈ Finset.range n, ∑ j ∈ Finset.range n,
          if (i + j) % n = t then x i * y j * b ^ t else 0 := by
        simp only [cyclicNat, Finset.sum_mul, ite_mul, Nat.zero_mul]
    _ = ∑ i ∈ Finset.range n, ∑ j ∈ Finset.range n, ∑ t ∈ Finset.range n,
          if (i + j) % n = t then x i * y j * b ^ t else 0 := by
        rw [Finset.sum_comm]
        exact Finset.sum_congr rfl fun i _ => Finset.sum_comm
    _ = (∑ i ∈ Finset.range n, x i * b ^ i) * ∑ j ∈ Finset.range n, y j * b ^ j := by
        rw [Finset.sum_mul_sum]
        exact Finset.sum_congr rfl fun i hi => Finset.sum_congr rfl fun j _ => term (Finset.mem_range.1 hi)

end convolution

/-! ### The pipeline of transforms on the buffers (R171) -/

/-- The inverse transform of the products of two transforms is the cyclic convolution, modulo P. -/
theorem elem_nttInverse_products {k : Nat} {rev : Memory Config.KMAX} {m m' q : Memory 32} (hm : m.inField)
    (hm' : m'.inField) (hq : q.inField) (hk : k ≤ Config.KMAX) (ht : ∀ i < 2 ^ k, (rev.get i).toNat = revBits k i)
    (hprod : ∀ i < 2 ^ k, elem q i = mulMod (elem (nttForward k rev m) i) (elem (nttForward k rev m') i))
    {t : Nat} (hi : t < 2 ^ k) :
    elem (nttInverse k rev q) t = cyclicNat (2 ^ k) (elem m) (elem m') t % Config.P := by
  have : Fact (Nat.Prime Config.P) := ⟨prime_P⟩
  have hroot : stageRoot Config.G k ^ 2 ^ k = 1 := stageRoot_self half_G hk
  have product : ∀ i < 2 ^ k,
      val q i = evalAt (2 ^ k) (cyclic (2 ^ k) (val m) (val m')) (stageRoot Config.G k) i := fun i hi => by
    rw [evalAt_cyclic hroot _ _ _ (Nat.two_pow_pos k), ← val_nttForward hm hk ht hi, ← val_nttForward hm' hk ht hi, val,
      hprod i hi, cast_mulMod, val, val]
  refine eq_of_cast_eq (elem_lt (inField_nttInverse k rev hq) t) (Nat.mod_lt _ P_pos) ?_
  rw [ZMod.natCast_mod, cast_cyclicNat]
  calc val (nttInverse k rev q) t
      = ((2 ^ k : Nat) : ZMod Config.P) * cyclic (2 ^ k) (val m) (val m') t *
          ((powMod (2 ^ k) (Config.P - 2) : Nat) : ZMod Config.P) := by
        rw [val_nttInverse hq hk ht hi, evalAt_congr _ _ product,
          evalAt_evalAt (orderOf_stageRoot half_G hk) (stageRoot_mul k) _ hi]
    _ = cyclic (2 ^ k) (val m) (val m') t := by rw [mul_right_comm, length_mul_scale hk, one_mul]

end Sys2Proof.Machine

/-! PROOFS. The driver's transactions (45_host_pipeline.md): a command of the driver has the command's effect, and the
digit writes leave the operands in the buffers. -/

namespace Sys2Proof.Machine

/-! ### What the engine works on

A command neither reads nor writes CMD, BUSY or DONE but at its end, and the model's own fields are the outside's: a
driver's command has on the rest the effect that its rule names. -/

/-- The engine's view of the state without CMD, BUSY and DONE. -/
def State.work (s : State) : State :=
  { s.engineView with cmd := 0, status := { s.engineView.status with busy := false, done := false } }

theorem work_commandEffect (i : Instr) (s : State) : commandEffect i s.work = (commandEffect i s).work := by
  cases i with
  | nop | addm | subm | mulm | powm | bitrev => rfl
  | nttF d | nttI d | carry d | clr d => cases d <;> rfl
  | pwmul d b => exact forUpTo_map State.work (fun j t => by cases d <;> cases b <;> rfl) s.n s

theorem work_commandEffect_congr {s t : State} (h : s.work = t.work) (i : Instr) :
    (commandEffect i s).work = (commandEffect i t).work := by
  rw [← work_commandEffect, h, work_commandEffect]

theorem checksPass_congr {s t : State} (h : s.work = t.work) {i : Instr} (hc : ChecksPass i t) : ChecksPass i s := by
  have hwork : ChecksPass i t.work := hc
  rwa [← h] at hwork

/-- The effects of commands, one after the other. -/
def commandEffects (is : List Instr) (s : State) : State :=
  is.foldl (fun t i => commandEffect i t) s

/-! ### A command of the driver (R102, R197) -/

theorem ok_bind {ε α β : Type} (a : α) (f : α → Except ε β) : (Except.ok a >>= f) = f a := rfl

theorem showsSuccess_toWord (st : Status) : showsSuccess st.toWord = (!st.busy && st.done && !st.err) := by
  simp only [showsSuccess, Status.toWord, BitVec.getLsbD_append]
  simp

/-- A command that passes its checks ends well in the word the driver reads (R197). -/
theorem showsSuccess_of_finished {s t : State} (h : Finished s t) (he : s.ErrorFree) :
    showsSuccess t.status.toWord = true := by
  rw [showsSuccess_toWord, h.busy, h.done, h.err]
  exact congrArg (!·) he

section transactions

variable {s : State} (es : List HostEvent)

theorem transact_write (a : Address) (v : Word) :
    transact (.write a v :: es) s = transact es (hostWrite a v { s with script := es }) :=
  transact_cons rfl

theorem transact_writeRegister (r : Register) (v : Word) (hb : s.status.busy = false) :
    transact (.write (Location.register r).address v :: es) s =
      transact es (writeRegister r v { s with script := es }) := by
  rw [transact_write, hostWrite_register (s := { s with script := es }) r v hb]

theorem transact_writeCmd (hr : s.Ready) (w : Word) :
    transact (.write (Location.register .cmd).address w :: es) s = transact es (s.acceptCommand w) := by
  obtain ⟨hb, he⟩ := hr
  rw [transact_writeRegister es .cmd w hb, writeRegister, writeCmd_of_errorFree (s := { s with script := es }) w he]
  rfl

theorem transact_writeBuffer (b : Buffer) {i : Nat} {v : Word} (hb : s.status.busy = false) (hi : i < Config.NCAP)
    (hv : v.toNat < Config.P) :
    transact (.write (Location.buffer b i).address v :: es) s = transact es (s.setBuf b ((s.buf b).set i v)) := by
  rw [transact_write, hostWrite_buffer (s := { s with script := es }) b v hb hi, writeElement_of_lt _ _ hv]
  cases b <;> rfl

theorem transact_wait {i : Instr} (hb : s.status.busy = true) (hd : decode s.cmd = some i) (hc : ChecksPass i s) :
    transact (.wait :: es) s = transact es (commandEffect i { s with script := es }).finish :=
  transact_cons ((engineTurn_of_busy (s := { s with script := es }) hb).trans
    ((engineStep_of_decode (s := { s with script := es }) hd).trans (exec_of_checks hc)))

theorem transact_read (a : Address) :
    transact (.read a :: es) s = transact es (hostRead a { s with script := es }) :=
  transact_cons rfl

theorem transact_readStatus (hb : s.status.busy = false) :
    transact (.read (Location.register .status).address :: es) s = transact es (s.answer s.status.toWord) := by
  rw [transact_read, hostRead_of_idle (s := { s with script := es }) hb (by decide), locate_address_register]
  rfl

end transactions

/-- The driver's command, in a block that accepts it and with checks that pass, has its effect and the block is ready
again. -/
theorem runCommand_of_checks {i : Instr} {s : State} (hr : s.Ready) (hc : ChecksPass i s) :
    ∃ t, runCommand i s = .ok t ∧ t.Ready ∧ t.work = (commandEffect i s).work := by
  let readStatus : HostEvent := .read (Location.register .status).address
  let u : State := { s.acceptCommand (encode i) with script := [readStatus] }
  have hwork : u.work = s.work := rfl
  have hv : Finished u (commandEffect i u).finish := finished_commandEffect i u
  refine ⟨{ (commandEffect i u).finish.answer (commandEffect i u).finish.status.toWord with script := [] }, ?_,
    ⟨hv.busy, hv.err.trans hr.2⟩, work_commandEffect_congr hwork i⟩
  rw [runCommand, transact_writeCmd _ hr,
    transact_wait _ (s := s.acceptCommand (encode i)) rfl (decode_encode i) (checksPass_congr rfl hc),
    transact_readStatus _ hv.busy, transact_nil]
  exact if_pos (showsSuccess_of_finished hv hr.2)

theorem commandEffect_k (i : Instr) (s : State) : (commandEffect i s).k = s.k :=
  congrArg BitVec.toNat (onlyTargets_commandEffect i s).operands.logn

/-- No command invalidates the table: BITREV builds it for k, and no other writes it (R144). -/
theorem commandEffect_tableValid (i : Instr) {s : State} (h : s.tableValid = true) :
    (commandEffect i s).tableValid = true := by
  by_cases hi : i = .bitrev
  · subst hi
    simp [commandEffect, State.tableValid]
  · have frame := onlyTargets_commandEffect i s
    have hT := frame.table hi
    have hlogn : (commandEffect i s).logn = s.logn := frame.operands.logn
    have hrevv : (commandEffect i s).status.revv = s.status.revv := hT.revv
    have hrevk : (commandEffect i s).status.revk = s.status.revk := hT.revk
    rwa [State.tableValid, hlogn, hrevv, hrevk]

/-- The driver's commands, of which those that need a table have one, have their effects. -/
theorem runCommands_of_ready {is : List Instr} {s t : State} (hr : s.Ready) (hst : s.work = t.work)
    (hk : t.k ≤ Config.KMAX) (hv : t.tableValid = true ∨ ∀ i ∈ is, usesTable i = false) :
    ∃ u, runCommands is s = .ok u ∧ u.Ready ∧ u.work = (commandEffects is t).work := by
  induction is generalizing s t with
  | nil => exact ⟨s, rfl, hr, hst⟩
  | cons i is ih =>
    have hc : ChecksPass i t := ⟨fun _ => hk, fun hu => hv.elim id fun hno => by simp [hno i List.mem_cons_self] at hu⟩
    obtain ⟨s', hrun, hr', hwork⟩ := runCommand_of_checks hr (checksPass_congr hst hc)
    obtain ⟨u, hruns, hru, hu⟩ := ih hr' (hwork.trans (work_commandEffect_congr hst i)) (commandEffect_k i t ▸ hk)
      (hv.imp (commandEffect_tableValid i) fun hno j hj => hno j (List.mem_cons_of_mem i hj))
    refine ⟨u, ?_, hru, hu⟩
    rw [runCommands, hrun]
    exact hruns

/-! ### The digit writes of the driver (R195) -/

/-- Digits written from index j on, the least significant first. -/
theorem transact_digitWrites (b : Buffer) {digits : List Nat} {j : Nat} {s : State} (hb : s.status.busy = false)
    (h9 : ∀ d ∈ digits, d ≤ 9) (hj : j + digits.length ≤ Config.NCAP) (hf : (s.buf b).inField) :
    ∃ m : Memory 32, m.inField ∧
      (∀ es, transact ((digits.zipIdx j).map (fun c => .write (Location.buffer b c.2).address (BitVec.ofNat 32 c.1)) ++
        es) s = transact es (s.setBuf b m)) ∧
      ∀ i, elem m i = if j ≤ i ∧ i < j + digits.length then digits.getD (i - j) 0 else elem (s.buf b) i := by
  induction digits generalizing j s with
  | nil => exact ⟨s.buf b, hf, fun es => by simp, fun i => (if_neg (by simp)).symm⟩
  | cons d ds ih =>
    obtain ⟨hd, hds⟩ := List.forall_mem_cons.1 h9
    have hdP : d < Config.P := hd.trans_lt (by decide)
    rw [List.length_cons] at hj
    obtain ⟨m, hm, hrun, hget⟩ := ih (j := j + 1) (s := s.setBuf b (setElem (s.buf b) j d)) (by simpa using hb) hds
      (by omega) (by simpa using inField_setElem hf j hdP)
    refine ⟨m, hm, fun es => ?_, fun i => ?_⟩
    · rw [List.zipIdx_cons, List.map_cons, List.cons_append,
        transact_writeBuffer _ b hb (by omega) (by rwa [toNat_ofNat_of_lt_P hdP])]
      simpa [setElem] using hrun es
    · rw [hget, State.setBuf_buf_same, List.length_cons]
      rcases Nat.lt_trichotomy i j with h | rfl | h
      · rw [if_neg (by omega), if_neg (by omega), elem_setElem_other _ _ (Nat.ne_of_lt h)]
      · rw [if_neg (by omega), if_pos (by omega), elem_setElem_same _ _ hdP, Nat.sub_self, List.getD_cons_zero]
      · by_cases hi : i < j + 1 + ds.length
        · rw [if_pos (by omega), if_pos (by omega), show i - j = i - (j + 1) + 1 by omega, List.getD_cons_succ]
        · rw [if_neg (by omega), if_neg (by omega), elem_setElem_other _ _ (Nat.ne_of_gt h)]

/-- The driver's load leaves the operand's digits in a buffer that was clear, the least significant at index 0. -/
theorem transact_loadDigits (b : Buffer) {digits : List Nat} {n : Nat} {s : State} (hb : s.status.busy = false)
    (h9 : ∀ d ∈ digits, d ≤ 9) (hlen : digits.length ≤ n) (hn : n ≤ Config.NCAP) (hf : (s.buf b).inField)
    (hclear : ∀ i < n, (s.buf b).get i = 0) :
    ∃ m : Memory 32, m.inField ∧ (∀ es, transact (loadDigits b digits ++ es) s = transact es (s.setBuf b m)) ∧
      ∀ i < n, elem m i = digits.reverse.getD i 0 := by
  obtain ⟨m, hm, hrun, hget⟩ := transact_digitWrites b (digits := digits.reverse) (j := 0) hb (by simpa using h9)
    (by simpa using hlen.trans hn) hf
  refine ⟨m, hm, hrun, fun i hi => ?_⟩
  rw [hget, Nat.zero_add, Nat.sub_zero]
  by_cases h : i < digits.reverse.length
  · exact if_pos ⟨Nat.zero_le i, h⟩
  · rw [if_neg fun h' => h h'.2, elem, hclear i hi, List.getD_eq_default _ _ (Nat.le_of_not_lt h)]
    rfl

end Sys2Proof.Machine

/-! PROOFS. The driver's `multiply` (45_host_pipeline.md, 70_reset_and_hazards.md): the command sequence stage by stage,
and the product it yields, also in a session from any state. -/

namespace Sys2Proof.Machine

/-! ### The product in BUF0 (R197, R200) -/

/-- The state with both buffers transformed, as the two NTT.F leave it. -/
def State.transformed (s : State) : State :=
  (s.setBuf .b0 (nttForward s.k s.rev (s.buf .b0))).setBuf .b1 (nttForward s.k s.rev (s.buf .b1))

/-- What PWMUL and NTT.I then leave in BUF0. -/
def State.convolved (s : State) : Memory 32 :=
  nttInverse s.k s.rev ((s.transformed.multiplyElems .b0 .b1).buf .b0)

theorem commandEffects_multiply (s : State) :
    commandEffects [.nttF .b0, .nttF .b1, .pwmul .b0 .b1, .nttI .b0, .carry .b0] s =
      (s.transformed.setBuf .b0 s.convolved).normalise s.convolved := by
  change commandEffects [.nttI .b0, .carry .b0] (s.transformed.multiplyElems .b0 .b1) = _
  rw [multiplyElems_eq_setBuf]
  rfl

/-- The block is ready, with the table of length `2^k`, field elements in the buffers and a result in form. -/
structure State.SetUp (k : Nat) (s : State) : Prop where
  ready : s.Ready
  k_eq : s.k = k
  tableValid : s.tableValid = true
  table : s.TableRecord
  inField : ∀ d, (s.buf d).inField
  result : s.ResultRecord

theorem State.SetUp.setBuf {k : Nat} {s : State} (h : s.SetUp k) (d : Buffer) {m : Memory 32} (hm : m.inField) :
    (s.setBuf d m).SetUp k where
  ready := by simpa [State.Ready, State.ErrorFree] using h.ready
  k_eq := by simpa using h.k_eq
  tableValid := by simpa [State.tableValid] using h.tableValid
  table := h.table.of_same ⟨by simp, by simp, by simp⟩
  inField b := by
    rw [State.setBuf_buf]
    split
    · exact hm
    · exact h.inField b
  result := h.result.of_same ⟨by simp, by simp⟩

theorem State.SetUp.script {k : Nat} {s : State} (h : s.SetUp k) (es : List HostEvent) :
    State.SetUp k { s with script := es } :=
  ⟨h.ready, h.k_eq, h.tableValid, h.table.of_same ⟨rfl, rfl, rfl⟩, h.inField, h.result.of_same ⟨rfl, rfl⟩⟩

/-- The four commands leave the cyclic convolution of the buffers, modulo P (R171). -/
theorem elem_convolved {k : Nat} {s : State} (h : s.SetUp k) (hk : k ≤ Config.KMAX) {t : Nat} (ht : t < 2 ^ k) :
    elem s.convolved t = cyclicNat (2 ^ k) (elem (s.buf .b0)) (elem (s.buf .b1)) t % Config.P := by
  obtain ⟨_, rfl, hv, htable, hf, _⟩ := h
  have hF : (s.transformed.buf .b0).inField := inField_nttForward s.k s.rev (hf .b0)
  exact elem_nttInverse_products (hf .b0) (hf .b1) (inField_multiplyElems .b1 hF) hk
    (fun i hi => htable.entry hv hi) (fun i hi => elem_multiplyElems .b0 .b1 (s := s.transformed) hi) ht

/-- With the operands loaded no coefficient wraps around, in the index or modulo P: the coefficients denote the product. -/
theorem coeffSum_convolved {k : Nat} {a b : List Nat} {s : State} (h : s.SetUp k) (hm : MultiplyReady a b s)
    (ha : 1 ≤ a.length) (hb : 1 ≤ b.length) :
    coeffSum s.convolved (2 ^ k) = decimalValue a * decimalValue b := by
  obtain rfl := h.k_eq
  have hn : a.length + b.length - 1 ≤ 2 ^ s.k := hm.p2
  have hx (i : Nat) : a.reverse.getD i 0 ≤ 9 := getD_le_of_forall_le (by simpa using hm.digitsA) i
  have hy (j : Nat) : b.reverse.getD j 0 ≤ 9 := getD_le_of_forall_le (by simpa using hm.digitsB) j
  have hw (i j : Nat) (hij : 2 ^ s.k ≤ i + j) : a.reverse.getD i 0 * b.reverse.getD j 0 = 0 := by
    rcases Nat.lt_or_ge i a.length with hi | hi
    · rw [List.getD_eq_default b.reverse _ (by rw [List.length_reverse]; omega), Nat.mul_zero]
    · rw [List.getD_eq_default a.reverse _ (by rwa [List.length_reverse]), Nat.zero_mul]
  have hlt (t : Nat) : cyclicNat (2 ^ s.k) (a.reverse.getD · 0) (b.reverse.getD · 0) t < Config.P := by
    calc cyclicNat (2 ^ s.k) (a.reverse.getD · 0) (b.reverse.getD · 0) t
        ≤ 2 ^ s.k * 81 := cyclicNat_le hw (fun i j => Nat.mul_le_mul (hx i) (hy j)) t
      _ ≤ Config.NCAP * 81 := Nat.mul_le_mul_right 81 (NCAP_of_le hm.p1)
      _ < Config.P := by decide
  rw [decimalValue_eq_sum (digits := a) (n := 2 ^ s.k) (by omega),
    decimalValue_eq_sum (digits := b) (n := 2 ^ s.k) (by omega), ← sum_cyclicNat hw]
  refine Finset.sum_congr rfl fun t ht => ?_
  have hcoeff : cyclicNat (2 ^ s.k) (elem (s.buf .b0)) (elem (s.buf .b1)) t =
      cyclicNat (2 ^ s.k) (a.reverse.getD · 0) (b.reverse.getD · 0) t := cyclicNat_congr hm.p3a hm.p3b t
  rw [elem_convolved h hm.p1 (Finset.mem_range.1 ht), hcoeff, Nat.mod_eq_of_lt (hlt t)]

/-- CARRY leaves a count of at least 1 and the digits of the number that the coefficients denote (R186). -/
theorem digitSum_normalise {s : State} (hk : s.k ≤ Config.KMAX) (m : Memory 32) :
    1 ≤ (s.normalise m).rlen.toNat ∧ digitSum (s.normalise m).dig (s.normalise m).rlen.toNat = coeffSum m s.n := by
  obtain ⟨hn, _, _, _, hsum, _⟩ := carryDigits_spec s.n m s.dig
  have hm : 1 ≤ (carryDigits s.n m s.dig).2 := (one_le_n s).trans hn
  rw [toNat_rlen_normalise hk, State.normalise_dig]
  exact ⟨(trim_spec _ hm).1, (digitSum_trim _ hm).trans hsum⟩

/-! ### The command sequence (R197) -/

/-- SETN (R102) writes CFG and nothing else in NTTE. -/
theorem transact_setLength (k : Nat) {s : State} (hb : s.status.busy = false) :
    transact [.write (Location.register .cfg).address (BitVec.ofNat 32 k)] s =
      .ok { s with logn := (BitVec.ofNat 32 k).extractLsb' 0 5, script := [] } := by
  rw [transact_writeRegister [] .cfg _ hb]
  rfl

theorem toNat_setLength {k : Nat} (hk : k ≤ Config.KMAX) : ((BitVec.ofNat 32 k).extractLsb' 0 5).toNat = k := by
  have hlt : k < 32 := hk.trans_lt (by decide)
  rw [extractLsb'_logn, BitVec.toNat_ofNat, BitVec.toNat_ofNat]
  omega

/-- BITREV and both CLR set the block up for the length in CFG and clear the active ranges. -/
theorem exists_runCommands_setUp {k : Nat} {s : State} (hr : s.Ready) (hsk : s.k = k) (hk : k ≤ Config.KMAX)
    (hf : ∀ d, (s.buf d).inField) (hR : s.ResultRecord) :
    ∃ t, runCommands [.bitrev, .clr .b0, .clr .b1] s = .ok t ∧ t.SetUp k ∧ ∀ d, ∀ i < 2 ^ k, (t.buf d).get i = 0 := by
  subst hsk
  obtain ⟨t, hrun, hready, hwork⟩ := runCommands_of_ready hr rfl hk
    (.inr (by decide : ∀ i ∈ [.bitrev, .clr .b0, .clr .b1], usesTable i = false))
  have after {α : Type} (f : State → α) :
      f t.work = f (commandEffects [.bitrev, .clr .b0, .clr .b1] s).work := congrArg f hwork
  have hlogn : t.logn = s.logn := after State.logn
  have hbuf (d : Buffer) : t.buf d = clearElems s.n (s.buf d) := by
    cases d
    · exact after State.buf0
    · exact after State.buf1
  refine ⟨t, hrun, ⟨hready, congrArg BitVec.toNat hlogn, ?_, ?_, fun d => ?_, ?_⟩, fun d i hi => ?_⟩
  · have hrevv : t.status.revv = true := after (·.status.revv)
    have hrevk : t.status.revk = s.logn := after (·.status.revk)
    rw [State.tableValid, hrevv, hrevk, hlogn, beq_self_eq_true, Bool.and_true]
  · exact (tableRecord_buildRev hk).of_same ⟨after State.rev, after (·.status.revv), after (·.status.revk)⟩
  · exact hbuf d ▸ inField_clearElems (hf d) s.n
  · exact hR.of_same ⟨after State.rlen, after State.dig⟩
  · rw [hbuf, get_clearElems]
    exact if_pos hi

/-- The digit writes into clear buffers meet the driver's preconditions P1 to P5 (R196). -/
theorem exists_transact_multiplyReady {k : Nat} {a b : List Nat} {s : State} (h : s.SetUp k) (hk : k ≤ Config.KMAX)
    (hclear : ∀ d, ∀ i < 2 ^ k, (s.buf d).get i = 0) (ha : 1 ≤ a.length ∧ ∀ d ∈ a, d ≤ 9)
    (hb : 1 ≤ b.length ∧ ∀ d ∈ b, d ≤ 9) (hn : a.length + b.length - 1 ≤ 2 ^ k) :
    ∃ t, transact (loadDigits .b0 a ++ loadDigits .b1 b) s = .ok t ∧ t.SetUp k ∧ MultiplyReady a b t := by
  obtain ⟨ha1, ha9⟩ := ha
  obtain ⟨hb1, hb9⟩ := hb
  obtain ⟨m, hm, hrun, hget⟩ := transact_loadDigits .b0 h.ready.1 ha9 (by omega) (NCAP_of_le hk) (h.inField .b0)
    (hclear .b0)
  have h0 : (s.setBuf .b0 m).SetUp k := h.setBuf .b0 hm
  obtain ⟨m', hm', hrun', hget'⟩ := transact_loadDigits .b1 (s := s.setBuf .b0 m) h0.ready.1 hb9 (by omega)
    (NCAP_of_le hk) (h0.inField .b1) (hclear .b1)
  have h1 := (h0.setBuf .b1 hm').script []
  refine ⟨_, ?_, h1, ?_⟩
  · rw [hrun, ← List.append_nil (loadDigits .b1 b), hrun', transact_nil]
  · have hlen := h1.k_eq
    subst hlen
    exact ⟨hk, hn, hget, hget', ha9, hb9, h1.tableValid, h1.ready⟩

/-- The transforms, the product and the carry leave the digits of the product of the operands. -/
theorem exists_runCommands_product {k : Nat} {a b : List Nat} {s : State} (h : s.SetUp k) (hm : MultiplyReady a b s)
    (ha : 1 ≤ a.length) (hb : 1 ≤ b.length) :
    ∃ t, runCommands [.nttF .b0, .nttF .b1, .pwmul .b0 .b1, .nttI .b0, .carry .b0] s = .ok t ∧ t.Ready ∧
      t.ResultRecord ∧ 1 ≤ t.rlen.toNat ∧ digitSum t.dig t.rlen.toNat = decimalValue a * decimalValue b := by
  obtain ⟨t, hrun, hready, hwork⟩ := runCommands_of_ready h.ready rfl hm.p1 (.inl h.tableValid)
  rw [commandEffects_multiply] at hwork
  have hk : (s.transformed.setBuf .b0 s.convolved).k ≤ Config.KMAX := hm.p1
  have after {α : Type} (f : State → α) : f t.work = f (State.work _) := congrArg f hwork
  have hdig : t.dig = ((s.transformed.setBuf .b0 s.convolved).normalise s.convolved).dig := after State.dig
  have hrlen : t.rlen = ((s.transformed.setBuf .b0 s.convolved).normalise s.convolved).rlen := after State.rlen
  obtain ⟨hone, hsum⟩ := digitSum_normalise hk s.convolved
  refine ⟨t, hrun, hready, ?_, hrlen ▸ hone, ?_⟩
  · exact (resultRecord_normalise hk s.convolved (h.result.of_same ⟨rfl, rfl⟩)).of_same ⟨hrlen, hdig⟩
  · rw [hdig, hrlen, hsum, ← coeffSum_convolved h hm ha hb, ← h.k_eq]
    rfl

/-- The formatter's reads print the number that a result denotes, and record no error (R198). -/
theorem exists_readResult {s : State} (hr : s.Ready) (hR : s.ResultRecord) (hone : 1 ≤ s.rlen.toNat) :
    ∃ t, (readWord (.register .rlen) s >>= fun x => readDigits x.2.toNat x.1) =
      .ok (t, Nat.toDigits 10 (digitSum s.dig s.rlen.toNat)) ∧ t.ErrorFree := by
  have hread := readWord_of_idle hr.1 (locate_address_register .rlen) nofun
  have hlen : ((Location.register .rlen).value s).toNat = s.rlen.toNat := BitVec.toNat_setWidth_of_le (by decide)
  obtain ⟨t, ht, hst⟩ := readDigits_of_idle
    (s := { s with script := [], lastRead := some ((Location.register .rlen).value s) }) hr.1 hR.count
  refine ⟨t, ?_, (congrArg Status.err hst).trans hr.2⟩
  rw [hread, ← digitChars_eq_toDigits hR hone, ← ht, ← hlen]
  rfl

/-- The sequence on operands whose product fits a length of at most `2^KMAX`. -/
theorem exists_multiplySequence {k : Nat} {a b : List Nat} {s : State} (hs : s.Inv) (hr : s.Ready)
    (hk : k ≤ Config.KMAX) (ha : 1 ≤ a.length ∧ ∀ d ∈ a, d ≤ 9) (hb : 1 ≤ b.length ∧ ∀ d ∈ b, d ≤ 9)
    (hn : a.length + b.length - 1 ≤ 2 ^ k) :
    ∃ t, multiplySequence k a b s = .ok (t, Nat.toDigits 10 (decimalValue a * decimalValue b)) ∧ t.ErrorFree := by
  obtain ⟨s₁, hrun₁, hs₁, hclear⟩ := exists_runCommands_setUp
    (s := { s with logn := (BitVec.ofNat 32 k).extractLsb' 0 5, script := [] }) hr (toNat_setLength hk) hk
    hs.fieldElements.buf (hs.resultRecord.of_same ⟨rfl, rfl⟩)
  obtain ⟨s₂, hrun₂, hs₂, hm⟩ := exists_transact_multiplyReady hs₁ hk hclear ha hb hn
  obtain ⟨s₃, hrun₃, hr₃, hR, hone, hsum⟩ := exists_runCommands_product hs₂ hm ha.1 hb.1
  obtain ⟨t, hread, ht⟩ := exists_readResult hr₃ hR hone
  refine ⟨t, ?_, ht⟩
  rw [multiplySequence, transact_setLength k hr.1, ok_bind, hrun₁, ok_bind, hrun₂, ok_bind, hrun₃, ok_bind, ← hsum,
    ← hread]

/-! ### `multiply` and the session (R200, R243) -/

/-- An operand that is the single digit 0 denotes 0 (R192). -/
theorem product_of_zeroOperand {a b : List Nat} (h : (isZeroOperand a || isZeroOperand b) = true) :
    decimalValue a * decimalValue b = 0 := by
  rw [Bool.or_eq_true, isZeroOperand, isZeroOperand, decide_eq_true_iff, decide_eq_true_iff] at h
  rcases h with rfl | rfl
  · exact Nat.zero_mul _
  · exact Nat.mul_zero _

theorem exists_multiply {lmax k : Nat} {x y : List Char} {more : List (List Char)} {a b : List Nat} {s : State}
    (hparse : parseTokens (x :: y :: more) = .ok (a, b)) (hsizes : checkSizes Config.KMAX lmax a b = .ok k)
    (hs : s.Inv) (hr : s.Ready) :
    ∃ t, multiply Config.KMAX lmax (x :: y :: more) s =
      .ok (t, Nat.toDigits 10 (decimalValue a * decimalValue b)) ∧ t.ErrorFree := by
  have hmultiply : multiply Config.KMAX lmax (x :: y :: more) s =
      if isZeroOperand a || isZeroOperand b then .ok (s, [charOfDigit 0]) else multiplySequence k a b s := by
    simp only [multiply, hparse, hsizes, ok_bind]
    rfl
  rw [hmultiply]
  split
  · rename_i hzero
    exact ⟨s, by rw [product_of_zeroOperand hzero]; rfl, hr.2⟩
  · obtain ⟨ha, hb⟩ := digits_of_parseTokens hparse
    obtain ⟨hplan, hk⟩ := plan_of_checkSizes hsizes
    exact exists_multiplySequence hs hr hk ha hb (hplan ▸ (plannerIsMinimal _ _ ha.1 hb.1).1)

/-- A session of one multiplication has that one's result. -/
theorem multiplyEach_singleton {kmax lmax : Nat} {tokens : List (List Char)} {s t : State} {r : List Char}
    (h : multiply kmax lmax tokens s = .ok (t, r)) : multiplyEach kmax lmax [tokens] s = .ok (t, [r]) := by
  simp only [multiplyEach, h, ok_bind]
  rfl

/-- Settles O60: the table and the clear buffers are set up whatever the block held; the loaded digits are the operands
(R195), whose coefficients neither wrap around nor reach P, so the transforms give the product's (R171); the carry makes
them digits (R186) and the formatter prints them (R198).  A session starts from a reset block. -/
theorem multiplyYieldsTheProduct : Obligations.MultiplyYieldsTheProduct := by
  intro lmax x y more a b k s hparse hsizes
  refine ⟨fun hs hr => exists_multiply hparse hsizes hs hr, fun asks => ?_⟩
  obtain ⟨v, hboot⟩ := boot_unknown asks s
  obtain ⟨t, ht, he⟩ := exists_multiply hparse hsizes
    (inv_resetMachine { s with script := [], lastRead := v }) ⟨rfl, rfl⟩
  refine ⟨t, ?_, he⟩
  rw [session, hboot, ok_bind]
  exact multiplyEach_singleton ht

end Sys2Proof.Machine

/-! PROOFS. What the transforms compute (42_ntt.md, 43_pointwise_and_buffer.md): the order of the root, the closed forms
of NTT.F and NTT.I, the permutation, and the convolution that the pipeline of commands leaves. -/

namespace Sys2Proof.Machine

/-! ### Remainders modulo P, read in `ZMod P` -/

theorem mod_P_eq_one_iff (x : Nat) : x % Config.P = 1 ↔ (x : ZMod Config.P) = 1 := by
  have h : (x : ZMod Config.P) = (1 : Nat) ↔ x % Config.P = 1 % Config.P := ZMod.natCast_eq_natCast_iff' x 1 Config.P
  rwa [Nat.cast_one, Nat.mod_eq_of_lt (show 1 < Config.P by decide), Iff.comm] at h

/-- A buffer element is the remainder of any number that it is in `ZMod P`. -/
theorem elem_eq_mod_P {m : Memory 32} (hm : m.inField) {j x : Nat} (h : val m j = x) : elem m j = x % Config.P :=
  eq_of_cast_eq (elem_lt hm j) (Nat.mod_lt _ P_pos) (by rwa [ZMod.natCast_mod])

/-- The sum of R159 over a buffer is an evaluation at the powers of the root. -/
theorem cast_sum_mul_pow (n : Nat) (m : Memory 32) (w j : Nat) :
    ((∑ i ∈ Finset.range n, elem m i * w ^ (i * j) : Nat) : ZMod Config.P) =
      evalAt n (val m) (w : ZMod Config.P) j := by
  simp [evalAt, val]

/-! ### The roots of a length (R159, R161) -/

section roots

variable {k : Nat} (hk : k ≤ Config.KMAX)
include hk

theorem twiddle_pow_length {root : Nat} (hr : powMod root ((Config.P - 1) / 2) = Config.P - 1) :
    powMod root ((Config.P - 1) / 2 ^ k) ^ 2 ^ k % Config.P = 1 := by
  rw [mod_P_eq_one_iff, Nat.cast_pow, cast_twiddle, stageRoot_self hr hk]

/-- No smaller positive power of the root is 1: its order is exactly the length. -/
theorem twiddle_pow_ne_one {root : Nat} (hr : powMod root ((Config.P - 1) / 2) = Config.P - 1) {m : Nat} (h0 : 0 < m)
    (hm : m < 2 ^ k) : powMod root ((Config.P - 1) / 2 ^ k) ^ m % Config.P ≠ 1 := by
  rw [Ne, mod_P_eq_one_iff, Nat.cast_pow, cast_twiddle]
  exact pow_ne_one_of_lt_orderOf (Nat.ne_of_gt h0) (by rwa [orderOf_stageRoot hr hk])

end roots

theorem twiddle_mul_twiddle (k : Nat) :
    powMod Config.G ((Config.P - 1) / 2 ^ k) * powMod Config.GINV ((Config.P - 1) / 2 ^ k) % Config.P = 1 := by
  rw [mod_P_eq_one_iff, Nat.cast_mul, cast_twiddle, cast_twiddle, stageRoot_mul]

/-! ### The closed forms (R159) -/

section closedForms

variable {k : Nat} {rev : Memory Config.KMAX} {m : Memory 32} (hm : m.inField) (hk : k ≤ Config.KMAX)
  (ht : ∀ i < 2 ^ k, (rev.get i).toNat = revBits k i) {j : Nat} (hj : j < 2 ^ k)
include hm hk ht hj

theorem elem_nttForward : elem (nttForward k rev m) j =
    (∑ i ∈ Finset.range (2 ^ k), elem m i * powMod Config.G ((Config.P - 1) / 2 ^ k) ^ (i * j)) % Config.P := by
  refine elem_eq_mod_P (inField_nttForward k rev hm) ?_
  rw [val_nttForward hm hk ht hj, cast_sum_mul_pow, cast_twiddle]

theorem elem_nttInverse : elem (nttInverse k rev m) j = powMod (2 ^ k) (Config.P - 2) *
    (∑ i ∈ Finset.range (2 ^ k), elem m i * powMod Config.GINV ((Config.P - 1) / 2 ^ k) ^ (i * j)) % Config.P := by
  refine elem_eq_mod_P (inField_nttInverse k rev hm) ?_
  rw [val_nttInverse hm hk ht hj, Nat.cast_mul, cast_sum_mul_pow, cast_twiddle, mul_comm]

end closedForms

/-! ### The pipeline (R171) -/

/-- With the transforms of a state's two buffers in the buffers of `u`, PWMUL and then the inverse transform give the
cyclic convolution of the two, modulo P. -/
theorem elem_nttInverse_multiplyElems {s u : State} (hf : s.FieldElements) (hk : s.k ≤ Config.KMAX)
    (ht : ∀ i < 2 ^ s.k, (s.rev.get i).toNat = revBits s.k i) (hn : u.k = s.k)
    (h0 : u.buf .b0 = nttForward s.k s.rev (s.buf .b0)) (h1 : u.buf .b1 = nttForward s.k s.rev (s.buf .b1))
    {t : Nat} (hi : t < s.n) : elem (nttInverse s.k s.rev ((u.multiplyElems .b0 .b1).buf .b0)) t =
      cyclicNat s.n (elem (s.buf .b0)) (elem (s.buf .b1)) t % Config.P := by
  have hu : (u.buf .b0).inField := h0 ▸ inField_nttForward s.k s.rev (hf.buf .b0)
  refine elem_nttInverse_products (hf.buf .b0) (hf.buf .b1) (inField_multiplyElems .b1 hu) hk ht (fun i hi => ?_) hi
  rw [elem_multiplyElems .b0 .b1 (by rwa [State.n, hn]), h0, h1]

/-! ### The obligations -/

/-- Settles O41: the induction over the stages gives an evaluation at the powers of a root of exact order n. -/
theorem nttForwardEvaluates : Obligations.NttForwardEvaluates := by
  intro d s hk hv ht hf
  refine ⟨⟨twiddle_pow_length hk half_G, fun _ => twiddle_pow_ne_one hk half_G⟩, _, exec_nttF hk hv, fun j hj => ?_⟩
  rw [State.finish_buf, State.setBuf_buf_same]
  exact elem_nttForward (hf.buf d) hk (fun i hi => ht.entry hv hi) hj

/-- Settles O42: the stages evaluate at the powers of the inverse root, and the scaling multiplies by the inverse of
n. -/
theorem nttInverseEvaluates : Obligations.NttInverseEvaluates := by
  intro d s hk hv ht hf
  have hinv : s.n * powMod s.n (Config.P - 2) % Config.P = 1 :=
    mulMod_powMod_inverse (Nat.ne_of_gt (one_le_n s)) (two_pow_lt_P hk)
  refine ⟨⟨hinv, twiddle_mul_twiddle s.k⟩, _, exec_nttI hk hv, fun j hj => ?_⟩
  rw [State.finish_buf, State.setBuf_buf_same]
  exact elem_nttInverse (hf.buf d) hk (fun i hi => ht.entry hv hi) hj

/-- Settles O46: each command leaves k and the table as they are for the next one, and the inverse transform of the
products of two transforms is the convolution. -/
theorem pipelineConvolves : Obligations.PipelineConvolves := by
  intro s hk hv ht hf
  refine ⟨_, _, _, _, exec_nttF hk hv, exec_nttF (by simpa using hk) (by simpa using hv),
    exec_pwmul (by simpa using hk) .b0 .b1, exec_nttI (by simpa using hk) (by simpa using hv), fun t hi => ?_⟩
  change elem (State.buf _ .b0) t = _
  simp only [State.finish_buf, State.setBuf_buf_same, State.finish_setBuf_k, State.finish_rev, State.setBuf_rev]
  exact elem_nttInverse_multiplyElems hf hk (fun i hi => ht.entry hv hi) (by simp) rfl rfl hi

/-- Settles O38: each pair of indices is swapped once, and below n = 4 every bit reversal is its own index. -/
theorem permutationReordersTheBuffer : Obligations.PermutationReordersTheBuffer := by
  intro k rev m _ ht
  refine ⟨fun i hi => ?_, fun i hi => ?_, fun hk => permute_of_le_one m hk ht⟩
  · rw [get_permute m ht, if_pos hi]
  · rw [get_permute m ht, if_neg (Nat.not_lt.2 hi)]

end Sys2Proof.Machine

/-! PROOFS. Field elements and confinement (10_state.md R24, 42_ntt.md R163): every step keeps the registers and buffers
field elements, and no command writes beyond its active range. -/

namespace Sys2Proof.Machine

/-! ### The field-element invariant (R24) -/

theorem State.FieldElements.of_same {s t : State} (hs : s.FieldElements) (hx : t.opx = s.opx) (hy : t.opy = s.opy)
    (hr : t.res = s.res) (h0 : t.buf0 = s.buf0) (h1 : t.buf1 = s.buf1) : t.FieldElements :=
  ⟨hx ▸ hs.opx, hy ▸ hs.opy, hr ▸ hs.res, h0 ▸ hs.buf0, h1 ▸ hs.buf1⟩

theorem State.FieldElements.setBuf {s : State} (h : s.FieldElements) (d : Buffer) {m : Memory 32} (hm : m.inField) :
    (s.setBuf d m).FieldElements := by
  cases d
  · exact ⟨h.opx, h.opy, h.res, hm, h.buf1⟩
  · exact ⟨h.opx, h.opy, h.res, h.buf0, hm⟩

theorem State.FieldElements.scalar {s : State} (h : s.FieldElements) {f : Nat → Nat → Nat}
    (hf : f s.opx.toNat s.opy.toNat < Config.P) : (s.scalar f).FieldElements where
  opx := h.opx
  opy := h.opy
  res := by rwa [State.scalar_res, toNat_ofNat_of_lt_P hf]
  buf0 := h.buf0
  buf1 := h.buf1

theorem fieldElements_commandEffect (i : Instr) {s : State} (h : s.FieldElements) :
    (commandEffect i s).FieldElements := by
  cases i with
  | nop => exact h
  | addm => exact h.scalar (addMod_lt h.opx h.opy)
  | subm => exact h.scalar (subMod_lt h.opx h.opy)
  | mulm => exact h.scalar (mulMod_lt _ _)
  | powm => exact h.scalar (powMod_lt _ _)
  | bitrev | carry d => exact h.of_same rfl rfl rfl rfl rfl
  | nttF d => exact h.setBuf d (inField_nttForward s.k s.rev (h.buf d))
  | nttI d => exact h.setBuf d (inField_nttInverse s.k s.rev (h.buf d))
  | pwmul d b =>
    rw [commandEffect, multiplyElems_eq_setBuf]
    exact h.setBuf d (inField_multiplyElems b (h.buf d))
  | clr d => exact h.setBuf d (inField_clearElems (h.buf d) s.n)

theorem fieldElements_of_exec {i : Instr} {s t : State} (hs : s.FieldElements) (h : exec i s = .next t) :
    t.FieldElements := by
  rcases exec_next h with ⟨_, rfl⟩ | ⟨_, _, rfl⟩ | ⟨_, _, _, rfl⟩
  · exact (fieldElements_commandEffect i hs).of_same rfl rfl rfl rfl rfl
  · exact hs.of_same rfl rfl rfl rfl rfl
  · exact hs.of_same rfl rfl rfl rfl rfl

/-! ### The active range (R163) -/

theorem get_buf_setBuf_above {s : State} {d : Buffer} {m : Memory 32} {j : Nat} (h : m.get j = (s.buf d).get j)
    (b : Buffer) : ((s.setBuf d m).buf b).get j = (s.buf b).get j := by
  rw [State.setBuf_buf]
  split
  · subst b
    exact h
  · rfl

/-- A command that passes its checks leaves every buffer alone at and above n. -/
theorem get_buf_commandEffect_above {i : Instr} {s : State} (hc : ChecksPass i s) (ht : s.TableRecord) (b : Buffer)
    {j : Nat} (hj : s.n ≤ j) : ((commandEffect i s).buf b).get j = (s.buf b).get j := by
  cases i with
  | nop => rfl
  | addm | subm | mulm | powm => exact congrArg (Memory.get · j) (State.scalar_buf _ s b)
  | bitrev => exact congrArg (Memory.get · j) (State.buildRev_buf s b)
  | carry d => exact congrArg (Memory.get · j) (State.normalise_buf _ s b)
  | nttF d => exact get_buf_setBuf_above (get_nttForward_above _ (fun _ => ht.entry (hc.2 rfl)) hj) b
  | nttI d => exact get_buf_setBuf_above (get_nttInverse_above _ (fun _ => ht.entry (hc.2 rfl)) hj) b
  | pwmul d b' =>
    rw [commandEffect, multiplyElems_eq_setBuf]
    exact get_buf_setBuf_above ((get_multiplyElems d b' s j).trans (if_neg (Nat.not_lt.2 hj))) b
  | clr d => exact get_buf_setBuf_above ((get_clearElems s.n _ j).trans (if_neg (Nat.not_lt.2 hj))) b

section

variable {i : Instr} {s t : State} (h : exec i s = .next t) {j : Nat}
include h

theorem get_buf_of_exec_above (ht : s.TableRecord) (b : Buffer) (hj : s.n ≤ j) :
    (t.buf b).get j = (s.buf b).get j := by
  rcases exec_next h with ⟨hc, rfl⟩ | ⟨_, _, rfl⟩ | ⟨_, _, _, rfl⟩
  · rw [State.finish_buf]
    exact get_buf_commandEffect_above hc ht b hj
  · rw [State.failCommand_buf]
  · rw [State.failCommand_buf]

/-- Only BITREV writes REV, and it writes n entries (R143). -/
theorem get_rev_of_exec_above (hj : s.n ≤ j) : t.rev.get j = s.rev.get j := by
  by_cases hi : i = .bitrev
  · subst hi
    rcases exec_next h with ⟨_, rfl⟩ | ⟨_, _, rfl⟩ | ⟨hu, _⟩
    · exact get_buildRev_of_le hj
    · rfl
    · cases hu
  · rw [((onlyTargets_of_exec h).table hi).rev]

/-- Only CARRY writes DIG: n digits by the loop and at most nine by the flush (R181, R182). -/
theorem get_dig_of_exec_above (hj : s.n + 9 ≤ j) : t.dig.get j = s.dig.get j := by
  by_cases hi : ∃ d, i = .carry d
  · obtain ⟨d, rfl⟩ := hi
    rcases exec_next h with ⟨_, rfl⟩ | ⟨_, _, rfl⟩ | ⟨hu, _⟩
    · obtain ⟨_, hle, _, habove, _⟩ := carryDigits_spec s.n (s.buf d) s.dig
      exact habove j (hle.trans hj)
    · rfl
    · cases hu
  · rw [((onlyTargets_of_exec h).result fun d hd => hi ⟨d, hd⟩).dig]

end

/-! ### The obligations -/

/-- Settles O53: the field functions answer field elements, and the host stores no other value. -/
theorem fieldElementsAreKept : Obligations.FieldElementsAreKept := by
  intro s t hs h
  exact step_keeps (Q := State.FieldElements)
    (command := fun _ _ _ => fieldElements_of_exec)
    (take := fun _ _ hs => hs.of_same rfl rfl rfl rfl rfl)
    (raise := fun _ _ hs => hs.of_same rfl rfl rfl rfl rfl)
    (fail := fun _ _ hs => hs.of_same rfl rfl rfl rfl rfl)
    (answer := fun _ _ hs => hs.of_same rfl rfl rfl rfl rfl)
    (draw := fun _ hs => hs.of_same rfl rfl rfl rfl rfl)
    (reset := fun s => (inv_resetMachine s).fieldElements)
    (accept := fun _ _ _ hs => hs.of_same rfl rfl rfl rfl rfl)
    (cfg := fun _ _ hs => hs.of_same rfl rfl rfl rfl rfl)
    (opx := fun _ _ hs hv => ⟨hv, hs.opy, hs.res, hs.buf0, hs.buf1⟩)
    (opy := fun _ _ hs hv => ⟨hs.opx, hv, hs.res, hs.buf0, hs.buf1⟩)
    (store := fun _ b i _ hs _ hv => hs.setBuf b (inField_set (hs.buf b) i hv)) hs h

/-- Settles O17, memory by memory. -/
theorem commandsAreConfinedToTheActiveRange : Obligations.CommandsAreConfinedToTheActiveRange := by
  intro i s t h
  exact ⟨fun ht d _ => get_buf_of_exec_above h ht d, fun _ => get_rev_of_exec_above h,
    fun _ => get_dig_of_exec_above h⟩

end Sys2Proof.Machine

/-! PROOFS. Host reads of a busy block (20_memory.md R69). -/

namespace Sys2Proof.Machine

theorem readReturns_of_hostOwned {a : Address} {l : Location} (s : State) (hl : locate a = l) (hm : l ≠ .unmapped)
    (ho : l.engineOwned = false) : ReadReturns (l.value s) s (hostRead a s) := by
  subst hl
  rw [hostRead, readLocation, if_neg hm, ho, Bool.and_false, if_neg Bool.false_ne_true]
  rfl

theorem readDraws_of_engineOwned {a : Address} {s : State} (hb : s.status.busy = true)
    (ho : (locate a).engineOwned = true) : ReadDraws s (hostRead a s) := by
  have hm : locate a ≠ .unmapped := fun h => by simp [h, Location.engineOwned] at ho
  rw [hostRead, readLocation, if_neg hm, hb, ho, Bool.and_true, if_pos rfl]
  exact ⟨_, rfl⟩

/-- The mapped indices of regions 1 to 4 are those of the four memories (R63). -/
theorem engineOwned_locateParts {region i : Nat} (h1 : 1 ≤ region) (h : mappedIndex region i) :
    (locateParts region i).engineOwned = true := by
  rcases h with ⟨rfl, _⟩ | ⟨rfl | rfl | rfl, hi⟩ | ⟨rfl, hi⟩
  · exact absurd h1 (by decide)
  all_goals
    rw [locateParts, if_pos hi]
    rfl

/-- Settles O23: of the mapped locations, RES, RLEN and the memories are the engine's and draw; the others return their
values. -/
theorem hostReadWhileBusy : Obligations.HostReadWhileBusy := by
  intro s region i hr hi hb
  have register {r : Register} (ho : (Location.register r).engineOwned = false) :
      ReadReturns (r.value s) s (hostRead (Location.register r).address s) :=
    readReturns_of_hostOwned s (locate_address_register r) nofun ho
  have draw {r : Register} (ho : (Location.register r).engineOwned = true) :
      ReadDraws s (hostRead (Location.register r).address s) :=
    readDraws_of_engineOwned hb (by rwa [locate_address_register])
  refine ⟨?id, ?cap, ?ctrl, ?status, ?cfg, ?cmd, ?opx, ?opy, ?result, ?memories, ?unmapped⟩
  case memories =>
    exact fun h1 h => readDraws_of_engineOwned hb (locate_addressOf hr hi ▸ engineOwned_locateParts h1 h)
  case unmapped => exact fun h => readRefused_of_unmapped s ((locate_addressOf hr hi).trans (locateParts_unmapped h))
  all_goals rintro rfl
  case result =>
    rintro (rfl | rfl)
    · exact draw (r := .res) rfl
    · exact draw (r := .rlen) rfl
  all_goals rintro rfl
  case id => exact register (r := .id) rfl
  case cap => exact register (r := .cap) rfl
  case ctrl => exact register (r := .ctrl) rfl
  case status => exact ⟨_, register (r := .status) rfl, s.status.toNat_toWord⟩
  case cfg => exact ⟨_, register (r := .cfg) rfl, BitVec.toNat_setWidth_of_le (by decide)⟩
  case cmd => exact register (r := .cmd) rfl
  case opx => exact register (r := .opx) rfl
  case opy => exact register (r := .opy) rfl

end Sys2Proof.Machine

/-! PROOFS. The laws of `rev_k` (41_bit_reversal.md R142) and the bounds of CARRY (44_carry_normalizer.md R184). -/

namespace Sys2Proof.Machine

/-- Settles O36, from the bits of `rev_k`. -/
theorem revBitsLaws : Obligations.RevBitsLaws := by
  intro k i _ hi
  refine ⟨revBits_revBits hi, revBits_of_zero k, revBits_of_ones k, fun hk _ => ?_⟩
  obtain ⟨k, rfl⟩ := Nat.exists_eq_succ_of_ne_zero (Nat.ne_of_gt hk)
  exact ⟨revBits_double k i, revBits_double_succ k i⟩

/-- A carry of at most 110916039 into a coefficient of at most `P - 1` leaves such a carry (R184 (a)). -/
theorem carryLoop_carry_le_of_inField (n : Nat) {m : Memory 32} (hm : m.inField) (dig : Memory 4) :
    (carryLoop n m dig).2 ≤ 110916039 :=
  carryLoop_carry_le (b := Config.P - 1) (by decide) n dig fun i => Nat.le_sub_one_of_lt (elem_lt hm i)

/-- Settles O50: the bound on the carry is inductive, and it bounds each position's value; the longest flush is run. -/
theorem carryIsBounded : Obligations.CarryIsBounded := by
  refine ⟨fun n m dig hm => ?_, rfl⟩
  obtain ⟨hn, hle, _⟩ := carryDigits_spec n m dig
  have hcarry := carryLoop_carry_le_of_inField n hm dig
  refine ⟨hcarry, fun i => ?_, hn, hle⟩
  calc elem m i + (carryLoop n m dig).2
      < Config.P + 110916039 := Nat.add_lt_add_of_lt_of_le (elem_lt hm i) hcarry
    _ < 2 ^ 31 := by decide

end Sys2Proof.Machine
